-- ==== Sys2Proof/Word.lean ====
section
/-! DEFINITION. The widths of the spec (00_scope.md R9): a byte, a 16-bit word (the spec's u16) and a
7-bit I2C target address. -/

namespace Sys2Proof

/-- A byte, 0..255 (00_scope.md R9). -/
abbrev Byte := BitVec 8

/-- The spec's u16, 0..65535 (00_scope.md R9). -/
abbrev Word := BitVec 16

/-- A 7-bit I2C target address (10_state.md R13, R18). -/
abbrev Addr7 := BitVec 7

end Sys2Proof
end

