-- ==== Sys2Proof/Machine/Bus.lean ====
section
/-! DEFINITION. The bus port: the five bus events, what the environment answers, the reasons an execution can
fail for, and the draw that stands for a whole execution under `EXECUTOR = Oracle` (42_sequencer.md R90, R92,
R109). -/

namespace Sys2Proof.Machine

/-- A bus event (42_sequencer.md R90): `S`, `Sr`, `P`, `TX(b)`, `RX(ack)`. -/
inductive BusEvent where
  | start
  | restart
  | stop
  | tx (b : Byte)
  | rx (ack : Bool)
  deriving DecidableEq, Repr, Inhabited

/-- The environment's answer to one bus event (42_sequencer.md R90, R91), read by the kind of the event (log 5):
`timeout` is `Timeout` for every event; `answer ack v` is `Ok` for `S`, `Sr` and `P`, `Ack` or `Nack` by `ack` for
`TX`, and `Byte(v)` for `RX`. -/
inductive BusReply where
  | timeout
  | answer (ack : Bool) (v : Byte)
  deriving DecidableEq, Repr, Inhabited

/-- Why an execution failed (42_sequencer.md R92, 60_exceptions.md R154). -/
inductive Reason where
  | readUnderflow
  | writeOverflow
  | illegalOpcode
  | illegalEscape
  | illegalAddress
  | unsupported
  | noAddress
  | nack
  | timeout
  deriving DecidableEq, Repr, Inhabited

/-- One draw of the `Oracle` executor (42_sequencer.md R109, log 14): `failure` is the reason of `Failed`, or none for
`Completed`; `bytes` are the bytes put into `RSP`, their number the count k; `trace` is the bus trace; `consumed` is
where the stream position is left. -/
structure ExecDraw where
  failure  : Option Reason
  bytes    : List Byte
  trace    : List BusEvent
  consumed : Nat
  deriving DecidableEq, Repr, Inhabited

/-- `TRANSPORT_KIND` (00_scope.md R8, 10_state.md R13). -/
inductive TransportKind where
  | hardware
  | bitBanged
  deriving DecidableEq, Repr, Inhabited

/-- `EXECUTOR` (00_scope.md R8, 92_eei_decisions.md D22). -/
inductive Executor where
  | reference
  | oracle
  deriving DecidableEq, Repr, Inhabited

/-- `BCD_MERGE` (00_scope.md R8, 44_register_set.md R137). -/
inductive BcdMerge where
  | replace
  | or
  deriving DecidableEq, Repr, Inhabited

/-- `ALARM_SCHEME` (00_scope.md R8, 45_rtc_codec.md R147). -/
inductive AlarmScheme where
  | cumulative
  | oneHot
  deriving DecidableEq, Repr, Inhabited

end Sys2Proof.Machine
end

