-- ==== Sys2Proof/Config.lean ====
section
/-! DEFINITION. What is fixed for one block, and the free values. Constants with a value are the spec's
(00_scope.md R8). Constants without a body are OPEN parameters of the spec or free values of the model: nothing can
prove a value of them, so a claim that mentions one holds whatever it is. -/

namespace Sys2Proof.Config

open Sys2Proof.Machine

/-- `REG_COUNT` (00_scope.md R8). -/
abbrev regCount : Nat := 19

/-- `BLOCK_MAX` (00_scope.md R8, 43_transport.md R121). -/
abbrev blockMax : Nat := 32

/-- `ESC_THRESHOLD` (00_scope.md R8, 30_encoding.md R62). -/
abbrev escThreshold : Nat := 255

/-- The largest encodable length (92_eei_decisions.md D8). -/
abbrev lengthMax : Nat := 65535

/-- `DEV_ADDR`, by its default (00_scope.md R8, 92_eei_decisions.md D41). -/
abbrev devAddr : Addr7 := 0x68#7

/-- `CMD_CAP`: OPEN in the spec (92_eei_decisions.md D2; log 2). -/
opaque cmdCap : Nat

/-- `RSP_CAP`: OPEN in the spec (92_eei_decisions.md D3; log 2). -/
opaque rspCap : Nat

/-- `STRETCH_LIMIT_US`: OPEN in the spec; no rule reads it (42_sequencer.md R91). -/
opaque stretchLimitUs : Nat

/-- `TRANSPORT_KIND` of the block after reset: the spec names no default (00_scope.md R8; log 2). -/
opaque transportKind : TransportKind

/-- `ADAPTER` of the block after reset: opaque to every rule (00_scope.md R8; log 2). -/
opaque adapter : Nat

/-- Free value: the environment's answer to a bus event, by draw number (42_sequencer.md R90, R91; log 4). -/
opaque busReply : Nat → BusReply

/-- Free value: whether the device can be opened, by draw number (43_transport.md R112; log 4). -/
opaque openDevice : Nat → Bool

/-- Free value: the count a hardware block read returns, by draw number (43_transport.md R122; log 15). -/
opaque blockCount : Nat → Nat

/-- Free value: an execution under `EXECUTOR = Oracle`, by draw number (42_sequencer.md R109; log 14). -/
opaque execDraw : Nat → ExecDraw

/-- Free value: a byte the spec leaves unspecified, by draw number (44_register_set.md R127; log 10). -/
opaque freeByte : Nat → Byte

/-- Free value: `v / d` for a negative `v`, which 00_scope.md R9 does not define (log 11). -/
opaque negativeQuotient : Int → Int → Int

/-- Free value: `v % d` for a negative `v`, which 00_scope.md R9 does not define (log 11). -/
opaque negativeRemainder : Int → Int → Int

/-- Free value: the byte a mask or shift takes of a negative integer, which 00_scope.md R9 does not define (log 11). -/
opaque negativeByte : Int → Byte

end Sys2Proof.Config
end

