-- ==== Sys2Proof/Machine/Memory.lean ====
section
/-! DEFINITION. Byte storage (20_memory.md R41, R47): a list of (index, byte) cells in one canonical form. An index
that no cell lists reads as 0 (log 1), so writing 0 removes the cell. -/

namespace Sys2Proof.Machine

/-- The stored bytes of one buffer. -/
abbrev Memory := List Host.Cell

/-- What an index that no cell lists reads as: zero after `clear()` (40_byte_buffer.md R75); at construction the spec
says any value (R69) and the model chooses zero (log 1). -/
def unlistedByte : Byte := 0#8

/-- The canonical form: indices strictly rising, and no cell that holds what an unlisted index reads as. -/
abbrev Memory.wf (m : Memory) : Prop :=
  m.Pairwise (fun x y => x.1 < y.1) ∧ ∀ c ∈ m, c.2 ≠ unlistedByte

/-- The byte at an index. -/
def Memory.read : Memory → Nat → Byte
  | [], _ => unlistedByte
  | (k, v) :: rest, a => if a = k then v else Memory.read rest a

/-- The memory with a cell of its own for the index, whatever the byte is. -/
def Memory.insert : Memory → Nat → Byte → Memory
  | [], a, v => [(a, v)]
  | (k, w) :: rest, a, v =>
    if a < k then (a, v) :: (k, w) :: rest
    else if a = k then (a, v) :: rest
    else (k, w) :: Memory.insert rest a v

/-- The memory without a cell for the index. -/
def Memory.erase (m : Memory) (a : Nat) : Memory := m.filter (fun c => c.1 != a)

/-- The memory with the byte at the index replaced, in canonical form. -/
def Memory.write (m : Memory) (a : Nat) (v : Byte) : Memory :=
  if v = unlistedByte then Memory.erase m a else Memory.insert m a v

/-- The `n` bytes from an index on, in rising order (20_memory.md R45). -/
def Memory.readList (m : Memory) : Nat → Nat → List Byte
  | _, 0 => []
  | a, n + 1 => Memory.read m a :: Memory.readList m (a + 1) n

/-- The memory with a list of bytes stored from an index on, in rising order (40_byte_buffer.md R71). -/
def Memory.writeList : Memory → Nat → List Byte → Memory
  | m, _, [] => m
  | m, a, v :: rest => Memory.writeList (Memory.write m a v) (a + 1) rest

end Sys2Proof.Machine
end

