-- ==== Sys2Proof/Machine/Values.lean ====
section
/-! DEFINITION. The host port: the statuses (60_exceptions.md R153), the value records (10_state.md R33 to R38), the
host's operations and what the block hands back. The fields of the records are unbounded integers
(92_eei_decisions.md D60). -/

namespace Sys2Proof.Machine

/-- `Status` (10_state.md R38; 60_exceptions.md R153). -/
inductive Status where
  | ok
  | fail
  | sendFail
  | receiveFail
  | receivedLessThanExpected
  | readUnderflow
  | writeOverflow
  deriving DecidableEq, Repr, Inhabited

/-- 12-hour or 24-hour mode (10_state.md R33). -/
inductive HourMode where
  | h24
  | h12
  deriving DecidableEq, Repr, Inhabited

/-- `RtcTime` (10_state.md R33). -/
structure RtcTime where
  hour   : Int
  minute : Int
  second : Int
  mode   : HourMode
  pm     : Bool
  deriving DecidableEq, Repr, Inhabited

/-- `RtcDateTime` (10_state.md R34). -/
structure RtcDateTime extends RtcTime where
  day     : Int
  weekday : Int
  month   : Int
  year    : Int
  deriving DecidableEq, Repr, Inhabited

/-- `AlarmInterval` (10_state.md R36). -/
inductive AlarmInterval where
  | everySecond
  | seconds
  | minutes
  | hours
  | weekDay
  | days
  deriving DecidableEq, Repr, Inhabited

/-- `RtcAlarm` (10_state.md R35). -/
structure RtcAlarm extends RtcTime where
  day      : Int
  weekday  : Int
  enabled  : Bool
  interval : AlarmInterval
  deriving DecidableEq, Repr, Inhabited

/-- `AlarmId` (10_state.md R37). -/
inductive AlarmId where
  | first
  | second
  deriving DecidableEq, Repr, Inhabited

/-- `ClockState` (10_state.md R37). -/
inductive ClockState where
  | unknown
  | running
  | timeInvalid
  deriving DecidableEq, Repr, Inhabited

/-- Which Byte Buffer an operation acts on (10_state.md R12, R15, R16). -/
inductive BufferId where
  | cmd
  | rsp
  deriving DecidableEq, Repr, Inhabited

/-- The host's operations, one constructor for each operation rule of 40_byte_buffer.md to 45_rtc_codec.md. -/
inductive HostOp where
  /-- `ByteBuffer(cap)` (R69). -/
  | bufConstruct (b : BufferId) (cap : Nat)
  /-- `write(v)` (R70). -/
  | bufWrite8 (b : BufferId) (v : Byte)
  /-- `write(bytes, n)` (R71). -/
  | bufWrite (b : BufferId) (bytes : List Byte) (n : Int)
  /-- `read8()` (R72). -/
  | bufRead8 (b : BufferId)
  /-- `read(dest, n)` (R73). -/
  | bufRead (b : BufferId) (n : Int)
  /-- `reset()` (R74). -/
  | bufReset (b : BufferId)
  /-- `clear()` (R75). -/
  | bufClear (b : BufferId)
  /-- `setWriteLength(n)` (R76). -/
  | bufSetWriteLength (b : BufferId) (n : Int)
  /-- The accessors (R77). -/
  | bufWriteLength (b : BufferId)
  | bufReadRemaining (b : BufferId)
  | bufWriteRemaining (b : BufferId)
  | bufEndOfRead (b : BufferId)
  | bufEndOfWrite (b : BufferId)
  /-- The encoder's operations (R79 to R86). -/
  | encStart
  | encRestart
  | encStop
  | encEnd
  | encStopAndEnd
  | encAddress (a : Byte)
  | encSend (n : Int)
  | encReceive (n : Int)
  /-- `Execute()` (R92, R109). -/
  | execute
  /-- Construction of the transport and its buffers (R172; 92_eei_decisions.md D53; log 23). -/
  | construct (kind : TransportKind) (addr7 : Addr7) (adapter cmdCap rspCap : Nat)
  /-- `Initialize()` (R112) and `Close()`/`Shutdown()` (R113). -/
  | initialise
  | close
  /-- The sends (R111). -/
  | sendByte (v : Byte)
  | sendReg (r v : Byte)
  | sendWord (r : Byte) (w : Word)
  | sendBlock (r : Byte) (buf : List Byte)
  /-- The receives (R111). -/
  | receiveByte
  | receiveReg (r : Byte)
  | receiveWord (r : Byte)
  | receiveBlock (r : Byte) (n : Nat)
  /-- Creation of a register set (R21, R40). -/
  | regCreate
  /-- Register-set reads (R126, R127, R128). -/
  | regRead (id : Int)
  | regReadBlock (start count : Int)
  | regReadRange (startId endId : Int)
  /-- Register-set writes (R129, R130, R131). -/
  | regWrite (id : Int)
  | regWriteBlock (start count : Int)
  | regWriteRange (startId endId : Int)
  /-- Local helpers (R132 to R137). -/
  | regGet (id : Int)
  | regSet (id : Int) (v : Byte)
  | regSetBit (id : Int) (m : Byte)
  | regRemoveBit (id : Int) (m : Byte)
  | regIsSet (id : Int) (m : Byte)
  | regIsClear (id : Int) (m : Byte)
  | regClear
  | regFromBcd (id : Int) (msb lsb : Byte)
  | regToBcd (id : Int) (v : Int) (msb lsb : Byte)
  /-- The RTC field codec (R142 to R152). -/
  | getClockState
  | getDateTime
  | setDateTime (dt : RtcDateTime)
  | getTemperature
  | setAlarm (id : AlarmId) (a : RtcAlarm)
  | getAlarm (id : AlarmId)
  | setAlarmInterruptState (id : AlarmId) (enabled : Bool)
  | getAlarmInterruptStatus
  | getAlarmTriggerState
  deriving DecidableEq, Repr, Inhabited

/-- What an operation hands back to the host: a status, or the data of a success (00_scope.md R11; log 9). -/
inductive HostResult where
  /-- A returned `Status`: the whole answer of an operation without data, or a failure. -/
  | status (st : Status)
  /-- An operation with neither a status nor data has completed (for example `setBit`). -/
  | done
  /-- A predicate's value, or `Initialize`'s Boolean. -/
  | bool (b : Bool)
  /-- A byte, with `Ok` where the operation has a status. -/
  | byte (v : Byte)
  /-- Bytes, with `Ok`. -/
  | bytes (l : List Byte)
  /-- A word, with `Ok`. -/
  | word (w : Word)
  /-- An integer: an accessor, `fromBcd`, or a temperature in quarter degrees with `Ok`. -/
  | int (n : Int)
  | clockState (c : ClockState)
  | dateTime (dt : RtcDateTime)
  | alarm (a : RtcAlarm)
  /-- `AlarmInterruptStatus`: the values of A1IE and A2IE (10_state.md R37). -/
  | interruptStatus (first second : Bool)
  /-- `AlarmTriggerState`: the values of A1F and A2F (10_state.md R37). -/
  | triggerState (first second : Bool)
  deriving DecidableEq, Repr, Inhabited

end Sys2Proof.Machine
end

