-- ==== Sys2Proof/Machine/State.lean ====
section
/-! DEFINITION. The machine's state as plain data (10_state.md R12 to R21), the ways a step can stop, and the state
after reset (10_state.md R40; 70_reset_and_hazards.md R171). -/

namespace Sys2Proof.Machine

/-- Why the machine stops with a fault. -/
inductive Fault where
  /-- Raised by `emit` and by the other questions to the environment when the environment's answer never arrives: the
  spec's "stuck" (00_scope.md R11; 42_sequencer.md R108; 93_implementation_defined.md U15). Safe: it stops. -/
  | environmentSilent
  deriving DecidableEq, Repr

/-- Why an input has no meaning. -/
inductive Refusal where
  /-- Raised by an arm of `exec` whose command has no meaning yet; none is left. Safe: it stops. -/
  | notModelled (mnemonic : String)
  /-- Raised by `launch` on a block that is not idle (00_scope.md R7). Safe: it stops. -/
  | overlappingLaunch
  /-- Raised by the encoder's `send` and `receive` above 65535 (41_command_encoder.md R85, R86; 60_exceptions.md
  R156). Safe: it stops. -/
  | lengthTooLarge
  /-- Raised by `setWriteLength(n)` with `n < rd` (40_byte_buffer.md R76; 60_exceptions.md R156). Safe: it stops. -/
  | setWriteLengthBelowRead
  /-- Raised by a local register-set helper whose id is outside 0..18 (44_register_set.md R125; 60_exceptions.md
  R156). Safe: it stops. -/
  | registerIdOutOfRange
  /-- Raised by a Byte Buffer call or an encoder call with a negative count (60_exceptions.md R156; log 18). Safe: it
  stops. -/
  | negativeCount
  /-- Raised by `write(bytes, n)` with fewer than `n` bytes in the list, outside the operand's domain
  (40_byte_buffer.md R71; log 18). Safe: it stops. -/
  | sourceTooShort
  deriving DecidableEq, Repr

/-- A Byte Buffer (10_state.md R14). -/
structure ByteBuffer where
  cap   : Nat
  store : Memory
  rd    : Nat
  wr    : Nat
  deriving DecidableEq, Repr

/-- The transport's configuration and handle (10_state.md R13); `isOpen` is the spec's `open`. -/
structure Transport where
  kind    : TransportKind
  addr7   : Addr7
  adapter : Nat
  isOpen  : Bool
  deriving DecidableEq, Repr

/-- The bus position (10_state.md R17). -/
inductive Phase where
  | idle
  | started
  | writing
  | reading
  | readDone
  deriving DecidableEq, Repr

/-- The state of `Execute()` and its result (42_sequencer.md R92; 60_exceptions.md R161). -/
inductive RunState where
  /-- No execution yet. -/
  | idle
  | running
  /-- `Completed(k)`. -/
  | completed (k : Nat)
  /-- `Failed(reason, k)`. -/
  | failed (reason : Reason) (k : Nat)
  deriving DecidableEq, Repr

/-- The parameters a rule branches on (00_scope.md R8; log 3). No step changes them. -/
structure Params where
  executor    : Executor
  bcdMerge    : BcdMerge
  alarmScheme : AlarmScheme
  deriving DecidableEq, Repr

/-- The answers the environment will give, oldest first, one list for each kind of question; `none` is an answer that
never arrives. When a list is empty the answer is the free value number `draws` (00_scope.md R7, R10; log 4). -/
structure Env where
  bus         : List (Option BusReply)
  openDevice  : List (Option Bool)
  blockCounts : List (Option Nat)
  executions  : List (Option ExecDraw)
  draws       : Nat
  deriving DecidableEq, Repr

/-- The register set image: 19 bytes (10_state.md R21). -/
abbrev RegSet := Vector Byte 19

/-- A fresh register set: "uninitialized registers start zeroed" (10_state.md R21, R40). -/
abbrev RegSet.zero : RegSet := Vector.replicate 19 0#8

/-- The state of the block and of its two ports. -/
structure State where
  transport : Transport
  cmd       : ByteBuffer
  rsp       : ByteBuffer
  phase     : Phase
  addr      : Option Addr7
  run       : RunState
  trace     : List BusEvent
  regs      : RegSet
  params    : Params
  result    : Option HostResult
  hostOps   : List HostOp
  env       : Env
  deriving DecidableEq, Repr

/-- A newly constructed Byte Buffer (40_byte_buffer.md R69; log 1). -/
abbrev ByteBuffer.fresh (cap : Nat) : ByteBuffer := { cap := cap, store := [], rd := 0, wr := 0 }

/-- The block after construction (10_state.md R40; 70_reset_and_hazards.md R171; logs 1, 2, 3, 4, 8, 9, 20). -/
def State.reset : State where
  transport := { kind := Config.transportKind, addr7 := Config.devAddr, adapter := Config.adapter, isOpen := false }
  cmd := ByteBuffer.fresh Config.cmdCap
  rsp := ByteBuffer.fresh Config.rspCap
  phase := .idle
  addr := none
  run := .idle
  trace := []
  regs := RegSet.zero
  params := { executor := .reference, bcdMerge := .replace, alarmScheme := .cumulative }
  result := none
  hostOps := []
  env := { bus := [], openDevice := [], blockCounts := [], executions := [], draws := 0 }

end Sys2Proof.Machine
end

