-- ==== Sys2Proof/Machine/Buffer.lean ====
section
/-! DEFINITION. The Byte Buffer operations on one buffer (40_byte_buffer.md R69 to R77). -/

namespace Sys2Proof.Machine

/-- `writeRemaining` (10_state.md R14; 40_byte_buffer.md R77). -/
def ByteBuffer.writeRemaining (b : ByteBuffer) : Nat := b.cap - b.wr

/-- `readRemaining`: the unread span (10_state.md R14; 40_byte_buffer.md R73, R77). -/
def ByteBuffer.readRemaining (b : ByteBuffer) : Nat := b.wr - b.rd

/-- The unread bytes, in order. -/
def ByteBuffer.unread (b : ByteBuffer) : List Byte := Memory.readList b.store b.rd b.readRemaining

/-- `write(bytes, n)` with the `n` bytes given, all or nothing: none is `WriteOverflow` (40_byte_buffer.md R70, R71). -/
def ByteBuffer.write (b : ByteBuffer) (bytes : List Byte) : Option ByteBuffer :=
  if b.writeRemaining < bytes.length then none
  else some { b with store := Memory.writeList b.store b.wr bytes, wr := b.wr + bytes.length }

/-- `read8()`: none is `ReadUnderflow` (40_byte_buffer.md R72). -/
def ByteBuffer.read8 (b : ByteBuffer) : Option (Byte × ByteBuffer) :=
  if b.readRemaining < 1 then none else some (Memory.read b.store b.rd, { b with rd := b.rd + 1 })

/-- `read(dest, n)`: none is `ReadUnderflow` (40_byte_buffer.md R73). -/
def ByteBuffer.read (b : ByteBuffer) (n : Nat) : Option (List Byte × ByteBuffer) :=
  if b.readRemaining < n then none else some (Memory.readList b.store b.rd n, { b with rd := b.rd + n })

/-- `reset()`: both cursors to the start, the contents kept (40_byte_buffer.md R74). -/
def ByteBuffer.rewind (b : ByteBuffer) : ByteBuffer := { b with rd := 0, wr := 0 }

/-- `clear()`: reset and a zero fill of the whole capacity (40_byte_buffer.md R75). -/
def ByteBuffer.clear (b : ByteBuffer) : ByteBuffer := { b with rd := 0, wr := 0, store := [] }

/-- `setWriteLength(n)` for `n` not below the read cursor: none is `WriteOverflow` (40_byte_buffer.md R76). -/
def ByteBuffer.setWriteLength (b : ByteBuffer) (n : Nat) : Option ByteBuffer :=
  if b.cap < n then none else some { b with wr := n }

/-- One received byte stored at the write cursor; the caller has checked the capacity (42_sequencer.md R103). -/
def ByteBuffer.push (b : ByteBuffer) (v : Byte) : ByteBuffer :=
  { b with store := Memory.write b.store b.wr v, wr := b.wr + 1 }

end Sys2Proof.Machine
end

