-- ==== Sys2Proof/Machine/Operands.lean ====
section
/-! DEFINITION. Operand assembly and the spec's integer primitives: byte order (20_memory.md R43, R44;
30_encoding.md R61), the address byte (42_sequencer.md R100), and `/`, `%`, `&` on the host's unbounded integers
(00_scope.md R9; log 11). -/

namespace Sys2Proof.Machine

/-- `lo8(w)` (00_scope.md R9). -/
def lo8 (w : Word) : Byte := w.setWidth 8

/-- `hi8(w)` (00_scope.md R9). -/
def hi8 (w : Word) : Byte := (w >>> 8).setWidth 8

/-- `lo | (hi << 8)`, little-endian (20_memory.md R43, R44; 30_encoding.md R61). -/
def leWord (lo hi : Byte) : Word := hi ++ lo

/-- The address byte: the 7-bit address in bits 7:1 and the direction in bit 0, with 1 for read
(42_sequencer.md R100; 43_transport.md R120). -/
def addrByte (a : Addr7) (isRead : Bool) : Byte := a ++ BitVec.ofBool isRead

/-- `v / d` of 00_scope.md R9; free for a negative `v` (log 11). -/
def specDiv (v d : Int) : Int := if v < 0 then Config.negativeQuotient v d else v / d

/-- `v % d` of 00_scope.md R9; free for a negative `v` (log 11). -/
def specMod (v d : Int) : Int := if v < 0 then Config.negativeRemainder v d else v % d

/-- The low 8 bits of an integer, which is what a byte mask or a shift under a byte mask sees of it
(00_scope.md R9); free for a negative `v` (log 11). -/
def specByte (v : Int) : Byte := if v < 0 then Config.negativeByte v else BitVec.ofInt 8 v

/-- The bytes of a number, least significant first. -/
def leBytes : Nat → Nat → List Byte
  | 0, _ => []
  | k + 1, w => BitVec.ofNat 8 w :: leBytes k (w / 256)

end Sys2Proof.Machine
end

