-- ==== Sys2Proof/Machine/Flags.lean ====
section
/-! DEFINITION. The block has no condition codes (10_state.md R39): its flags are device bits in the register set
image. This file names the registers (10_state.md R22) and the masks (10_state.md R32; log 16), and gives the mask
tests and updates of 44_register_set.md R133, R134 on one byte. -/

namespace Sys2Proof.Machine

/-- Register ids (10_state.md R22). -/
abbrev regSeconds : Nat := 0x00
abbrev regMinutes : Nat := 0x01
abbrev regHours : Nat := 0x02
abbrev regWeekDay : Nat := 0x03
abbrev regDate : Nat := 0x04
abbrev regMonth : Nat := 0x05
abbrev regYear : Nat := 0x06
abbrev regAlarm1Seconds : Nat := 0x07
abbrev regAlarm1Minutes : Nat := 0x08
abbrev regAlarm1Hours : Nat := 0x09
abbrev regAlarm1Day : Nat := 0x0A
abbrev regAlarm2Minutes : Nat := 0x0B
abbrev regAlarm2Hours : Nat := 0x0C
abbrev regAlarm2Day : Nat := 0x0D
abbrev regControl : Nat := 0x0E
abbrev regStatus : Nat := 0x0F
abbrev regAgingOffset : Nat := 0x10
abbrev regTempMsb : Nat := 0x11
abbrev regTempLsb : Nat := 0x12

/-- Masks (10_state.md R32): BCD tens digits, by field. -/
def secMsb : Byte := 0x70#8
def minMsb : Byte := 0x70#8
def hr24Msb : Byte := 0x30#8
def hr12Msb : Byte := 0x10#8
def dateMsb : Byte := 0x30#8
def monthMsb : Byte := 0x10#8
def yearMsb : Byte := 0xF0#8
/-- Mask of every BCD units digit (10_state.md R32). -/
def lsb4 : Byte := 0x0F#8
/-- Hours registers: 12-hour mode and PM (10_state.md R24, R32). -/
def mode12 : Byte := 0x40#8
def pmBit : Byte := 0x20#8
/-- Day-of-week masks of WeekDay and of the alarm day registers (10_state.md R25, R27, R32). -/
def wdayMask : Byte := 0x07#8
def adayWdayMask : Byte := 0x0F#8
/-- Month's century bit (10_state.md R26, R32). -/
def century : Byte := 0x80#8
/-- Alarm registers: the exclude bit and the day-mode bit (10_state.md R27, R32). -/
def exclBit : Byte := 0x80#8
def dydt : Byte := 0x40#8
/-- Control bits (10_state.md R28, R32). -/
def eosc : Byte := 0x80#8
def bbsqw : Byte := 0x40#8
def conv : Byte := 0x20#8
def rs2 : Byte := 0x10#8
def rs1 : Byte := 0x08#8
def intcn : Byte := 0x04#8
def a2ie : Byte := 0x02#8
def a1ie : Byte := 0x01#8
/-- Status bits (10_state.md R29, R32). -/
def osf : Byte := 0x80#8
def en32kHz : Byte := 0x08#8
def bsy : Byte := 0x04#8
def a2f : Byte := 0x02#8
def a1f : Byte := 0x01#8
/-- TempLsb: the quarter-degree count (10_state.md R31, R32). -/
def tempFrac : Byte := 0xC0#8

/-- Every bit of the mask is set (44_register_set.md R134). -/
def maskSet (r m : Byte) : Bool := (r &&& m) == m

/-- Every bit of the mask is clear (44_register_set.md R134). -/
def maskClear (r m : Byte) : Bool := (r &&& m) == 0#8

/-- The byte with every bit of the mask set (44_register_set.md R133). -/
def withBits (r m : Byte) : Byte := r ||| m

/-- The byte with every bit of the mask removed (44_register_set.md R133). -/
def withoutBits (r m : Byte) : Byte := r &&& ~~~m

/-- `fromBcd` on one byte (44_register_set.md R136). -/
def bcdValue (r msb lsb : Byte) : Int := ((r &&& lsb).toNat + ((r &&& msb) >>> 4).toNat * 10 : Nat)

/-- The encoded digits of `toBcd` (44_register_set.md R137). -/
def bcdDigits (v : Int) (msb lsb : Byte) : Byte :=
  ((specByte (specDiv v 10) <<< 4) &&& msb) ||| (specByte (specMod v 10) &&& lsb)

/-- `toBcd` on one byte, under either merge (44_register_set.md R137). -/
def bcdMerge (merge : BcdMerge) (r : Byte) (v : Int) (msb lsb : Byte) : Byte :=
  match merge with
  | .replace => (r &&& ~~~(msb ||| lsb)) ||| bcdDigits v msb lsb
  | .or => r ||| bcdDigits v msb lsb

end Sys2Proof.Machine
end

