-- ==== Sys2Proof/Machine/Ops.lean ====
section
/-! DEFINITION. The shared operations: the result of a procedure, questions to the environment, one bus event, the
sequencer's `Fail` (the block's only counterpart of taking an exception: it has no trap, no saved registers and no
return, 60_exceptions.md R160 to R162), the address phase, byte transfers, and access to the register set image. -/

namespace Sys2Proof.Machine

/-- How a procedure ends: with a value, with a failure of kind `ε` and the state it leaves (60_exceptions.md R159),
stuck, or refused (00_scope.md R11). -/
inductive Res (ε α : Type) where
  | done (a : α) (s : State)
  | failed (e : ε) (s : State)
  | fault (f : Fault)
  | refused (r : Refusal)
  deriving DecidableEq, Repr

/-- Goes on after a success and abandons the remaining steps after anything else (60_exceptions.md R157). -/
def Res.bind {ε α β : Type} (x : Res ε α) (f : α → State → Res ε β) : Res ε β :=
  match x with
  | .done a s => f a s
  | .failed e s => .failed e s
  | .fault r => .fault r
  | .refused r => .refused r

/-- The same procedure with its failures renamed (60_exceptions.md R154). -/
def Res.mapError {ε ε' α : Type} (x : Res ε α) (f : ε → ε') : Res ε' α :=
  match x with
  | .done a s => .done a s
  | .failed e s => .failed (f e) s
  | .fault r => .fault r
  | .refused r => .refused r

/-- The same procedure followed by a change of state, whether it succeeded or failed. -/
def Res.mapState {ε α : Type} (x : Res ε α) (f : State → State) : Res ε α :=
  match x with
  | .done a s => .done a (f s)
  | .failed e s => .failed e (f s)
  | .fault r => .fault r
  | .refused r => .refused r

/-! ### Questions to the environment (00_scope.md R7, R10; log 4) -/

/-- The next answer of a list, or the free value number `draws` when the list is empty; none is an answer that never
arrives. With it come the rest of the list and the next draw number. -/
def nextAnswer {α : Type} (answers : List (Option α)) (free : Nat → α) (draws : Nat) :
    Option (α × List (Option α) × Nat) :=
  match answers with
  | [] => some (free draws, [], draws + 1)
  | some a :: rest => some (a, rest, draws)
  | none :: _ => none

/-- `Emit(e)`: appends the event to the bus trace and returns the environment's answer (00_scope.md R10;
10_state.md R20; 42_sequencer.md R90). None: the answer never arrives. -/
def emit (e : BusEvent) (s : State) : Option (BusReply × State) :=
  match nextAnswer s.env.bus Config.busReply s.env.draws with
  | some (r, rest, n) => some (r, { s with trace := s.trace ++ [e], env := { s.env with bus := rest, draws := n } })
  | none => none

/-- `Ask(OpenDevice(kind, adapter, addr7))` (43_transport.md R112). -/
def askOpenDevice (s : State) : Option (Bool × State) :=
  match nextAnswer s.env.openDevice Config.openDevice s.env.draws with
  | some (b, rest, n) => some (b, { s with env := { s.env with openDevice := rest, draws := n } })
  | none => none

/-- The count a hardware block read returns (43_transport.md R122; log 15). -/
def askBlockCount (s : State) : Option (Nat × State) :=
  match nextAnswer s.env.blockCounts Config.blockCount s.env.draws with
  | some (c, rest, n) => some (c, { s with env := { s.env with blockCounts := rest, draws := n } })
  | none => none

/-- The draw of a whole execution (42_sequencer.md R109; log 14). -/
def askExecution (s : State) : Option (ExecDraw × State) :=
  match nextAnswer s.env.executions Config.execDraw s.env.draws with
  | some (d, rest, n) => some (d, { s with env := { s.env with executions := rest, draws := n } })
  | none => none

/-! ### Bus events (42_sequencer.md R90) -/

/-- `S`, `Sr` or `P`, answered `Ok` or `Timeout`. -/
def signal (e : BusEvent) (s : State) : Res Reason Unit :=
  match emit e s with
  | none => .fault .environmentSilent
  | some (.timeout, t) => .failed .timeout t
  | some (.answer _ _, t) => .done () t

/-- `TX(b)`, answered `Ack`, `Nack` or `Timeout`; a `Nack` fails (42_sequencer.md R104). -/
def txByte (b : Byte) (s : State) : Res Reason Unit :=
  match emit (.tx b) s with
  | none => .fault .environmentSilent
  | some (.timeout, t) => .failed .timeout t
  | some (.answer ack _, t) => if ack then .done () t else .failed .nack t

/-- `RX(ack)`, answered `Byte(v)` or `Timeout`. -/
def rxByte (ack : Bool) (s : State) : Res Reason Byte :=
  match emit (.rx ack) s with
  | none => .fault .environmentSilent
  | some (.timeout, t) => .failed .timeout t
  | some (.answer _ v, t) => .done v t

/-- Sends the bytes in order (42_sequencer.md R102). -/
def txAll : List Byte → State → Res Reason Unit
  | [], s => .done () s
  | b :: rest, s => (txByte b s).bind fun _ t => txAll rest t

/-- Clocks in `n` bytes, acknowledging all but the last (42_sequencer.md R104), and collects them. -/
def rxAll : Nat → State → Res Reason (List Byte)
  | 0, s => .done [] s
  | k + 1, s =>
    (rxByte (k != 0) s).bind fun v t => (rxAll k t).bind fun rest u => .done (v :: rest) u

/-- Clocks in `n` bytes, acknowledging all but the last, and stores each in `RSP` as it arrives
(42_sequencer.md R103, R104). -/
def rxStore : Nat → State → Res Reason Unit
  | 0, s => .done () s
  | k + 1, s => (rxByte (k != 0) s).bind fun v t => rxStore k { t with rsp := t.rsp.push v }

/-! ### The sequencer's `Fail` (42_sequencer.md R95) -/

/-- The end of a failed execution: `phase <- Idle` and the result `Failed(reason, RSP.wr)`. -/
def endFailed (reason : Reason) (s : State) : State :=
  { s with phase := .idle, run := .failed reason s.rsp.wr }

/-- `Fail(reason)`: closes an open transaction with a `P` whose answer is ignored, except after a `Timeout`, and ends
the execution (42_sequencer.md R95). -/
def abort (reason : Reason) (s : State) : Host.Outcome State Fault Refusal :=
  if reason = .timeout ∨ s.phase = .idle then .next (endFailed reason s)
  else
    match emit .stop s with
    | none => .fault .environmentSilent
    | some (_, t) => .next (endFailed reason t)

/-- The end of a command: its last phase after a success, `Fail` after a failure. -/
def finish (x : Res Reason Unit) (phase : Phase) : Host.Outcome State Fault Refusal :=
  match x with
  | .done _ s => .next { s with phase := phase }
  | .failed e s => abort e s
  | .fault f => .fault f
  | .refused r => .refused r

/-! ### The address phase (42_sequencer.md R100, R101) -/

/-- The START or repeated START an address phase issues itself: `S` from `Idle`, `Sr` from `Writing` and `ReadDone`. -/
def openPhase (s : State) : Res Reason Unit :=
  match s.phase with
  | .idle => (signal .start s).bind fun _ t => .done () { t with phase := .started }
  | .writing => (signal .restart s).bind fun _ t => .done () { t with phase := .started }
  | .readDone => (signal .restart s).bind fun _ t => .done () { t with phase := .started }
  | .started => .done () s
  | .reading => .done () s

/-- `AddrPhase(dir)`, with `isRead` for direction 1 (42_sequencer.md R100). -/
def addrPhase (isRead : Bool) (s : State) : Res Reason Unit :=
  match s.addr with
  | none => .failed .noAddress s
  | some a =>
    (openPhase s).bind fun _ t =>
      (txByte (addrByte a isRead) t).bind fun _ u =>
        .done () { u with phase := if isRead then .reading else .writing }

/-! ### Read and Write of any length (42_sequencer.md R102, R103, R106) -/

/-- `Write` with its payload, in either form (42_sequencer.md R102; zero length R106). -/
def writePayload (d : List Byte) (s : State) : Host.Outcome State Fault Refusal :=
  if d.length = 0 then .next s
  else
    finish ((if s.phase = .writing then .done () s else addrPhase false s).bind fun _ t => txAll d t) .writing

/-- `Read n` in either form (42_sequencer.md R103; zero length R106). -/
def readInto (n : Nat) (s : State) : Host.Outcome State Fault Refusal :=
  if n = 0 then .next s
  else if s.rsp.writeRemaining < n then abort .writeOverflow s
  else finish ((addrPhase true s).bind fun _ t => rxStore n t) .readDone

/-! ### The register set image (44_register_set.md R125, R132) -/

/-- The slot of a register id; 0 outside the set, which no rule reaches. -/
def getReg (i : Nat) (s : State) : Byte := (s.regs[i]?).getD 0#8

/-- The image with one slot replaced. -/
def putReg (i : Nat) (v : Byte) (s : State) : State := { s with regs := s.regs.setIfInBounds i v }

/-- The image with a list of bytes in consecutive slots, in rising order (20_memory.md R45). -/
def putRegs : Nat → List Byte → State → State
  | _, [], s => s
  | i, v :: rest, s => putRegs (i + 1) rest (putReg i v s)

/-- The bytes of `n` consecutive slots. -/
def getRegs (s : State) : Nat → Nat → List Byte
  | _, 0 => []
  | i, n + 1 => getReg i s :: getRegs s (i + 1) n

/-- `n` consecutive slots with unspecified values: one free byte for each (44_register_set.md R127; log 10). -/
def forgetRegs (i n : Nat) (s : State) : State :=
  let t := putRegs i ((List.range n).map fun k => Config.freeByte (s.env.draws + k)) s
  { t with env := { t.env with draws := t.env.draws + n } }

/-- The register an id names, if there is one (44_register_set.md R125). -/
def validId (id : Int) : Option Nat := if 0 ≤ id ∧ id < Config.regCount then some id.toNat else none

end Sys2Proof.Machine
end

