-- ==== Sys2Proof/Machine/Encoder.lean ====
section
/-! DEFINITION. The command encoder: operations that append to `CMD` (41_command_encoder.md R79 to R87). -/

namespace Sys2Proof.Machine

/-- `emit(list)` of 41_command_encoder.md: one all-or-nothing write to `CMD` (40_byte_buffer.md R71). -/
def encodeBytes (bytes : List Byte) (s : State) : Res Status Unit :=
  match s.cmd.write bytes with
  | none => .failed .writeOverflow s
  | some b => .done () { s with cmd := b }

/-- `start()` (R79). -/
def encStart (s : State) : Res Status Unit := encodeBytes [0x02#8] s

/-- `restart()`: the same byte as `start()` (R80). -/
def encRestart (s : State) : Res Status Unit := encodeBytes [0x02#8] s

/-- `stop()` (R81). -/
def encStop (s : State) : Res Status Unit := encodeBytes [0x03#8] s

/-- `end()` (R82). -/
def encEnd (s : State) : Res Status Unit := encodeBytes [0x00#8] s

/-- `stopAndEnd()`: both bytes or neither (R83). -/
def encStopAndEnd (s : State) : Res Status Unit := encodeBytes [0x03#8, 0x00#8] s

/-- `address(a)`: any byte, unchecked (R84). -/
def encAddress (a : Byte) (s : State) : Res Status Unit := encodeBytes [0x04#8, a] s

/-- A length-carrying command in short form up to 255 and escaped above (30_encoding.md R62; R85, R86). -/
def encLength (op : Byte) (n : Int) (s : State) : Res Status Unit :=
  if n < 0 then .refused .negativeCount
  else if Config.lengthMax < n then .refused .lengthTooLarge
  else if Config.escThreshold < n then
    encodeBytes [0x01#8, op, lo8 (BitVec.ofInt 16 n), hi8 (BitVec.ofInt 16 n)] s
  else encodeBytes [op, BitVec.ofInt 8 n] s

/-- `send(n)`: opcode and length only; the payload is the caller's to write (R85, R87). -/
def encSend (n : Int) (s : State) : Res Status Unit := encLength 0x07#8 n s

/-- `receive(n)` (R86). -/
def encReceive (n : Int) (s : State) : Res Status Unit := encLength 0x06#8 n s

end Sys2Proof.Machine
end

