-- ==== Sys2Proof/Syntax.lean ====
section
/-! DEFINITION. The commands of the command stream: one constructor for each row of spec/opcode_table.json
(30_encoding.md R58, R59, R64). -/

namespace Sys2Proof

/-- A command of the command stream. The payload of a `Write` is its list of bytes, and the list's length is the
command's length operand (30_encoding.md R59, formats `W8` and `X`). -/
inductive Instr where
  /-- END, 0x00 (42_sequencer.md R96). -/
  | endCmd
  /-- ESCAPE, 0x01, before a byte `op` that is neither 0x06 nor 0x07 (42_sequencer.md R105). -/
  | escape (op : Byte)
  /-- START, 0x02 (42_sequencer.md R97). -/
  | start
  /-- STOP, 0x03 (42_sequencer.md R98). -/
  | stop
  /-- ADDR a, 0x04 (42_sequencer.md R99). -/
  | addr (a : Byte)
  /-- FLAGS, 0x05 (42_sequencer.md R107). -/
  | flags
  /-- READ n, 0x06 (42_sequencer.md R103). -/
  | read (n : Byte)
  /-- WRITE n: d, 0x07, with n the length of d (42_sequencer.md R102). -/
  | write (d : List Byte)
  /-- ESC READ n, 0x01 0x06 (42_sequencer.md R105). -/
  | escRead (n : Word)
  /-- ESC WRITE n: d, 0x01 0x07, with n the length of d (42_sequencer.md R105). -/
  | escWrite (d : List Byte)
  /-- An opcode byte 0x08..0xFF (42_sequencer.md R107). -/
  | illegal (op : Byte)
  deriving DecidableEq, Repr

/-- How many bytes a command occupies (30_encoding.md R60, R65); an illegal command, the bytes it consumes. -/
def Instr.length : Instr → Nat
  | .endCmd => 1
  | .escape _ => 2
  | .start => 1
  | .stop => 1
  | .addr _ => 2
  | .flags => 1
  | .read _ => 2
  | .write d => 2 + d.length
  | .escRead _ => 4
  | .escWrite d => 4 + d.length
  | .illegal _ => 1

end Sys2Proof
end

