-- ==== Sys2Proof/WellFormed.lean ====
section
/-! DEFINITION. Which terms of `Instr` stand for bytes of a stream (`wf`), and which of those the grammar of
30_encoding.md R66 admits (`legal`). -/

namespace Sys2Proof

/-- The term has an encoding: each operand fits the bits its format gives it (30_encoding.md R59, R64). -/
def Instr.wf : Instr → Bool
  | .endCmd => true
  | .escape op => op != 0x06#8 && op != 0x07#8
  | .start => true
  | .stop => true
  | .addr _ => true
  | .flags => true
  | .read _ => true
  | .write d => decide (d.length ≤ Config.escThreshold)
  | .escRead _ => true
  | .escWrite d => decide (d.length ≤ Config.lengthMax)
  | .illegal op => decide (8 ≤ op.toNat)

/-- The command is one the grammar of 30_encoding.md R66 admits: none of the illegal encodings of R64. -/
def Instr.legal : Instr → Bool
  | .endCmd => true
  | .escape _ => false
  | .start => true
  | .stop => true
  | .addr a => decide (a.toNat ≤ 0x7F)
  | .flags => false
  | .read _ => true
  | .write d => decide (d.length ≤ Config.escThreshold)
  | .escRead _ => true
  | .escWrite d => decide (d.length ≤ Config.lengthMax)
  | .illegal _ => false

end Sys2Proof
end

