-- ==== Sys2Proof/Decode.lean ====
section
/-! DEFINITION. Decoding the command at the stream position (30_encoding.md R57 to R66), total on any bytes, and the
encoder written from the same formats (R59). A byte sequence that breaks off inside a command is rejected by the name
of what is missing, with the number of bytes the sequencer has consumed by then (42_sequencer.md R94; log 17). -/

namespace Sys2Proof

open Sys2Proof.Machine

/-- Which fetch ran out of bytes (42_sequencer.md R94; 60_exceptions.md R158). -/
inductive Missing where
  | opcode
  | operand
  | payload
  deriving DecidableEq, Repr

/-- What the decoder answers: a command and the number of bytes it occupies, or what is missing and the number of
bytes consumed before that fetch. -/
inductive Decoded where
  | ok (i : Instr) (len : Nat)
  | missing (what : Missing) (consumed : Nat)
  deriving DecidableEq, Repr

/-- The payload of a `Write`: exactly `n` bytes, or none of them consumed (42_sequencer.md R102). -/
def decodePayload (mk : List Byte → Instr) (header n : Nat) (bytes : List Byte) : Decoded :=
  if bytes.length < n then .missing .payload header else .ok (mk (bytes.take n)) (header + n)

/-- The bytes after `Escape` (30_encoding.md R63, R65; 42_sequencer.md R105; the order of checks is
60_exceptions.md R158). -/
def decodeEscaped : List Byte → Decoded
  | [] => .missing .operand 1
  | op :: rest =>
    if op = 0x06#8 then
      match rest with
      | lo :: hi :: _ => .ok (.escRead (leWord lo hi)) 4
      | [_] => .missing .operand 3
      | [] => .missing .operand 2
    else if op = 0x07#8 then
      match rest with
      | lo :: hi :: tail => decodePayload .escWrite 4 (leWord lo hi).toNat tail
      | [_] => .missing .operand 3
      | [] => .missing .operand 2
    else .ok (.escape op) 2

/-- The command at the head of the unread bytes (30_encoding.md R58, R65; 42_sequencer.md R94). -/
def decode : List Byte → Decoded
  | [] => .missing .opcode 0
  | op :: rest =>
    if op = 0x00#8 then .ok .endCmd 1
    else if op = 0x01#8 then decodeEscaped rest
    else if op = 0x02#8 then .ok .start 1
    else if op = 0x03#8 then .ok .stop 1
    else if op = 0x04#8 then
      match rest with
      | a :: _ => .ok (.addr a) 2
      | [] => .missing .operand 1
    else if op = 0x05#8 then .ok .flags 1
    else if op = 0x06#8 then
      match rest with
      | n :: _ => .ok (.read n) 2
      | [] => .missing .operand 1
    else if op = 0x07#8 then
      match rest with
      | n :: tail => decodePayload .write 2 n.toNat tail
      | [] => .missing .operand 1
    else .ok (.illegal op) 1

/-- The bytes of a well-formed command (30_encoding.md R58, R59, R61). -/
def encode : Instr → List Byte
  | .endCmd => [0x00#8]
  | .escape op => [0x01#8, op]
  | .start => [0x02#8]
  | .stop => [0x03#8]
  | .addr a => [0x04#8, a]
  | .flags => [0x05#8]
  | .read n => [0x06#8, n]
  | .write d => 0x07#8 :: BitVec.ofNat 8 d.length :: d
  | .escRead n => [0x01#8, 0x06#8, lo8 n, hi8 n]
  | .escWrite d => 0x01#8 :: 0x07#8 :: lo8 (BitVec.ofNat 16 d.length) :: hi8 (BitVec.ofNat 16 d.length) :: d
  | .illegal op => [op]

/-- How many payload bytes a stream's first bytes declare (30_encoding.md R65). -/
def declaredPayload : List Byte → Nat
  | b0 :: b1 :: b2 :: b3 :: _ =>
    if b0 = 0x07#8 then b1.toNat
    else if b0 = 0x01#8 ∧ b1 = 0x07#8 then (leWord b2 b3).toNat
    else 0
  | _ => 0

/-- The bytes of an instruction whose bits are `w`, numbered from the first byte's bit 0: its `nbits` bits, then
zeros, as far as the longest header and the payload it declares. -/
def tableBytes (nbits w : Nat) : List Byte :=
  let header := leBytes (max ((nbits + 7) / 8) 4) (w % 2 ^ nbits)
  header ++ List.replicate (declaredPayload header) 0#8

/-- The instruction the decoder reads from the bits `w` of an opcode-table row. -/
def decodeTableWord (nbits w : Nat) : Option Instr :=
  match decode (tableBytes nbits w) with
  | .ok i _ => some i
  | .missing _ _ => none

end Sys2Proof
end

