-- ==== Sys2Proof/Machine/Framing.lean ====
section
/-! DEFINITION. The commands that frame a transaction: END, START, STOP, ADDR (42_sequencer.md R96 to R99). Each
meaning runs with the stream position already past the command (10_state.md R19). -/

namespace Sys2Proof.Machine

/-- END: closes an open transaction with `P` and completes the execution (42_sequencer.md R96). -/
def execEnd (s : State) : Host.Outcome State Fault Refusal :=
  if s.phase = .idle then .next { s with run := .completed s.rsp.wr }
  else
    match emit .stop s with
    | none => .fault .environmentSilent
    | some (r, t) =>
      .next (if r = .timeout then endFailed .timeout t else { t with phase := .idle, run := .completed t.rsp.wr })

/-- START: `S` when idle, `Sr` otherwise (42_sequencer.md R97). -/
def execStart (s : State) : Host.Outcome State Fault Refusal :=
  match emit (if s.phase = .idle then .start else .restart) s with
  | none => .fault .environmentSilent
  | some (r, t) => .next (if r = .timeout then endFailed .timeout t else { t with phase := .started })

/-- STOP: `P` unless idle (42_sequencer.md R98). -/
def execStop (s : State) : Host.Outcome State Fault Refusal :=
  if s.phase = .idle then .next s
  else
    match emit .stop s with
    | none => .fault .environmentSilent
    | some (r, t) => .next (if r = .timeout then endFailed .timeout t else { t with phase := .idle })

/-- ADDR: records the target of later address phases; above 0x7F it fails (42_sequencer.md R99). -/
def execAddr (a : Byte) (s : State) : Host.Outcome State Fault Refusal :=
  if 0x7F < a.toNat then abort .illegalAddress s else .next { s with addr := some (a.setWidth 7) }

end Sys2Proof.Machine
end

