-- ==== Sys2Proof/Machine/Illegal.lean ====
section
/-! DEFINITION. The encodings that make the execution fail: ESCAPE before another byte, FLAGS, and opcode bytes above
7 (30_encoding.md R64; 42_sequencer.md R105, R107). Failing is their effect: `Fail` is taken, a next state. -/

namespace Sys2Proof.Machine

/-- ESCAPE before a byte other than 0x06 and 0x07: `IllegalAddress` for 0x04, `IllegalEscape` for the others
(42_sequencer.md R105). -/
def execEscape (op : Byte) (s : State) : Host.Outcome State Fault Refusal :=
  abort (if op = 0x04#8 then .illegalAddress else .illegalEscape) s

/-- FLAGS: fails with `Unsupported`, reading no operand (42_sequencer.md R107). -/
def execFlags (s : State) : Host.Outcome State Fault Refusal := abort .unsupported s

/-- An opcode byte 0x08..0xFF: fails with `IllegalOpcode`, reading no operand (42_sequencer.md R107). -/
def execIllegal (_op : Byte) (s : State) : Host.Outcome State Fault Refusal := abort .illegalOpcode s

end Sys2Proof.Machine
end

