-- ==== Sys2Proof/Machine/Transfer.lean ====
section
/-! DEFINITION. The commands that move data, in short and escaped form (42_sequencer.md R102, R103, R105). -/

namespace Sys2Proof.Machine

/-- READ n, with the operand zero-extended (42_sequencer.md R103; 30_encoding.md R61). -/
def execRead (n : Byte) (s : State) : Host.Outcome State Fault Refusal := readInto n.toNat s

/-- WRITE n: d (42_sequencer.md R102). -/
def execWrite (d : List Byte) (s : State) : Host.Outcome State Fault Refusal := writePayload d s

/-- ESC READ n: `Read n` with a 16-bit length (42_sequencer.md R105). -/
def execEscRead (n : Word) (s : State) : Host.Outcome State Fault Refusal := readInto n.toNat s

/-- ESC WRITE n: d: `Write n` with a 16-bit length (42_sequencer.md R105). -/
def execEscWrite (d : List Byte) (s : State) : Host.Outcome State Fault Refusal := writePayload d s

end Sys2Proof.Machine
end

