-- ==== Sys2Proof/Machine/Dispatch.lean ====
section
/-! DEFINITION. One arm for each command of the command stream (42_sequencer.md R94). -/

namespace Sys2Proof.Machine

def exec (i : Instr) (s : State) : Host.Outcome State Fault Refusal :=
  match i with
  | .endCmd => Sys2Proof.Machine.execEnd s
  | .escape op => Sys2Proof.Machine.execEscape op s
  | .start => Sys2Proof.Machine.execStart s
  | .stop => Sys2Proof.Machine.execStop s
  | .addr a => Sys2Proof.Machine.execAddr a s
  | .flags => Sys2Proof.Machine.execFlags s
  | .read n => Sys2Proof.Machine.execRead n s
  | .write d => Sys2Proof.Machine.execWrite d s
  | .escRead n => Sys2Proof.Machine.execEscRead n s
  | .escWrite d => Sys2Proof.Machine.execEscWrite d s
  | .illegal op => Sys2Proof.Machine.execIllegal op s

end Sys2Proof.Machine
end

