-- ==== Sys2Proof/Machine/Execute.lean ====
section
/-! DEFINITION. `Execute()` (42_sequencer.md R92 to R95, R108, R109): how an execution begins, one command of it, and
the whole of it. -/

namespace Sys2Proof.Machine

/-- The state with the stream position moved past `n` bytes (10_state.md R19). -/
def advance (n : Nat) (s : State) : State := { s with cmd := { s.cmd with rd := s.cmd.rd + n } }

/-- The start of an execution (42_sequencer.md R93). -/
def beginExecution (s : State) : State :=
  { s with
    cmd := { s.cmd with rd := 0 }
    rsp := s.rsp.rewind
    phase := .idle
    addr := none
    trace := []
    run := .running }

/-- One command of an execution: fetch at the stream position, decode, move past the command, run it; a fetch that
runs out of bytes fails with `ReadUnderflow` (42_sequencer.md R94; log 17). -/
def stepCommand (s : State) : Host.Outcome State Fault Refusal :=
  match decode s.cmd.unread with
  | .ok i n => exec i (advance n s)
  | .missing _ n => abort .readUnderflow (advance n s)

/-- The main loop, at most `fuel` commands (42_sequencer.md R94, R108). It stops as soon as the execution has ended. -/
def runCommands : Nat → State → Host.Outcome State Fault Refusal
  | 0, s => .next s
  | fuel + 1, s =>
    match stepCommand s with
    | .next t => if t.run = .running then runCommands fuel t else .next t
    | .fault f => .fault f
    | .refused r => .refused r

/-- An execution under `EXECUTOR = Reference`, to its end (42_sequencer.md R92 to R95). Every command consumes a byte,
so `CMD.wr + 1` commands are enough (R108). -/
def executeReference (s : State) : Host.Outcome State Fault Refusal :=
  runCommands (s.cmd.wr + 1) (beginExecution s)

/-- The state an execution drawn by the environment leaves: any bytes, no more than `RSP` holds, any trace, any
result (42_sequencer.md R109; log 14). -/
def applyDraw (d : ExecDraw) (s : State) : State :=
  let bytes := d.bytes.take s.rsp.cap
  { s with
    cmd := { s.cmd with rd := min d.consumed s.cmd.wr }
    rsp := { s.rsp with store := Memory.writeList s.rsp.store 0 bytes, wr := bytes.length }
    trace := s.trace ++ d.trace
    run := match d.failure with
      | none => .completed bytes.length
      | some reason => .failed reason bytes.length }

/-- An execution under `EXECUTOR = Oracle`: a draw (42_sequencer.md R109). -/
def executeOracle (s : State) : Host.Outcome State Fault Refusal :=
  match askExecution (beginExecution s) with
  | none => .fault .environmentSilent
  | some (d, t) => .next (applyDraw d t)

/-- A whole `Execute()` as the bit-banged transport calls it (42_sequencer.md R92; 43_transport.md R117, R118). -/
def execute (s : State) : Host.Outcome State Fault Refusal :=
  match s.params.executor with
  | .reference => executeReference s
  | .oracle => executeOracle s

end Sys2Proof.Machine
end

