-- ==== Sys2Proof/Machine/BitBanged.lean ====
section
/-! DEFINITION. The bit-banged transport: one command stream for each logical operation, executed as one transaction
(43_transport.md R115 to R118). -/

namespace Sys2Proof.Machine

/-- The payload or the request of a logical operation: the bytes to send, or how many to receive. -/
inductive Body where
  | send (payload : List Byte)
  | receive (n : Nat)
  deriving DecidableEq, Repr

/-- How many bytes a body moves. -/
def bodyLength : Body → Nat
  | .send d => d.length
  | .receive n => n

/-- The template's optional `write(cmd)`: `send(1)` and the register byte (43_transport.md R115; D23). -/
def buildRegister (reg : Option Byte) (s : State) : Res Status Unit :=
  match reg with
  | none => .done () s
  | some r => (encSend 1 s).bind fun _ t => encodeBytes [r] t

/-- The template's `send` with its payload, or `receive` (43_transport.md R115). -/
def buildBody (body : Body) (s : State) : Res Status Unit :=
  match body with
  | .send payload => (encSend payload.length s).bind fun _ t => encodeBytes payload t
  | .receive n => encReceive n s

/-- `Build`: a fresh command buffer with `address`, the register byte if there is one, `restart`, the body and
`stopAndEnd` (43_transport.md R115). -/
def build (reg : Option Byte) (body : Body) (s : State) : Res Status Unit :=
  (encAddress (s.transport.addr7.setWidth 8) { s with cmd := s.cmd.clear }).bind fun _ s1 =>
  (buildRegister reg s1).bind fun _ s2 =>
  (encRestart s2).bind fun _ s3 =>
  (buildBody body s3).bind fun _ s4 =>
  encStopAndEnd s4

/-- `Execute()` of the stream `Build` left, as a procedure: its count on `Completed(k)`; every `Failed(_, _)` becomes the
direction's status (43_transport.md R117, R118; 42_sequencer.md R92; 60_exceptions.md R154). A block of 0 bytes is no
exception: its trace is what the stream gives (log 25). An execution always ends (42_sequencer.md R108). -/
def runTransaction (onFailure : Status) (s : State) : Res Status Nat :=
  match execute s with
  | .fault f => .fault f
  | .refused r => .refused r
  | .next t =>
    match t.run with
    | .completed k => .done k t
    | .failed _ _ => .failed onFailure t
    | .running => .failed onFailure t
    | .idle => .failed onFailure t

/-- A bit-banged send (43_transport.md R117). -/
def bitBangedSend (reg : Option Byte) (payload : List Byte) (s : State) : Res Status Unit :=
  (build reg (.send payload) s).bind fun _ t =>
    (runTransaction .sendFail t).bind fun _ u => .done () u

/-- Taking the received bytes out of `RSP`: the count check, then the first `n` bytes (43_transport.md R118). -/
def takeReceived (n k : Nat) (s : State) : Res Status (List Byte) :=
  match s.rsp.setWriteLength k with
  | none => .failed .writeOverflow s
  | some b =>
    let t := { s with rsp := b }
    if k < n then .failed .receivedLessThanExpected t
    else
      match b.read n with
      | none => .failed .readUnderflow t
      | some (data, b') => .done data { t with rsp := b' }

/-- A bit-banged receive of `n` bytes (43_transport.md R118). -/
def bitBangedReceive (reg : Option Byte) (n : Nat) (s : State) : Res Status (List Byte) :=
  (build reg (.receive n) s).bind fun _ t =>
    (runTransaction .receiveFail t).bind fun k u => takeReceived n k u

end Sys2Proof.Machine
end

