-- ==== Sys2Proof/Machine/Hardware.lean ====
section
/-! DEFINITION. The hardware transport: SMBus primitives as START..STOP frames, and block transfers in chunks of at
most 32 bytes (43_transport.md R119 to R122). -/

namespace Sys2Proof.Machine

/-- The end of a frame that failed: `P` after a `Nack` with its answer ignored, no event after a `Timeout`
(43_transport.md R120; 92_eei_decisions.md D58). -/
def closeFrame {α : Type} (x : Res Reason α) : Res Reason α :=
  match x with
  | .failed .nack s =>
    match emit .stop s with
    | none => .fault .environmentSilent
    | some (_, t) => .failed .nack t
  | y => y

/-- One frame: `S`, the body, `P` (43_transport.md R120). -/
def frame {α : Type} (body : State → Res Reason α) (s : State) : Res Reason α :=
  (signal .start s).bind fun _ t =>
    closeFrame ((body t).bind fun a u => (signal .stop u).bind fun _ v => .done a v)

/-- Every write primitive: `S, TX(AW), TX(bytes).., P` (43_transport.md R120). -/
def writeFrame (bytes : List Byte) (s : State) : Res Reason Unit :=
  frame (fun t => txAll (addrByte s.transport.addr7 false :: bytes) t) s

/-- The register pointer of a read frame: `TX(AW), TX(r), Sr`, or nothing (43_transport.md R120). -/
def pointAt (reg : Option Byte) (s : State) : Res Reason Unit :=
  match reg with
  | none => .done () s
  | some r => (txAll [addrByte s.transport.addr7 false, r] s).bind fun _ t => signal .restart t

/-- Every read primitive: with a register `S, TX(AW), TX(r), Sr, TX(AR), RX.., P`, without one `S, TX(AR), RX.., P`
(43_transport.md R120). -/
def readFrame (reg : Option Byte) (n : Nat) (s : State) : Res Reason (List Byte) :=
  frame (fun t =>
    (pointAt reg t).bind fun _ u =>
    (txByte (addrByte s.transport.addr7 true) u).bind fun _ v => rxAll n v) s

/-- A send that is one primitive (43_transport.md R119, R122). -/
def hardwareSend (bytes : List Byte) (s : State) : Res Status Unit :=
  (writeFrame bytes s).mapError fun _ => .sendFail

/-- A receive that is one primitive of a fixed size (43_transport.md R119, R122). -/
def hardwareReceive (reg : Option Byte) (n : Nat) (s : State) : Res Status (List Byte) :=
  (readFrame reg n s).mapError fun _ => .receiveFail

/-- A block send in chunks, from register `r` on, wrapping modulo 256 (43_transport.md R121). Each chunk takes a byte,
so as many rounds as there are bytes are enough. -/
def sendChunks : Nat → Byte → List Byte → State → Res Status Unit
  | 0, _, _, s => .done () s
  | fuel + 1, r, buf, s =>
    if buf.length = 0 then .done () s
    else
      (hardwareSend (r :: buf.take Config.blockMax) s).bind fun _ t =>
        sendChunks fuel (r + BitVec.ofNat 8 Config.blockMax) (buf.drop Config.blockMax) t

/-- One block read of `m` bytes: the frame, then the count the primitive returns, no more than `m`; a short count is
`ReceivedLessThanExpected` (43_transport.md R121, R122; log 15). -/
def blockRead (r : Byte) (m : Nat) (s : State) : Res Status (List Byte) :=
  (hardwareReceive (some r) m s).bind fun data t =>
    match askBlockCount t with
    | none => .fault .environmentSilent
    | some (c, u) => if c < m then .failed .receivedLessThanExpected u else .done data u

/-- A block receive of `n` bytes in chunks (43_transport.md R121). -/
def receiveChunks : Nat → Byte → Nat → State → Res Status (List Byte)
  | 0, _, _, s => .done [] s
  | fuel + 1, r, n, s =>
    if n = 0 then .done [] s
    else
      (blockRead r (min Config.blockMax n) s).bind fun data t =>
        (receiveChunks fuel (r + BitVec.ofNat 8 Config.blockMax) (n - Config.blockMax) t).bind fun rest u =>
          .done (data ++ rest) u

end Sys2Proof.Machine
end

