-- ==== Sys2Proof/Machine/Transport.lean ====
section
/-! DEFINITION. The transport's ten operations in both kinds (43_transport.md R111 to R122) and its construction
(70_reset_and_hazards.md R172). -/

namespace Sys2Proof.Machine

/-- Construction of the transport and of its two buffers; no bus activity (70_reset_and_hazards.md R172;
92_eei_decisions.md D53; log 23). -/
def constructTransport (kind : TransportKind) (addr7 : Addr7) (adapter cmdCap rspCap : Nat) (s : State) : State :=
  { s with
    transport := { kind := kind, addr7 := addr7, adapter := adapter, isOpen := false }
    cmd := ByteBuffer.fresh cmdCap
    rsp := ByteBuffer.fresh rspCap }

/-- `Initialize()` (43_transport.md R112): already open, it answers true with no effect. -/
def initializeTransport (s : State) : Res Status Bool :=
  if s.transport.isOpen then .done true s
  else
    match askOpenDevice s with
    | none => .fault .environmentSilent
    | some (ok, t) => .done ok (if ok then { t with transport := { t.transport with isOpen := true } } else t)

/-- `Close()`/`Shutdown()` (43_transport.md R113). -/
def closeTransport (s : State) : State := { s with transport := { s.transport with isOpen := false } }

/-- A send: not open fails with `SendFail` (43_transport.md R114), else the kind's own realisation. -/
def sendVia (reg : Option Byte) (payload : List Byte) (hardware : State → Res Status Unit) (s : State) :
    Res Status Unit :=
  if s.transport.isOpen then
    match s.transport.kind with
    | .bitBanged => bitBangedSend reg payload s
    | .hardware => hardware s
  else .failed .sendFail s

/-- A receive: not open fails with `ReceiveFail` (43_transport.md R114), else the kind's own realisation. -/
def receiveVia (reg : Option Byte) (n : Nat) (hardware : State → Res Status (List Byte)) (s : State) :
    Res Status (List Byte) :=
  if s.transport.isOpen then
    match s.transport.kind with
    | .bitBanged => bitBangedReceive reg n s
    | .hardware => hardware s
  else .failed .receiveFail s

/-- `sendByte(v)` (43_transport.md R116, R119). -/
def sendByte (v : Byte) (s : State) : Res Status Unit := sendVia none [v] (hardwareSend [v]) s

/-- `sendReg(r, v)` (43_transport.md R116, R119). -/
def sendReg (r v : Byte) (s : State) : Res Status Unit := sendVia (some r) [v] (hardwareSend [r, v]) s

/-- `sendWord(r, w)`, the low byte first (43_transport.md R116, R119; 20_memory.md R44). -/
def sendWord (r : Byte) (w : Word) (s : State) : Res Status Unit :=
  sendVia (some r) [lo8 w, hi8 w] (hardwareSend [r, lo8 w, hi8 w]) s

/-- `sendBlock(r, buf, n)` with `n` the length of `buf` (43_transport.md R116, R121; log 24). -/
def sendBlock (r : Byte) (buf : List Byte) (s : State) : Res Status Unit :=
  sendVia (some r) buf (sendChunks buf.length r buf) s

/-- `receiveByte()` (43_transport.md R116, R119). -/
def receiveByte (s : State) : Res Status Byte :=
  (receiveVia none 1 (hardwareReceive none 1) s).bind fun data t => .done (data.headD 0#8) t

/-- `receiveReg(r)` (43_transport.md R116, R119). -/
def receiveReg (r : Byte) (s : State) : Res Status Byte :=
  (receiveVia (some r) 1 (hardwareReceive (some r) 1) s).bind fun data t => .done (data.headD 0#8) t

/-- `receiveWord(r)`: `w = b0 | (b1 << 8)` (43_transport.md R118, R120). -/
def receiveWord (r : Byte) (s : State) : Res Status Word :=
  (receiveVia (some r) 2 (hardwareReceive (some r) 2) s).bind fun data t =>
    .done (leWord (data.getD 0 0#8) (data.getD 1 0#8)) t

/-- `receiveBlock(r, n)` (43_transport.md R116, R121). -/
def receiveBlock (r : Byte) (n : Nat) (s : State) : Res Status (List Byte) :=
  receiveVia (some r) n (receiveChunks n r n) s

end Sys2Proof.Machine
end

