-- ==== Sys2Proof/Machine/RegisterSet.lean ====
section
/-! DEFINITION. The register set: transfers against the transport (44_register_set.md R125 to R131) and the local
helpers with the BCD codec (R132 to R137). -/

namespace Sys2Proof.Machine

/-- The span of a block transfer, when it lies inside the register set (44_register_set.md R127, R130). -/
def validSpan (start count : Int) : Option (Nat × Nat) :=
  if start < 0 ∨ count < 0 ∨ (Config.regCount : Int) < start + count then none
  else some (start.toNat, count.toNat)

/-- `read(T, id)` (R126): on a failure the image is unchanged. -/
def readOne (id : Int) (s : State) : Res Status Unit :=
  match validId id with
  | none => .failed .receiveFail s
  | some i => (receiveReg (BitVec.ofNat 8 i) s).bind fun v t => .done () (putReg i v t)

/-- The slots of a failed block read: the bit-banged transport writes no destination (43_transport.md R118); after a
hardware one they hold unspecified values (44_register_set.md R127; log 10). -/
def afterFailedRead (i n : Nat) (s : State) : State :=
  match s.transport.kind with
  | .bitBanged => s
  | .hardware => forgetRegs i n s

/-- `read(T, start, count)` (R127). -/
def readBlock (start count : Int) (s : State) : Res Status Unit :=
  match validSpan start count with
  | none => .failed .receiveFail s
  | some (i, n) =>
    if n = 0 then .done () s
    else
      match receiveBlock (BitVec.ofNat 8 i) n s with
      | .done data t => .done () (putRegs i data t)
      | .failed st t => .failed st (afterFailedRead i n t)
      | .fault f => .fault f
      | .refused r => .refused r

/-- `read(T, startId, endId)`, inclusive (R128). -/
def readRange (startId endId : Int) (s : State) : Res Status Unit :=
  if endId < startId then .failed .receiveFail s else readBlock startId (endId - startId + 1) s

/-- `write(T, id)` (R129). -/
def writeOne (id : Int) (s : State) : Res Status Unit :=
  match validId id with
  | none => .failed .sendFail s
  | some i => sendReg (BitVec.ofNat 8 i) (getReg i s) s

/-- `write(T, start, count)` (R130). -/
def writeBlock (start count : Int) (s : State) : Res Status Unit :=
  match validSpan start count with
  | none => .failed .sendFail s
  | some (i, n) => if n = 0 then .done () s else sendBlock (BitVec.ofNat 8 i) (getRegs s i n) s

/-- `write(T, startId, endId)`, inclusive (R131). -/
def writeRange (startId endId : Int) (s : State) : Res Status Unit :=
  if endId < startId then .failed .sendFail s else writeBlock startId (endId - startId + 1) s

/-- `setBit(id, m)` (R133). -/
def setBit (i : Nat) (m : Byte) (s : State) : State := putReg i (withBits (getReg i s) m) s

/-- `removeBit(id, m)` (R133). -/
def removeBit (i : Nat) (m : Byte) (s : State) : State := putReg i (withoutBits (getReg i s) m) s

/-- `isSet(id, m)` (R134). -/
def isSet (i : Nat) (m : Byte) (s : State) : Bool := maskSet (getReg i s) m

/-- `isClear(id, m)` (R134). -/
def isClear (i : Nat) (m : Byte) (s : State) : Bool := maskClear (getReg i s) m

/-- `Clear()`, and the creation of a register set (R135; 10_state.md R21). -/
def clearRegs (s : State) : State := { s with regs := RegSet.zero }

/-- `fromBcd(id, msb, lsb)` (R136). -/
def fromBcd (i : Nat) (msb lsb : Byte) (s : State) : Int := bcdValue (getReg i s) msb lsb

/-- `toBcd(id, v, msb, lsb)` under the block's `BCD_MERGE` (R137). -/
def toBcd (i : Nat) (v : Int) (msb lsb : Byte) (s : State) : State :=
  putReg i (bcdMerge s.params.bcdMerge (getReg i s) v msb lsb) s

end Sys2Proof.Machine
end

