-- ==== Sys2Proof/Machine/Rtc.lean ====
section
/-! DEFINITION. The RTC field codec (45_rtc_codec.md R139 to R152). -/

namespace Sys2Proof.Machine

/-- Runs a codec operation on a register set of its own, created zeroed and discarded at the end; the host's register
set is as it was (45_rtc_codec.md R139; log 12). -/
def withFreshRegs {α : Type} (op : State → Res Status α) (s : State) : Res Status α :=
  (op (clearRegs s)).mapState fun t => { t with regs := s.regs }

/-! ### Hours (45_rtc_codec.md R141) -/

/-- `EncodeHour(h, t)`. -/
def encodeHour (h : Nat) (t : RtcTime) (s : State) : State :=
  match t.mode with
  | .h12 =>
    let s1 := setBit h mode12 s
    let s2 := if t.pm then setBit h pmBit s1 else s1
    toBcd h t.hour hr12Msb lsb4 s2
  | .h24 => toBcd h t.hour hr24Msb lsb4 s

/-- `DecodeHour(h)`: the hour, the mode and the meridiem. -/
def decodeHour (h : Nat) (s : State) : Int × HourMode × Bool :=
  if isSet h mode12 s then (fromBcd h hr12Msb lsb4 s, .h12, isSet h pmBit s)
  else (fromBcd h hr24Msb lsb4 s, .h24, false)

/-! ### Clock state, date and time, temperature -/

/-- `GetClockState()`: a failed read is `Unknown` (R142). -/
def getClockState (s : State) : Res Status ClockState :=
  withFreshRegs (fun t =>
    match readRange regControl regStatus t with
    | .done _ u => .done (if isSet regStatus osf u then .timeInvalid else .running) u
    | .failed _ u => .done .unknown u
    | .fault f => .fault f
    | .refused r => .refused r) s

/-- The calendar fields of the time registers (R143). -/
def decodeDateTime (s : State) : RtcDateTime :=
  let (hour, mode, pm) := decodeHour regHours s
  { second := fromBcd regSeconds secMsb lsb4 s
    minute := fromBcd regMinutes minMsb lsb4 s
    hour := hour
    mode := mode
    pm := pm
    weekday := ((getReg regWeekDay s &&& wdayMask).toNat : Int)
    day := fromBcd regDate dateMsb lsb4 s
    month := fromBcd regMonth monthMsb lsb4 s
    year := (if isSet regMonth century s then 2000 else 1900) + fromBcd regYear yearMsb lsb4 s }

/-- `GetDateTime()` (R143). -/
def getDateTime (s : State) : Res Status RtcDateTime :=
  withFreshRegs (fun t => (readBlock regSeconds 7 t).bind fun _ u => .done (decodeDateTime u) u) s

/-- The time registers of a date and time (R144, before step 1). -/
def encodeDateTime (dt : RtcDateTime) (s : State) : State :=
  let s1 := toBcd regSeconds dt.second secMsb lsb4 s
  let s2 := toBcd regMinutes dt.minute minMsb lsb4 s1
  let s3 := encodeHour regHours dt.toRtcTime s2
  let s4 := putReg regWeekDay (specByte dt.weekday &&& wdayMask) s3
  let s5 := toBcd regDate dt.day dateMsb lsb4 s4
  let s6 := toBcd regMonth dt.month monthMsb lsb4 s5
  let s7 := if 2000 ≤ dt.year then setBit regMonth century s6 else s6
  toBcd regYear (specMod dt.year 100) yearMsb lsb4 s7

/-- Step 3 of `SetDateTime`: clears EOSC and OSF when either was set (R144). -/
def resumeClock (s : State) : Res Status Unit :=
  if isSet regControl eosc s || isSet regStatus osf s then
    writeRange regControl regStatus (removeBit regStatus osf (removeBit regControl eosc s))
  else .done () s

/-- `SetDateTime(dt)` (R144). -/
def setDateTime (dt : RtcDateTime) (s : State) : Res Status Unit :=
  withFreshRegs (fun t =>
    (writeBlock regSeconds 7 (encodeDateTime dt t)).bind fun _ u =>
    (readRange regControl regStatus u).bind fun _ v =>
    resumeClock v) s

/-- The temperature of a register pair, in quarter degrees (R145). -/
def quarterDegrees (msb lsb : Byte) : Int := 4 * msb.toInt + (((lsb &&& tempFrac) >>> 6).toNat : Int)

/-- `GetTemperature()` (R145). -/
def getTemperature (s : State) : Res Status Int :=
  withFreshRegs (fun t =>
    (readRange regTempMsb regTempLsb t).bind fun _ u =>
      .done (quarterDegrees (getReg regTempMsb u) (getReg regTempLsb u)) u) s

/-! ### Alarms (R146 to R149) -/

/-- The specificity rank of an interval (10_state.md R36). -/
def rank : AlarmInterval → Nat
  | .everySecond => 0
  | .seconds => 1
  | .minutes => 2
  | .hours => 3
  | .weekDay => 4
  | .days => 4

/-- An alarm field's register and rank (R146). -/
structure AlarmField where
  reg  : Nat
  rank : Nat
  deriving DecidableEq, Repr

/-- The fields of an alarm, in rising rank; the second alarm has no seconds (R146). -/
def alarmFields : AlarmId → List AlarmField
  | .first => [⟨regAlarm1Seconds, 1⟩, ⟨regAlarm1Minutes, 2⟩, ⟨regAlarm1Hours, 3⟩, ⟨regAlarm1Day, 4⟩]
  | .second => [⟨regAlarm2Minutes, 2⟩, ⟨regAlarm2Hours, 3⟩, ⟨regAlarm2Day, 4⟩]

/-- The registers of an alarm (R146). -/
def minReg : AlarmId → Nat
  | .first => regAlarm1Minutes
  | .second => regAlarm2Minutes
def hrsReg : AlarmId → Nat
  | .first => regAlarm1Hours
  | .second => regAlarm2Hours
def dayReg : AlarmId → Nat
  | .first => regAlarm1Day
  | .second => regAlarm2Day

/-- The block an alarm's registers form: base and count (R146). -/
def alarmBase : AlarmId → Int
  | .first => regAlarm1Seconds
  | .second => regAlarm2Minutes
def alarmCount : AlarmId → Int
  | .first => 4
  | .second => 3

/-- `AnIE(id)`, the alarm's enable bit in Control (R146). -/
def enableBit : AlarmId → Byte
  | .first => a1ie
  | .second => a2ie

/-- `Excluded(f, iv)` (R147). -/
def excluded (scheme : AlarmScheme) (fieldRank : Nat) (iv : AlarmInterval) : Bool :=
  match scheme with
  | .cumulative => decide (rank iv < fieldRank)
  | .oneHot => decide (rank iv ≠ fieldRank)

/-- Sets the exclude bit of every excluded field of the list (R148). -/
def setExclusions (scheme : AlarmScheme) (iv : AlarmInterval) : List AlarmField → State → State
  | [], s => s
  | f :: rest, s =>
    setExclusions scheme iv rest (if excluded scheme f.rank iv then setBit f.reg exclBit s else s)

/-- The day field: a raw day of week under DYDT for the interval `WeekDay`, a BCD day of month otherwise (R148). -/
def encodeDay (day : Nat) (a : RtcAlarm) (s : State) : State :=
  if a.interval = .weekDay then
    let t := setBit day dydt s
    putReg day (getReg day t ||| (specByte a.weekday &&& adayWdayMask)) t
  else toBcd day a.day dateMsb lsb4 s

/-- The alarm registers of an alarm record (R148, before the first transfer). -/
def encodeAlarm (id : AlarmId) (a : RtcAlarm) (s : State) : State :=
  let s1 := match id with
    | .first => toBcd regAlarm1Seconds a.second secMsb lsb4 s
    | .second => s
  let s2 := toBcd (minReg id) a.minute minMsb lsb4 s1
  let s3 := encodeHour (hrsReg id) a.toRtcTime s2
  let s4 := encodeDay (dayReg id) a s3
  setExclusions s.params.alarmScheme a.interval (alarmFields id) s4

/-- Sets or removes an alarm's enable bit in the Control image (R148, R150). -/
def putEnable (id : AlarmId) (enabled : Bool) (s : State) : State :=
  if enabled then setBit regControl (enableBit id) s else removeBit regControl (enableBit id) s

/-- The read-modify-write of Control that sets or removes an alarm's enable bit (R148, R150). -/
def updateEnable (id : AlarmId) (enabled : Bool) (s : State) : Res Status Unit :=
  (readOne regControl s).bind fun _ t => writeOne regControl (putEnable id enabled t)

/-- `SetAlarm(id, a)` (R148). -/
def setAlarm (id : AlarmId) (a : RtcAlarm) (s : State) : Res Status Unit :=
  withFreshRegs (fun t =>
    (writeBlock (alarmBase id) (alarmCount id) (encodeAlarm id a t)).bind fun _ u =>
    updateEnable id a.enabled u) s

/-- The interval a field with a clear exclude bit stands for (R149). -/
def fieldInterval (id : AlarmId) (f : AlarmField) (s : State) : AlarmInterval :=
  if f.rank = 1 then .seconds
  else if f.rank = 2 then .minutes
  else if f.rank = 3 then .hours
  else if isSet (dayReg id) dydt s then .weekDay
  else .days

/-- The interval inferred from the clear exclude bits, checked in ascending order: the last one under `Cumulative`,
the first one under `OneHot`, `EverySecond` where none is clear (R149). -/
def inferInterval (id : AlarmId) (s : State) : AlarmInterval :=
  let clear := (alarmFields id).filter fun f => isClear f.reg exclBit s
  let chosen := match s.params.alarmScheme with
    | .cumulative => clear.getLast?
    | .oneHot => clear.head?
  match chosen with
  | none => .everySecond
  | some f => fieldInterval id f s

/-- The alarm record of the alarm and Control registers (R149). -/
def decodeAlarm (id : AlarmId) (s : State) : RtcAlarm :=
  let (hour, mode, pm) := decodeHour (hrsReg id) s
  { second := match id with
      | .first => fromBcd regAlarm1Seconds secMsb lsb4 s
      | .second => 0
    minute := fromBcd (minReg id) minMsb lsb4 s
    hour := hour
    mode := mode
    pm := pm
    weekday := if isSet (dayReg id) dydt s then ((getReg (dayReg id) s &&& adayWdayMask).toNat : Int) else 0
    day := if isSet (dayReg id) dydt s then 0 else fromBcd (dayReg id) dateMsb lsb4 s
    interval := inferInterval id s
    enabled := isSet regControl (enableBit id) s }

/-- `GetAlarm(id)` (R149). -/
def getAlarm (id : AlarmId) (s : State) : Res Status RtcAlarm :=
  withFreshRegs (fun t =>
    (readBlock (alarmBase id) (alarmCount id) t).bind fun _ u =>
    (readOne regControl u).bind fun _ v => .done (decodeAlarm id v) v) s

/-! ### Alarm enables and triggers (R150 to R152) -/

/-- `SetAlarmInterruptState(id, enabled)` (R150). -/
def setAlarmInterruptState (id : AlarmId) (enabled : Bool) (s : State) : Res Status Unit :=
  withFreshRegs (fun t => updateEnable id enabled t) s

/-- `GetAlarmInterruptStatus()`: A1IE and A2IE (R151). -/
def getAlarmInterruptStatus (s : State) : Res Status (Bool × Bool) :=
  withFreshRegs (fun t =>
    (readOne regControl t).bind fun _ u => .done (isSet regControl a1ie u, isSet regControl a2ie u) u) s

/-- The acknowledge of `GetAlarmTriggerState`: one write that clears both flags, only when one was set (R152). -/
def acknowledge (triggers : Bool × Bool) (s : State) : Res Status (Bool × Bool) :=
  if triggers.1 || triggers.2 then
    (writeOne regStatus (removeBit regStatus (a1f ||| a2f) s)).bind fun _ t => .done triggers t
  else .done triggers s

/-- `GetAlarmTriggerState()`: A1F and A2F (R152). -/
def getAlarmTriggerState (s : State) : Res Status (Bool × Bool) :=
  withFreshRegs (fun t =>
    (readOne regStatus t).bind fun _ u => acknowledge (isSet regStatus a1f u, isSet regStatus a2f u) u) s

end Sys2Proof.Machine
end

