-- ==== Sys2Proof/Machine/HostPort.lean ====
section
/-! DEFINITION. The host port: what each host operation does to the state and hands back (40_byte_buffer.md to
45_rtc_codec.md; 00_scope.md R7, R11), and the launch of an operation. -/

namespace Sys2Proof.Machine

/-- The end of a host operation: its answer becomes `result` (log 9). A failure hands back its status. -/
def handBack {α : Type} (f : α → HostResult) (x : Res Status α) : Host.Outcome State Fault Refusal :=
  match x with
  | .done a s => .next { s with result := some (f a) }
  | .failed st s => .next { s with result := some (.status st) }
  | .fault r => .fault r
  | .refused r => .refused r

/-- The answer of an operation that hands back a status only. -/
def okStatus (_ : Unit) : HostResult := .status .ok

/-! ### Byte Buffer (40_byte_buffer.md) -/

/-- The buffer an operation names. -/
def getBuffer (b : BufferId) (s : State) : ByteBuffer :=
  match b with
  | .cmd => s.cmd
  | .rsp => s.rsp

/-- The state with that buffer replaced. -/
def putBuffer (b : BufferId) (x : ByteBuffer) (s : State) : State :=
  match b with
  | .cmd => { s with cmd := x }
  | .rsp => { s with rsp := x }

/-- A buffer update that may overflow. -/
def storeBuffer (b : BufferId) (x : Option ByteBuffer) (s : State) : Res Status Unit :=
  match x with
  | none => .failed .writeOverflow s
  | some y => .done () (putBuffer b y s)

/-- `write(bytes, n)` (R71): a negative `n` and a list shorter than `n` are outside the operation's domain (log 18). -/
def hostBufWrite (b : BufferId) (bytes : List Byte) (n : Int) (s : State) : Res Status Unit :=
  if n < 0 then .refused .negativeCount
  else if (bytes.length : Int) < n then .refused .sourceTooShort
  else storeBuffer b ((getBuffer b s).write (bytes.take n.toNat)) s

/-- `read8()` (R72). -/
def hostBufRead8 (b : BufferId) (s : State) : Res Status Byte :=
  match (getBuffer b s).read8 with
  | none => .failed .readUnderflow s
  | some (v, x) => .done v (putBuffer b x s)

/-- `read(dest, n)` (R73). -/
def hostBufRead (b : BufferId) (n : Int) (s : State) : Res Status (List Byte) :=
  if n < 0 then .refused .negativeCount
  else
    match (getBuffer b s).read n.toNat with
    | none => .failed .readUnderflow s
    | some (l, x) => .done l (putBuffer b x s)

/-- `setWriteLength(n)` (R76): the capacity check comes first. -/
def hostSetWriteLength (b : BufferId) (n : Int) (s : State) : Res Status Unit :=
  if n < 0 then .refused .negativeCount
  else
    match (getBuffer b s).setWriteLength n.toNat with
    | none => .failed .writeOverflow s
    | some x => if n < (getBuffer b s).rd then .refused .setWriteLengthBelowRead else .done () (putBuffer b x s)

/-! ### Register set helpers (44_register_set.md R125, R132 to R137) -/

/-- A local helper on a register id; outside 0..18 it is refused (R125). -/
def helper {α : Type} (id : Int) (f : Nat → State → α × State) (s : State) : Res Status α :=
  match validId id with
  | none => .refused .registerIdOutOfRange
  | some i => .done (f i s).1 (f i s).2

/-! ### Execute (42_sequencer.md R92, R109) -/

/-- `Execute()` issued by the host: under `Reference` the execution begins and runs one command a step; under `Oracle`
it is one draw (log 7). -/
def hostExecute (s : State) : Host.Outcome State Fault Refusal :=
  match s.params.executor with
  | .reference => .next (beginExecution s)
  | .oracle => executeOracle s

/-! ### The operations -/

/-- One host operation. -/
def hostExec (op : HostOp) (s : State) : Host.Outcome State Fault Refusal :=
  match op with
  | .bufConstruct b cap => handBack okStatus (.done () (putBuffer b (ByteBuffer.fresh cap) s))
  | .bufWrite8 b v => handBack okStatus (storeBuffer b ((getBuffer b s).write [v]) s)
  | .bufWrite b bytes n => handBack okStatus (hostBufWrite b bytes n s)
  | .bufRead8 b => handBack .byte (hostBufRead8 b s)
  | .bufRead b n => handBack .bytes (hostBufRead b n s)
  | .bufReset b => handBack okStatus (.done () (putBuffer b (getBuffer b s).rewind s))
  | .bufClear b => handBack okStatus (.done () (putBuffer b (getBuffer b s).clear s))
  | .bufSetWriteLength b n => handBack okStatus (hostSetWriteLength b n s)
  | .bufWriteLength b => handBack .int (.done ((getBuffer b s).wr : Int) s)
  | .bufReadRemaining b => handBack .int (.done ((getBuffer b s).readRemaining : Int) s)
  | .bufWriteRemaining b => handBack .int (.done ((getBuffer b s).writeRemaining : Int) s)
  | .bufEndOfRead b => handBack .bool (.done (decide ((getBuffer b s).readRemaining = 0)) s)
  | .bufEndOfWrite b => handBack .bool (.done (decide ((getBuffer b s).writeRemaining = 0)) s)
  | .encStart => handBack okStatus (encStart s)
  | .encRestart => handBack okStatus (encRestart s)
  | .encStop => handBack okStatus (encStop s)
  | .encEnd => handBack okStatus (encEnd s)
  | .encStopAndEnd => handBack okStatus (encStopAndEnd s)
  | .encAddress a => handBack okStatus (encAddress a s)
  | .encSend n => handBack okStatus (encSend n s)
  | .encReceive n => handBack okStatus (encReceive n s)
  | .execute => hostExecute s
  | .construct kind addr7 adapter cmdCap rspCap =>
    handBack (fun _ => .done) (.done () (constructTransport kind addr7 adapter cmdCap rspCap s))
  | .initialise => handBack .bool (initializeTransport s)
  | .close => handBack (fun _ => .done) (.done () (closeTransport s))
  | .sendByte v => handBack okStatus (sendByte v s)
  | .sendReg r v => handBack okStatus (sendReg r v s)
  | .sendWord r w => handBack okStatus (sendWord r w s)
  | .sendBlock r buf => handBack okStatus (sendBlock r buf s)
  | .receiveByte => handBack .byte (receiveByte s)
  | .receiveReg r => handBack .byte (receiveReg r s)
  | .receiveWord r => handBack .word (receiveWord r s)
  | .receiveBlock r n => handBack .bytes (receiveBlock r n s)
  | .regCreate => handBack (fun _ => .done) (.done () (clearRegs s))
  | .regRead id => handBack okStatus (readOne id s)
  | .regReadBlock start count => handBack okStatus (readBlock start count s)
  | .regReadRange startId endId => handBack okStatus (readRange startId endId s)
  | .regWrite id => handBack okStatus (writeOne id s)
  | .regWriteBlock start count => handBack okStatus (writeBlock start count s)
  | .regWriteRange startId endId => handBack okStatus (writeRange startId endId s)
  | .regGet id => handBack .byte (helper id (fun i t => (getReg i t, t)) s)
  | .regSet id v => handBack (fun _ => .done) (helper id (fun i t => ((), putReg i v t)) s)
  | .regSetBit id m => handBack (fun _ => .done) (helper id (fun i t => ((), setBit i m t)) s)
  | .regRemoveBit id m => handBack (fun _ => .done) (helper id (fun i t => ((), removeBit i m t)) s)
  | .regIsSet id m => handBack .bool (helper id (fun i t => (isSet i m t, t)) s)
  | .regIsClear id m => handBack .bool (helper id (fun i t => (isClear i m t, t)) s)
  | .regClear => handBack (fun _ => .done) (.done () (clearRegs s))
  | .regFromBcd id msb lsb => handBack .int (helper id (fun i t => (fromBcd i msb lsb t, t)) s)
  | .regToBcd id v msb lsb => handBack (fun _ => .done) (helper id (fun i t => ((), toBcd i v msb lsb t)) s)
  | .getClockState => handBack .clockState (getClockState s)
  | .getDateTime => handBack .dateTime (getDateTime s)
  | .setDateTime dt => handBack okStatus (setDateTime dt s)
  | .getTemperature => handBack .int (getTemperature s)
  | .setAlarm id a => handBack okStatus (setAlarm id a s)
  | .getAlarm id => handBack .alarm (getAlarm id s)
  | .setAlarmInterruptState id enabled => handBack okStatus (setAlarmInterruptState id enabled s)
  | .getAlarmInterruptStatus => handBack (fun p => .interruptStatus p.1 p.2) (getAlarmInterruptStatus s)
  | .getAlarmTriggerState => handBack (fun p => .triggerState p.1 p.2) (getAlarmTriggerState s)

/-- The numeric code of a status (60_exceptions.md R153; 92_eei_decisions.md D1). -/
def Status.code : Status → Nat
  | .ok => 0
  | .fail => 1
  | .sendFail => 2
  | .receiveFail => 3
  | .receivedLessThanExpected => 4
  | .readUnderflow => 5
  | .writeOverflow => 6

/-- The host puts one operation on the host port. A launch that overlaps an operation in progress, or one still to be
served, is refused (00_scope.md R7; log 8). -/
def launch (op : HostOp) (s : State) : Host.Outcome State Fault Refusal :=
  if s.run = .running ∨ s.hostOps ≠ [] then .refused .overlappingLaunch else .next { s with hostOps := [op] }

/-- The host port's turn: the next operation the host issues, or a wait when it issues none (00_scope.md R7; log 8). -/
def stepHost (s : State) : Host.Outcome State Fault Refusal :=
  match s.hostOps with
  | [] => .next s
  | op :: rest => hostExec op { s with hostOps := rest }

/-- A stored program whose first command is the bytes given: they are put at the stream position as the whole unread
span, and an execution is in progress (log 6). -/
def placeProgram (bytes : List Byte) (s : State) : State :=
  { s with
    cmd := { s.cmd with store := Memory.writeList s.cmd.store s.cmd.rd bytes, wr := s.cmd.rd + bytes.length }
    run := .running }

end Sys2Proof.Machine
end

