-- ==== Sys2Proof/Machine/Step.lean ====
section
/-! DEFINITION. One step of the machine: one command of the execution in progress, or else one host operation
(00_scope.md R7; 42_sequencer.md R94; log 7); and the state in which the next step runs a given command. -/

namespace Sys2Proof.Machine

/-- One step. While an execution is in progress the block serves no host operation (70_reset_and_hazards.md R183). -/
def step (s : State) : Host.Outcome State Fault Refusal :=
  if s.run = .running then stepCommand s else stepHost s

/-- The state in which the next step fetches and runs the command whose bits are `w` (log 6). -/
def State.withFetchWord (s : State) (nbits w : Nat) : State := placeProgram (tableBytes nbits w) s

end Sys2Proof.Machine
end

