-- ==== Sys2Proof/Safety.lean ====
section
/-! DEFINITION. What a sound state of the block is, and the vocabulary the claims use: lists of bus events, the
environment's answers to them, the command streams of the bit-banged transport and the frames of the hardware one. -/

namespace Sys2Proof.Machine

/-- The Byte Buffer invariant `0 <= rd <= wr <= cap` (10_state.md R14; 40_byte_buffer.md R78), with the stored bytes
in canonical form and inside the capacity. -/
abbrev ByteBuffer.Sound (b : ByteBuffer) : Prop :=
  b.rd ≤ b.wr ∧ b.wr ≤ b.cap ∧ b.store.wf ∧ ∀ c ∈ b.store, c.1 < b.cap

/-- The invariant of the block: both buffers are sound, `Reading` never survives a command, and between executions the
bus position is `Idle` (10_state.md R14, R17; 42_sequencer.md R95, R96). -/
abbrev State.Inv (s : State) : Prop :=
  s.cmd.Sound ∧ s.rsp.Sound ∧ s.phase ≠ .reading ∧ (s.run = .running ∨ s.phase = .idle)

/-! ### Bus events and the answers to them -/

/-- The answer lets the event succeed: no `Timeout`, and `Ack` for a `TX` (42_sequencer.md R90, R104). -/
def grant : BusEvent → BusReply → Bool
  | _, .timeout => false
  | .tx _, .answer ack _ => ack
  | .start, .answer _ _ => true
  | .restart, .answer _ _ => true
  | .stop, .answer _ _ => true
  | .rx _, .answer _ _ => true

/-- The answers let every event of the list succeed, one answer for each event. -/
def grants : List BusEvent → List BusReply → Bool
  | [], [] => true
  | e :: es, r :: rs => grant e r && grants es rs
  | [], _ :: _ => false
  | _ :: _, [] => false

/-- The bytes the answers give to the `RX` events of the list, in order. -/
def received : List BusEvent → List BusReply → List Byte
  | .rx _ :: es, .answer _ v :: rs => v :: received es rs
  | _ :: es, _ :: rs => received es rs
  | [], _ => []
  | _ :: _, [] => []

/-- The state after the events were emitted and answered, with the answers left. -/
def played (es : List BusEvent) (left : List (Option BusReply)) (s : State) : State :=
  { s with trace := s.trace ++ es, env := { s.env with bus := left } }

/-- The event an address phase opens with (42_sequencer.md R100, R101). -/
def openEvents : Phase → List BusEvent
  | .idle => [.start]
  | .started => []
  | .writing => [.restart]
  | .reading => []
  | .readDone => [.restart]

/-- The `RX` events of `n` bytes: acknowledged, but for the last (42_sequencer.md R104). -/
def rxEvents : Nat → List BusEvent
  | 0 => []
  | k + 1 => .rx (k != 0) :: rxEvents k

/-- The events of a `Write` of one or more bytes (42_sequencer.md R100, R102). -/
def writeEvents (phase : Phase) (a : Addr7) (d : List Byte) : List BusEvent :=
  (if phase = .writing then [] else openEvents phase ++ [.tx (addrByte a false)]) ++ d.map .tx

/-- The events of a `Read` of one or more bytes (42_sequencer.md R100, R103). -/
def readEvents (phase : Phase) (a : Addr7) (n : Nat) : List BusEvent :=
  openEvents phase ++ [.tx (addrByte a true)] ++ rxEvents n

/-- How many bytes a command reads: its length for a `Read`, none for the others (42_sequencer.md R110). -/
def readLength : Instr → Nat
  | .endCmd => 0
  | .escape _ => 0
  | .start => 0
  | .stop => 0
  | .addr _ => 0
  | .flags => 0
  | .read n => n.toNat
  | .write _ => 0
  | .escRead n => n.toNat
  | .escWrite _ => 0
  | .illegal _ => 0

/-! ### The transports -/

/-- The `Read` or `Write` command of a body, in the form the encoder emits (43_transport.md R116). -/
def bodyStream : Body → List Byte
  | .send d =>
    if d.length ≤ 255 then 0x07#8 :: BitVec.ofNat 8 d.length :: d
    else 0x01#8 :: 0x07#8 :: BitVec.ofNat 8 (d.length % 256) :: BitVec.ofNat 8 (d.length / 256) :: d
  | .receive n =>
    if n ≤ 255 then [0x06#8, BitVec.ofNat 8 n]
    else [0x01#8, 0x06#8, BitVec.ofNat 8 (n % 256), BitVec.ofNat 8 (n / 256)]

/-- The register byte's `Write`, if there is one (43_transport.md R116). -/
def regStream : Option Byte → List Byte
  | none => []
  | some r => [0x07#8, 0x01#8, r]

/-- The command stream of a logical operation (43_transport.md R116). -/
def opStream (a : Addr7) (reg : Option Byte) (body : Body) : List Byte :=
  [0x04#8, a.setWidth 8] ++ regStream reg ++ [0x02#8] ++ bodyStream body ++ [0x03#8, 0x00#8]

/-- What the template's `write(cmd)` and `restart` put on the bus: `Start` is `S` from `Idle` and `Sr` otherwise
(42_sequencer.md R97; 43_transport.md R115). -/
def pointerEvents (a : Addr7) : Option Byte → List BusEvent
  | none => [.start]
  | some r => [.start, .tx (addrByte a false), .tx r, .restart]

/-- The trace of a bit-banged send (43_transport.md R115, R117). A `WRITE 0` emits nothing (42_sequencer.md R106), so the
trace of a block of 0 bytes is the register-pointer phase, the template's `Sr` and `P` (log 25). -/
def bitBangedSendEvents (a : Addr7) (reg : Option Byte) (d : List Byte) : List BusEvent :=
  pointerEvents a reg ++ (if d.length = 0 then [] else .tx (addrByte a false) :: d.map .tx) ++ [.stop]

/-- The trace of a bit-banged receive (43_transport.md R115, R118); a `READ 0` emits nothing (42_sequencer.md R106;
log 25). -/
def bitBangedReceiveEvents (a : Addr7) (reg : Option Byte) (n : Nat) : List BusEvent :=
  pointerEvents a reg ++ (if n = 0 then [] else .tx (addrByte a true) :: rxEvents n) ++ [.stop]

/-- The register and the payload of a send operation (43_transport.md R111, R116). -/
def sendForm : HostOp → Option (Option Byte × List Byte)
  | .sendByte v => some (none, [v])
  | .sendReg r v => some (some r, [v])
  | .sendWord r w => some (some r, [BitVec.ofNat 8 (w.toNat % 256), BitVec.ofNat 8 (w.toNat / 256)])
  | .sendBlock r buf => some (some r, buf)
  | _ => none

/-- The register and the byte count of a receive operation (43_transport.md R111, R116). -/
def receiveForm : HostOp → Option (Option Byte × Nat)
  | .receiveByte => some (none, 1)
  | .receiveReg r => some (some r, 1)
  | .receiveWord r => some (some r, 2)
  | .receiveBlock r n => some (some r, n)
  | _ => none

/-- What a receive operation hands back for the bytes received: a word is `b0 | (b1 << 8)` (43_transport.md R118). -/
def receiveAnswer (op : HostOp) (data : List Byte) : HostResult :=
  match op with
  | .receiveBlock _ _ => .bytes data
  | .receiveWord _ => .word (BitVec.ofNat 16 ((data.getD 0 0#8).toNat + 256 * (data.getD 1 0#8).toNat))
  | _ => .byte (data.getD 0 0#8)

/-- The frame of a write primitive (43_transport.md R120). -/
def writeFrameEvents (a : Addr7) (bytes : List Byte) : List BusEvent :=
  [.start, .tx (addrByte a false)] ++ bytes.map .tx ++ [.stop]

/-- The frame of a read primitive (43_transport.md R120). -/
def readFrameEvents (a : Addr7) (reg : Option Byte) (n : Nat) : List BusEvent :=
  pointerEvents a reg ++ [.tx (addrByte a true)] ++ rxEvents n ++ [.stop]

/-- The frames of a block send, one for each chunk of at most 32 bytes, the first one at register `r`; as many rounds
as there are bytes are enough (43_transport.md R121). -/
def sendFrames (a : Addr7) : Nat → Byte → List Byte → List BusEvent
  | 0, _, _ => []
  | fuel + 1, r, buf =>
    if buf.length = 0 then []
    else writeFrameEvents a (r :: buf.take 32) ++ sendFrames a fuel (r + 32#8) (buf.drop 32)

/-- The frames of a block receive, one for each chunk of at most 32 bytes (43_transport.md R121). -/
def receiveFrames (a : Addr7) : Nat → Byte → Nat → List BusEvent
  | 0, _, _ => []
  | fuel + 1, r, n =>
    if n = 0 then []
    else readFrameEvents a (some r) (min 32 n) ++ receiveFrames a fuel (r + 32#8) (n - 32)

/-- The trace of a hardware send: one frame, or a block's frames (43_transport.md R120, R121). -/
def hardwareSendEvents (a : Addr7) : Option Byte → List Byte → List BusEvent
  | none, d => writeFrameEvents a d
  | some r, d => sendFrames a d.length r d

/-! ### The codec -/

/-- The operations that construct a transport or a buffer (40_byte_buffer.md R69; 70_reset_and_hazards.md R172). -/
def isConstruction : HostOp → Bool
  | .construct _ _ _ _ _ => true
  | .bufConstruct _ _ => true
  | _ => false

/-- The codec's operations (45_rtc_codec.md R142 to R152). -/
def isCodec : HostOp → Bool
  | .getClockState => true
  | .getDateTime => true
  | .setDateTime _ => true
  | .getTemperature => true
  | .setAlarm _ _ => true
  | .getAlarm _ => true
  | .setAlarmInterruptState _ _ => true
  | .getAlarmInterruptStatus => true
  | .getAlarmTriggerState => true
  | _ => false

/-- The intervals an alarm's bytes stand for, in rising rank: one for each field whose exclude bit (0x80) is clear; the
day field's own by its DYDT bit, 0x40 (10_state.md R27; 45_rtc_codec.md R149). -/
def clearFields (id : AlarmId) (sec min hrs day : Byte) : List AlarmInterval :=
  (((match id with | .first => [(sec, AlarmInterval.seconds)] | .second => []) ++
    [(min, .minutes), (hrs, .hours), (day, if day &&& 0x40#8 = 0x40#8 then .weekDay else .days)]).filter
      fun f => f.1 &&& 0x80#8 = 0#8).map Prod.snd

/-- The byte of a two-digit BCD field: the tens under `msb`, the ones under 0x0F (44_register_set.md R137). -/
def digitByte (v : Nat) (msb : Byte) : Byte :=
  ((BitVec.ofNat 8 (v / 10) <<< 4) &&& msb) ||| (BitVec.ofNat 8 (v % 10) &&& 0x0F#8)

/-- The byte of an hour: the digits, in 12-hour mode with bit 0x40 and, after noon, bit 0x20 (45_rtc_codec.md R141). -/
def hourByte (mode : HourMode) (pm : Bool) (h : Nat) : Byte :=
  match mode with
  | .h12 => 0x40#8 ||| (if pm then 0x20#8 else 0#8) ||| digitByte h 0x10#8
  | .h24 => digitByte h 0x30#8

/-- An hour the register layout carries: 0..23 in 24-hour mode, with no meridiem, and 0..12 in 12-hour mode
(45_rtc_codec.md R141). -/
def fitsHour (t : RtcTime) : Prop :=
  match t.mode with
  | .h24 => 0 ≤ t.hour ∧ t.hour ≤ 23 ∧ t.pm = false
  | .h12 => 0 ≤ t.hour ∧ t.hour ≤ 12

/-- A date and time every field of which its register carries, in a year of 1900..2099 (45_rtc_codec.md R144;
44_register_set.md R138). -/
def fitsDateTime (dt : RtcDateTime) : Prop :=
  fitsHour dt.toRtcTime ∧ 0 ≤ dt.second ∧ dt.second ≤ 59 ∧ 0 ≤ dt.minute ∧ dt.minute ≤ 59 ∧
  0 ≤ dt.weekday ∧ dt.weekday ≤ 7 ∧ 0 ≤ dt.day ∧ dt.day ≤ 31 ∧ 0 ≤ dt.month ∧ dt.month ≤ 12 ∧
  1900 ≤ dt.year ∧ dt.year ≤ 2099

end Sys2Proof.Machine
end

