-- ==== Sys2Proof/Certificates/Slice0/Obligations.lean ====
section
/-! DEFINITION. The statements about the model, for the provers. Each docstring names the rule of the spec it
formalises. -/

open Sys2Proof Sys2Proof.Machine

/-! ### The command stream (30_encoding.md) -/

/-- Decoding the encoding of any command that has one gives it back, with its length, whatever bytes follow
(R59, R60, R61, R65). -/
def Obligations.DecodeOfEncodeIsTheCommand : Prop :=
  ∀ (i : Instr) (tail : List Byte), i.wf = true → decode (encode i ++ tail) = .ok i i.length

/-- What the decoder accepts has an encoding, and the bytes it takes are that encoding: each stream has one reading
(R59, R65). -/
def Obligations.EncodeOfDecodeIsTheBytes : Prop :=
  ∀ (bytes : List Byte) (i : Instr) (n : Nat), decode bytes = .ok i n →
    i.wf = true ∧ n = i.length ∧ bytes.take n = encode i

/-- Words written out from the opcode map and the formats, one for each row of the opcode table (R58, R59, R61, R64);
and a payload that is cut short, reported missing after the two header bytes (R94, R102 with 40_byte_buffer.md R73,
vector SQ25; the count of bytes consumed is log 17). -/
def Obligations.SpecWordsDecodeToTheirCommands : Prop :=
  decode [0x00#8] = .ok .endCmd 1 ∧
  decode [0x02#8, 0x00#8] = .ok .start 1 ∧
  decode [0x03#8, 0x00#8] = .ok .stop 1 ∧
  decode [0x04#8, 0x68#8, 0x00#8] = .ok (.addr 0x68#8) 2 ∧
  decode [0x05#8, 0x00#8] = .ok .flags 1 ∧
  decode [0x06#8, 0x07#8, 0x00#8] = .ok (.read 0x07#8) 2 ∧
  decode [0x07#8, 0x02#8, 0xAA#8, 0x00#8, 0x03#8] = .ok (.write [0xAA#8, 0x00#8]) 4 ∧
  decode [0x01#8, 0x06#8, 0x2C#8, 0x01#8, 0x00#8] = .ok (.escRead 0x012C#16) 4 ∧
  decode [0x01#8, 0x07#8, 0x01#8, 0x00#8, 0x55#8, 0x00#8] = .ok (.escWrite [0x55#8]) 5 ∧
  decode [0x01#8, 0x04#8, 0x68#8, 0x00#8] = .ok (.escape 0x04#8) 2 ∧
  decode [0x08#8] = .ok (.illegal 0x08#8) 1 ∧
  decode [0x07#8, 0x05#8, 0x01#8, 0x02#8, 0x00#8] = .missing .payload 2

/-- An instruction of the opcode table placed by `withFetchWord` is fetched, decoded and run by the next step, with
the stream position moved past it; the placement is the model's (log 6). -/
def Obligations.FetchWordRunsTheDecodedCommand : Prop :=
  ∀ (s : State) (nbits w : Nat) (i : Instr), s.cmd.store.wf → decodeTableWord nbits w = some i →
    step (s.withFetchWord nbits w) = exec i (advance i.length (s.withFetchWord nbits w))

/-! ### The Byte Buffer (40_byte_buffer.md) -/

/-- `write(v)` and `write(bytes, n)` store all their bytes at the write cursor or, when they do not fit, nothing
(R70, R71); a negative count is outside its domain (60_exceptions.md R156). -/
def Obligations.BufferWriteIsAllOrNothing : Prop :=
  ∀ (b : BufferId) (s : State) (bytes : List Byte) (n : Nat), n ≤ bytes.length →
    hostExec (.bufWrite b bytes n) s =
      (if (getBuffer b s).cap - (getBuffer b s).wr < n then .next { s with result := some (.status .writeOverflow) }
       else .next { putBuffer b { getBuffer b s with
          store := Memory.writeList (getBuffer b s).store (getBuffer b s).wr (bytes.take n)
          wr := (getBuffer b s).wr + n } s with result := some (.status .ok) }) ∧
    (∀ v, hostExec (.bufWrite8 b v) s = hostExec (.bufWrite b [v] 1) s) ∧
    ∀ k : Int, k < 0 → hostExec (.bufWrite b bytes k) s = .refused .negativeCount

/-- `read8()` and `read(dest, n)` take the next unread bytes or, when the unread span is too short, nothing; the span
is `wr - rd` (R72, R73); a negative count is outside the domain (60_exceptions.md R156). -/
def Obligations.BufferReadTakesTheUnreadSpan : Prop :=
  ∀ (b : BufferId) (s : State) (n : Nat),
    hostExec (.bufRead b n) s =
      (if (getBuffer b s).wr - (getBuffer b s).rd < n then .next { s with result := some (.status .readUnderflow) }
       else .next { putBuffer b { getBuffer b s with rd := (getBuffer b s).rd + n } s with
          result := some (.bytes (Memory.readList (getBuffer b s).store (getBuffer b s).rd n)) }) ∧
    hostExec (.bufRead8 b) s =
      (if (getBuffer b s).wr - (getBuffer b s).rd < 1 then .next { s with result := some (.status .readUnderflow) }
       else .next { putBuffer b { getBuffer b s with rd := (getBuffer b s).rd + 1 } s with
          result := some (.byte (Memory.read (getBuffer b s).store (getBuffer b s).rd)) }) ∧
    ∀ k : Int, k < 0 → hostExec (.bufRead b k) s = .refused .negativeCount

/-- `reset()`, `clear()`, `setWriteLength(n)` and the accessors (R74, R75, R76, R77); a negative write length is outside
the domain (60_exceptions.md R156). -/
def Obligations.BufferCursorOperations : Prop :=
  ∀ (b : BufferId) (s : State),
    hostExec (.bufReset b) s =
      .next { putBuffer b { getBuffer b s with rd := 0, wr := 0 } s with result := some (.status .ok) } ∧
    (∃ t, hostExec (.bufClear b) s = .next t ∧ t.result = some (.status .ok) ∧
      (getBuffer b t).rd = 0 ∧ (getBuffer b t).wr = 0 ∧ (getBuffer b t).cap = (getBuffer b s).cap ∧
      ∀ i, Memory.read (getBuffer b t).store i = 0#8) ∧
    (∀ n : Nat,
      ((getBuffer b s).cap < n →
        hostExec (.bufSetWriteLength b n) s = .next { s with result := some (.status .writeOverflow) }) ∧
      (n ≤ (getBuffer b s).cap → n < (getBuffer b s).rd →
        hostExec (.bufSetWriteLength b n) s = .refused .setWriteLengthBelowRead) ∧
      (n ≤ (getBuffer b s).cap → (getBuffer b s).rd ≤ n →
        hostExec (.bufSetWriteLength b n) s =
          .next { putBuffer b { getBuffer b s with wr := n } s with result := some (.status .ok) })) ∧
    (∀ k : Int, k < 0 → hostExec (.bufSetWriteLength b k) s = .refused .negativeCount) ∧
    hostExec (.bufWriteLength b) s = .next { s with result := some (.int (getBuffer b s).wr) } ∧
    hostExec (.bufReadRemaining b) s =
      .next { s with result := some (.int ((getBuffer b s).wr - (getBuffer b s).rd : Nat)) } ∧
    hostExec (.bufWriteRemaining b) s =
      .next { s with result := some (.int ((getBuffer b s).cap - (getBuffer b s).wr : Nat)) } ∧
    hostExec (.bufEndOfRead b) s =
      .next { s with result := some (.bool (decide ((getBuffer b s).wr - (getBuffer b s).rd = 0))) } ∧
    hostExec (.bufEndOfWrite b) s =
      .next { s with result := some (.bool (decide ((getBuffer b s).cap - (getBuffer b s).wr = 0))) }

/-- Bytes written to a buffer whose unread span is empty are the bytes the next read of that length takes
(20_memory.md R52: a read returns the last value written there). -/
def Obligations.WrittenBytesAreReadBack : Prop :=
  ∀ (b : BufferId) (s : State) (bytes : List Byte), (getBuffer b s).Sound → (getBuffer b s).rd = (getBuffer b s).wr →
    bytes.length ≤ (getBuffer b s).cap - (getBuffer b s).wr →
    ∃ t u, hostExec (.bufWrite b bytes bytes.length) s = .next t ∧
      hostExec (.bufRead b bytes.length) t = .next u ∧ u.result = some (.bytes bytes)

/-! ### The command encoder (41_command_encoder.md) -/

/-- The encoder's operations append the bytes their rules give, all or nothing: `restart()` the byte of `start()`,
`address(a)` any byte unchecked, `send(n)` and `receive(n)` the short form up to 255 and the escaped little-endian form
from 256 to 65535; above 65535 they are refused (R79 to R86), and below 0 too, which is the model's (log 18). -/
def Obligations.EncoderAppendsItsBytes : Prop :=
  ∀ (s : State) (a : Byte) (n : Nat) (op : HostOp) (bytes : List Byte),
    (n ≤ 65535 →
      (op, bytes) ∈ [(HostOp.encStart, [0x02#8]), (.encRestart, [0x02#8]), (.encStop, [0x03#8]), (.encEnd, [0x00#8]),
        (.encStopAndEnd, [0x03#8, 0x00#8]), (.encAddress a, [0x04#8, a]),
        (.encSend n, if n ≤ 255 then [0x07#8, BitVec.ofNat 8 n]
          else [0x01#8, 0x07#8, BitVec.ofNat 8 (n % 256), BitVec.ofNat 8 (n / 256)]),
        (.encReceive n, if n ≤ 255 then [0x06#8, BitVec.ofNat 8 n]
          else [0x01#8, 0x06#8, BitVec.ofNat 8 (n % 256), BitVec.ofNat 8 (n / 256)])] →
      hostExec op s =
        if s.cmd.cap - s.cmd.wr < bytes.length then .next { s with result := some (.status .writeOverflow) }
        else .next { s with
          cmd := { s.cmd with
            store := Memory.writeList s.cmd.store s.cmd.wr bytes, wr := s.cmd.wr + bytes.length }
          result := some (.status .ok) }) ∧
    (65535 < n → op ∈ [HostOp.encSend n, .encReceive n] → hostExec op s = .refused .lengthTooLarge) ∧
    (∀ k : Int, k < 0 → op ∈ [HostOp.encSend k, .encReceive k] → hostExec op s = .refused .negativeCount)

/-! ### The sequencer (42_sequencer.md) -/

/-- `Execute()` issued under `Reference` begins an execution (R93); under `Oracle` it is the environment's draw: any
reason or `Completed`, any bytes that `RSP` holds, any trace (R109; the form of the draw is log 14), or it never comes and
the block is stuck (R11). -/
def Obligations.ExecuteBeginsOrIsDrawn : Prop :=
  ∀ s : State,
    (s.params.executor = .reference →
      hostExec .execute s = .next { s with
        cmd := { s.cmd with rd := 0 }, rsp := { s.rsp with rd := 0, wr := 0 }
        phase := .idle, addr := none, trace := [], run := .running }) ∧
    (∀ (d : ExecDraw) (rest : List (Option ExecDraw)), s.params.executor = .oracle → s.rsp.store.wf →
      s.env.executions = some d :: rest → d.bytes.length ≤ s.rsp.cap →
      ∃ t, hostExec .execute s = .next t ∧ t.trace = d.trace ∧ t.rsp.wr = d.bytes.length ∧ t.rsp.rd = 0 ∧
        Memory.readList t.rsp.store 0 d.bytes.length = d.bytes ∧ t.env.executions = rest ∧
        t.run = (match d.failure with
          | none => .completed d.bytes.length
          | some reason => .failed reason d.bytes.length)) ∧
    (∀ rest, s.params.executor = .oracle → s.env.executions = none :: rest →
      hostExec .execute s = .fault .environmentSilent)

/-- A step of a running execution runs the command at the stream position, after moving past its bytes; where the
bytes run out it fails with `ReadUnderflow`, the bytes before that fetch consumed, and closes an open transaction with
`P` (R94, R95, R19; log 17 for the position after the failure). -/
def Obligations.StepRunsTheCommandAtTheStreamPosition : Prop :=
  ∀ s : State, s.run = .running →
    (∀ (i : Instr) (n : Nat), decode s.cmd.unread = .ok i n →
      step s = exec i { s with cmd := { s.cmd with rd := s.cmd.rd + n } }) ∧
    (∀ (w : Missing) (n : Nat), decode s.cmd.unread = .missing w n →
      (s.phase = .idle → step s = .next { s with
        cmd := { s.cmd with rd := s.cmd.rd + n }, run := .failed .readUnderflow s.rsp.wr }) ∧
      (s.phase ≠ .idle → ∀ r rest, s.env.bus = some r :: rest → step s = .next { played [.stop] rest s with
        cmd := { s.cmd with rd := s.cmd.rd + n }, phase := .idle, run := .failed .readUnderflow s.rsp.wr }))

/-- `Fail(reason)`: after a `Timeout` or from `Idle` no event is emitted; otherwise `P` is, its answer ignored; the
position is `Idle` and the result `Failed(reason, RSP.wr)` (R95). -/
def Obligations.FailClosesAnOpenTransaction : Prop :=
  ∀ (reason : Reason) (s : State),
    (reason = .timeout ∨ s.phase = .idle →
      abort reason s = .next { s with phase := .idle, run := .failed reason s.rsp.wr }) ∧
    (reason ≠ .timeout → s.phase ≠ .idle → ∀ r rest, s.env.bus = some r :: rest →
      abort reason s = .next { played [.stop] rest s with phase := .idle, run := .failed reason s.rsp.wr })

/-- END: completes the execution with `Completed(RSP.wr)`, closing an open transaction with `P`; a `Timeout` on that
`P` fails (R96). -/
def Obligations.EndCompletesTheExecution : Prop :=
  ∀ s : State,
    (s.phase = .idle → exec .endCmd s = .next { s with run := .completed s.rsp.wr }) ∧
    (s.phase ≠ .idle → ∀ ack v rest, s.env.bus = some (.answer ack v) :: rest →
      exec .endCmd s = .next { played [.stop] rest s with phase := .idle, run := .completed s.rsp.wr }) ∧
    (s.phase ≠ .idle → ∀ rest, s.env.bus = some .timeout :: rest →
      exec .endCmd s = .next { played [.stop] rest s with phase := .idle, run := .failed .timeout s.rsp.wr })

/-- START: `S` when idle and `Sr` otherwise, and `phase <- Started`; a `Timeout` fails (R97). -/
def Obligations.StartSignalsStartOrRepeatedStart : Prop :=
  ∀ (s : State) (e : BusEvent), e = (if s.phase = .idle then BusEvent.start else .restart) →
    (∀ ack v rest, s.env.bus = some (.answer ack v) :: rest →
      exec .start s = .next { played [e] rest s with phase := .started }) ∧
    (∀ rest, s.env.bus = some .timeout :: rest →
      exec .start s = .next { played [e] rest s with phase := .idle, run := .failed .timeout s.rsp.wr })

/-- STOP: nothing when idle, otherwise `P` and `phase <- Idle`; a `Timeout` fails (R98). -/
def Obligations.StopReleasesTheBus : Prop :=
  ∀ s : State,
    (s.phase = .idle → exec .stop s = .next s) ∧
    (s.phase ≠ .idle → ∀ ack v rest, s.env.bus = some (.answer ack v) :: rest →
      exec .stop s = .next { played [.stop] rest s with phase := .idle }) ∧
    (s.phase ≠ .idle → ∀ rest, s.env.bus = some .timeout :: rest →
      exec .stop s = .next { played [.stop] rest s with phase := .idle, run := .failed .timeout s.rsp.wr })

/-- ADDR: records the 7-bit target and emits nothing; above 0x7F it fails with `IllegalAddress` (R99). -/
def Obligations.AddressSetsTheTarget : Prop :=
  ∀ s : State,
    (∀ a : Addr7, exec (.addr (a.setWidth 8)) s = .next { s with addr := some a }) ∧
    (∀ a : Byte, 0x7F < a.toNat → s.phase = .idle →
      exec (.addr a) s = .next { s with run := .failed .illegalAddress s.rsp.wr }) ∧
    (∀ a : Byte, 0x7F < a.toNat → s.phase ≠ .idle → ∀ r rest, s.env.bus = some r :: rest →
      exec (.addr a) s = .next { played [.stop] rest s with
        phase := .idle, run := .failed .illegalAddress s.rsp.wr })

/-- WRITE and ESC WRITE of one or more bytes, every event granted: the address phase the bus position calls for, then
the payload, and `phase <- Writing` (R100, R101, R102, R105). -/
def Obligations.WriteSendsItsPayload : Prop :=
  ∀ (s : State) (a : Addr7) (d : List Byte) (i : Instr) (replies : List BusReply) (rest : List (Option BusReply)),
    i = .write d ∨ i = .escWrite d → d ≠ [] → s.addr = some a →
    grants (writeEvents s.phase a d) replies = true → s.env.bus = replies.map some ++ rest →
    exec i s = .next { played (writeEvents s.phase a d) rest s with phase := .writing }

/-- READ and ESC READ of one or more bytes, every event granted and `RSP` large enough: the address phase, then the
bytes, stored in order at the write cursor of `RSP`, and `phase <- ReadDone` (R100, R103, R104, R105). -/
def Obligations.ReadStoresTheReceivedBytes : Prop :=
  ∀ (s : State) (a : Addr7) (n : Nat) (i : Instr) (replies : List BusReply) (rest : List (Option BusReply)),
    i = .read (BitVec.ofNat 8 n) ∧ n ≤ 255 ∨ i = .escRead (BitVec.ofNat 16 n) ∧ n ≤ 65535 → 0 < n →
    n ≤ s.rsp.cap - s.rsp.wr → s.addr = some a →
    grants (readEvents s.phase a n) replies = true → s.env.bus = replies.map some ++ rest →
    exec i s = .next { played (readEvents s.phase a n) rest s with
      phase := .readDone
      rsp := { s.rsp with
        store := Memory.writeList s.rsp.store s.rsp.wr (received (readEvents s.phase a n) replies)
        wr := s.rsp.wr + n } }

/-- A `Read 0` or `Write 0`, short or escaped, changes nothing (R106). -/
def Obligations.ZeroLengthCommandsDoNothing : Prop :=
  ∀ (s : State) (i : Instr), i ∈ [Instr.read 0#8, .escRead 0#16, .write [], .escWrite []] → exec i s = .next s

/-- A `Write` fails at the first event that is not granted: after a `Timeout` with no further event, after a `Nack`
(on the address byte or on any data byte) with a `P` (R95, R100, R102). -/
def Obligations.WriteFailsAtTheFirstRefusal : Prop :=
  ∀ (s : State) (a : Addr7) (d : List Byte) (i : Instr) (pre post : List BusEvent) (e : BusEvent)
    (replies : List BusReply) (rest : List (Option BusReply)),
    i = .write d ∨ i = .escWrite d → d ≠ [] → s.addr = some a →
    writeEvents s.phase a d = pre ++ e :: post → grants pre replies = true →
    (s.env.bus = replies.map some ++ some .timeout :: rest →
      exec i s = .next { played (pre ++ [e]) rest s with phase := .idle, run := .failed .timeout s.rsp.wr }) ∧
    (∀ b v p, e = .tx b → s.env.bus = replies.map some ++ some (.answer false v) :: some p :: rest →
      exec i s = .next { played (pre ++ [e, .stop]) rest s with phase := .idle, run := .failed .nack s.rsp.wr })

/-- A `Read` fails at the first event that is not granted, and the bytes received by then stay in `RSP` and are
counted (R95, R100, R103). -/
def Obligations.ReadFailsAtTheFirstRefusal : Prop :=
  ∀ (s : State) (a : Addr7) (n : Nat) (i : Instr) (pre post : List BusEvent) (e : BusEvent)
    (replies : List BusReply) (rest : List (Option BusReply)) (data : List Byte),
    i = .read (BitVec.ofNat 8 n) ∧ n ≤ 255 ∨ i = .escRead (BitVec.ofNat 16 n) ∧ n ≤ 65535 → 0 < n →
    n ≤ s.rsp.cap - s.rsp.wr → s.addr = some a →
    readEvents s.phase a n = pre ++ e :: post → grants pre replies = true → data = received pre replies →
    (s.env.bus = replies.map some ++ some .timeout :: rest →
      exec i s = .next { played (pre ++ [e]) rest s with
        phase := .idle, run := .failed .timeout (s.rsp.wr + data.length)
        rsp := { s.rsp with
          store := Memory.writeList s.rsp.store s.rsp.wr data, wr := s.rsp.wr + data.length } }) ∧
    (∀ b v p, e = .tx b → s.env.bus = replies.map some ++ some (.answer false v) :: some p :: rest →
      exec i s = .next { played (pre ++ [e, .stop]) rest s with phase := .idle, run := .failed .nack s.rsp.wr })

/-- What a transfer checks before any event of its own: a `Read` that does not fit in `RSP` fails with
`WriteOverflow`, and a transfer that needs an address phase without a target fails with `NoAddress`, in that order; a
transaction that is open is closed with `P` (R95, R100, R103; R158). -/
def Obligations.TransfersCheckBeforeAnyEvent : Prop :=
  ∀ (s : State) (i : Instr) (reason : Reason),
    (∃ n : Nat, 0 < n ∧ (i = .read (BitVec.ofNat 8 n) ∧ n ≤ 255 ∨ i = .escRead (BitVec.ofNat 16 n) ∧ n ≤ 65535) ∧
      (s.rsp.cap - s.rsp.wr < n ∧ reason = .writeOverflow ∨
        n ≤ s.rsp.cap - s.rsp.wr ∧ s.addr = none ∧ reason = .noAddress)) ∨
    (∃ d : List Byte, d ≠ [] ∧ (i = .write d ∨ i = .escWrite d) ∧
      s.phase ≠ .writing ∧ s.addr = none ∧ reason = .noAddress) →
    (s.phase = .idle → exec i s = .next { s with run := .failed reason s.rsp.wr }) ∧
    (s.phase ≠ .idle → ∀ r rest, s.env.bus = some r :: rest →
      exec i s = .next { played [.stop] rest s with phase := .idle, run := .failed reason s.rsp.wr })

/-- FLAGS fails with `Unsupported`, an opcode above 7 with `IllegalOpcode`, `Escape` before `Address` with
`IllegalAddress` and before another byte with `IllegalEscape`; a transaction that is open is closed with `P`
(R105, R107). -/
def Obligations.IllegalCommandsFail : Prop :=
  ∀ (s : State) (op : Byte) (i : Instr) (reason : Reason),
    (i, reason) ∈ [(Instr.flags, Reason.unsupported), (.illegal op, .illegalOpcode),
      (.escape op, if op = 0x04#8 then .illegalAddress else .illegalEscape)] →
    (s.phase = .idle → exec i s = .next { s with run := .failed reason s.rsp.wr }) ∧
    (s.phase ≠ .idle → ∀ r rest, s.env.bus = some r :: rest →
      exec i s = .next { played [.stop] rest s with phase := .idle, run := .failed reason s.rsp.wr })

/-- A command whose event the environment never answers is stuck, with no next state: START; with a transaction open,
the `P` of STOP, of END and of every `Fail` but that of a `Timeout` (so of FLAGS, an illegal opcode, ESCAPE before
another byte, ADDR above 0x7F); any event of a `Write` or `Read`, short or escaped; and the `P` after a `Nack` in one
(00_scope.md R11; R95, R108). -/
def Obligations.AnEventNeverAnsweredIsStuck : Prop :=
  ∀ (s : State) (rest : List (Option BusReply)),
    (s.env.bus = none :: rest → exec .start s = .fault .environmentSilent) ∧
    (s.env.bus = none :: rest → s.phase ≠ .idle → ∀ op : Byte,
      (∀ i, i ∈ [Instr.stop, .endCmd, .flags, .illegal op, .escape op] → exec i s = .fault .environmentSilent) ∧
      (0x7F < op.toNat → exec (.addr op) s = .fault .environmentSilent) ∧
      ∀ reason, reason ≠ .timeout → abort reason s = .fault .environmentSilent) ∧
    (∀ (i : Instr) (a : Addr7) (es pre post : List BusEvent) (e : BusEvent) (replies : List BusReply), s.addr = some a →
      (∃ d, d ≠ [] ∧ (i = .write d ∨ i = .escWrite d) ∧ es = writeEvents s.phase a d) ∨
      (∃ n, 0 < n ∧ (i = .read (BitVec.ofNat 8 n) ∧ n ≤ 255 ∨ i = .escRead (BitVec.ofNat 16 n) ∧ n ≤ 65535) ∧
        n ≤ s.rsp.cap - s.rsp.wr ∧ es = readEvents s.phase a n) →
      es = pre ++ e :: post → grants pre replies = true →
      (s.env.bus = replies.map some ++ none :: rest → exec i s = .fault .environmentSilent) ∧
      (∀ b v, e = .tx b → s.env.bus = replies.map some ++ some (.answer false v) :: none :: rest →
        exec i s = .fault .environmentSilent))

/-- Every command of the stream answers a next state, whatever its operands and the state, as long as no scripted answer
is one that never arrives: none is refused and none is stuck (R94 to R107; 60_exceptions.md R161). That an answer
still comes once the script is empty is the model's choice (log 4). -/
def Obligations.EveryCommandAnswersWhenTheEnvironmentDoes : Prop :=
  ∀ (i : Instr) (s : State), none ∉ s.env.bus → ∃ t, exec i s = .next t

/-- THE FRAME of all eleven commands: the transport, the whole of CMD, the register set, the parameters, the result
and the host's operations are unchanged; the trace is only appended to; only ADDR changes the target; in `RSP` the
capacity, the read cursor and every byte are unchanged but for the bytes a `Read` stores from the write cursor on, no
more than its length; for the other commands the write cursor is unchanged too (R94 to R107; 20_memory.md R55). -/
def Obligations.CommandsChangeOnlyTheirOwnState : Prop :=
  ∀ (i : Instr) (s t : State), s.rsp.store.wf → exec i s = .next t →
    t.transport = s.transport ∧ t.cmd = s.cmd ∧ t.regs = s.regs ∧ t.params = s.params ∧ t.result = s.result ∧
    t.hostOps = s.hostOps ∧ s.trace <+: t.trace ∧
    ((∀ a, i ≠ .addr a) → t.addr = s.addr) ∧
    t.rsp.cap = s.rsp.cap ∧ t.rsp.rd = s.rsp.rd ∧
    s.rsp.wr ≤ t.rsp.wr ∧ t.rsp.wr ≤ s.rsp.wr + readLength i ∧
    ∀ b, b < s.rsp.wr ∨ s.rsp.wr + readLength i ≤ b → Memory.read t.rsp.store b = Memory.read s.rsp.store b

/-- A command that does not fail the execution stores exactly as many bytes as it reads, so `Completed(k)` has `k` the
sum of the lengths of the `Read` commands executed (R110). -/
def Obligations.SuccessfulCommandsStoreWhatTheyRead : Prop :=
  ∀ (i : Instr) (s t : State), exec i s = .next t →
    (∃ reason k, t.run = .failed reason k) ∨
    (t.rsp.wr = s.rsp.wr + readLength i ∧ ∀ k, i = .endCmd → t.run = .completed k → k = s.rsp.wr)

/-- An execution ends, with `Completed` or `Failed`, after at most `CMD.wr + 1` fetches (R108; the bound is log 22). -/
def Obligations.EveryExecutionEnds : Prop :=
  ∀ s t : State, executeReference s = .next t →
    (∃ k, t.run = .completed k) ∨ (∃ reason k, t.run = .failed reason k)

/-- The atomic execution the transport uses and the step-by-step one the host starts with `Execute()` are the same:
as many steps of the machine, from the begun execution, reach the same end (R92 to R94; the two granularities are
log 7). -/
def Obligations.StepwiseAndAtomicExecutionAgree : Prop :=
  ∀ s t : State, executeReference s = .next t →
    ∃ k, k ≤ s.cmd.wr + 1 ∧ Host.Core.run Sys2Proof.core k (beginExecution s) = .next t

/-! ### The transport (43_transport.md) -/

/-- `Initialize()` asks the environment and opens on a yes; already open it answers true with no effect. `Close()`
closes and never fails. A send or receive on a closed transport returns `SendFail` or `ReceiveFail` and changes nothing
else (R112, R113, R114). An answer that never comes leaves the block stuck (00_scope.md R11). -/
def Obligations.TransportOpensCloses : Prop :=
  ∀ s : State,
    (s.transport.isOpen = true → hostExec .initialise s = .next { s with result := some (.bool true) }) ∧
    (∀ (ok : Bool) (rest : List (Option Bool)), s.transport.isOpen = false → s.env.openDevice = some ok :: rest →
      hostExec .initialise s = .next { s with
        transport := { s.transport with isOpen := ok }, env := { s.env with openDevice := rest }
        result := some (.bool ok) }) ∧
    (∀ rest, s.transport.isOpen = false → s.env.openDevice = none :: rest →
      hostExec .initialise s = .fault .environmentSilent) ∧
    hostExec .close s = .next { s with transport := { s.transport with isOpen := false }, result := some .done } ∧
    (∀ op : HostOp, s.transport.isOpen = false →
      ((sendForm op).isSome → hostExec op s = .next { s with result := some (.status .sendFail) }) ∧
      ((receiveForm op).isSome → hostExec op s = .next { s with result := some (.status .receiveFail) }))

/-- `Build` leaves exactly the stream of the table in `CMD`, unread from its start, when it fits, and fails with
`WriteOverflow` when it does not; nothing but `CMD` changes (R115, R116). -/
def Obligations.BuildProducesTheTableStream : Prop :=
  ∀ (s : State) (reg : Option Byte) (body : Body) (stream : List Byte), bodyLength body ≤ 65535 →
    stream = opStream s.transport.addr7 reg body →
    (stream.length ≤ s.cmd.cap →
      ∃ b, build reg body s = .done () { s with cmd := b } ∧ b.rd = 0 ∧ b.cap = s.cmd.cap ∧ b.unread = stream) ∧
    (s.cmd.cap < stream.length → ∃ b, build reg body s = .failed .writeOverflow { s with cmd := b })

/-- A bit-banged send, every event granted: its trace is the register-pointer phase, a repeated START and the data
phase, and it returns `Ok` (R115, R116, R117). THE MODEL'S CHOICE (log 25, DEDUCED): with an empty payload the trace ends
in the repeated START and `P`, as 42_sequencer.md R97 and R106 run the stream of R116; R117's own remark on that case writes
the trace without the `Sr`. Under either executor, a send whose execution completes returns `Ok` (R117). -/
def Obligations.BitBangedSendEmitsItsTrace : Prop :=
  ∀ (s : State) (op : HostOp) (reg : Option Byte) (d : List Byte),
    sendForm op = some (reg, d) → s.transport.isOpen = true → s.transport.kind = .bitBanged →
    (∀ (replies : List BusReply) (rest : List (Option BusReply)) (es : List BusEvent),
      d.length ≤ 65535 → s.params.executor = .reference →
      (opStream s.transport.addr7 reg (.send d)).length ≤ s.cmd.cap →
      es = bitBangedSendEvents s.transport.addr7 reg d → grants es replies = true →
      s.env.bus = replies.map some ++ rest →
      ∃ t, hostExec op s = .next t ∧ t.result = some (.status .ok) ∧ t.trace = es ∧
        t.env = { s.env with bus := rest } ∧ t.run = .completed 0 ∧ t.phase = .idle ∧ t.regs = s.regs ∧
        t.transport = s.transport) ∧
    (∀ (t u : State) (k : Nat), build reg (.send d) s = .done () t → execute t = .next u →
      u.run = .completed k → hostExec op s = .next { u with result := some (.status .ok) })

/-- A bit-banged receive, every event granted: its trace, and the very bytes the device answered (R115, R116, R118).
THE MODEL'S CHOICE (log 25, DEDUCED): with no byte asked the trace ends in the repeated START and `P`, as 42_sequencer.md R97
and R106 run the stream of R116; R118's own remark on that case has the register-pointer phase only. Under either executor,
a receive whose execution completes with `n` bytes or more hands back the first `n` of `RSP` (R118; 92_eei_decisions.md
D26). -/
def Obligations.BitBangedReceiveReturnsTheBytes : Prop :=
  ∀ (s : State) (op : HostOp) (reg : Option Byte) (n : Nat),
    receiveForm op = some (reg, n) → s.transport.isOpen = true → s.transport.kind = .bitBanged →
    (∀ (replies : List BusReply) (rest : List (Option BusReply)) (es : List BusEvent),
      n ≤ 65535 → n ≤ s.rsp.cap → s.rsp.store.wf → s.params.executor = .reference →
      (opStream s.transport.addr7 reg (.receive n)).length ≤ s.cmd.cap →
      es = bitBangedReceiveEvents s.transport.addr7 reg n → grants es replies = true →
      s.env.bus = replies.map some ++ rest →
      ∃ t, hostExec op s = .next t ∧ t.result = some (receiveAnswer op (received es replies)) ∧ t.trace = es ∧
        t.env = { s.env with bus := rest } ∧ t.run = .completed n ∧ t.phase = .idle ∧ t.regs = s.regs) ∧
    (∀ (t u : State) (k : Nat), build reg (.receive n) s = .done () t → execute t = .next u →
      u.run = .completed k → n ≤ k → k ≤ u.rsp.cap →
      hostExec op s = .next { u with
        rsp := { u.rsp with rd := n, wr := k }
        result := some (receiveAnswer op (Memory.readList u.rsp.store 0 n)) })

/-- What a bit-banged operation returns when it does not succeed: a failed `Build` its own status, a failed execution
`SendFail` or `ReceiveFail` by direction, and a count below the one asked `ReceivedLessThanExpected` (R117, R118). An
execution that is stuck leaves the operation stuck (00_scope.md R11). -/
def Obligations.BitBangedFailuresReturnTheirStatus : Prop :=
  ∀ (s t u : State) (op : HostOp) (reg : Option Byte), s.transport.isOpen = true → s.transport.kind = .bitBanged →
    (∀ d st, sendForm op = some (reg, d) → build reg (.send d) s = .failed st t →
      hostExec op s = .next { t with result := some (.status st) }) ∧
    (∀ n st, receiveForm op = some (reg, n) → build reg (.receive n) s = .failed st t →
      hostExec op s = .next { t with result := some (.status st) }) ∧
    (∀ d reason k, sendForm op = some (reg, d) → build reg (.send d) s = .done () t →
      execute t = .next u → u.run = .failed reason k → hostExec op s = .next { u with result := some (.status .sendFail) }) ∧
    (∀ n reason k, receiveForm op = some (reg, n) → build reg (.receive n) s = .done () t →
      execute t = .next u → u.run = .failed reason k → hostExec op s = .next { u with result := some (.status .receiveFail) }) ∧
    (∀ n k, receiveForm op = some (reg, n) → build reg (.receive n) s = .done () t →
      execute t = .next u → u.run = .completed k → k < n → k ≤ u.rsp.cap →
      hostExec op s = .next { u with
        rsp := { u.rsp with wr := k }, result := some (.status .receivedLessThanExpected) }) ∧
    (∀ body f, (∃ d, sendForm op = some (reg, d) ∧ body = .send d) ∨
        (∃ n, receiveForm op = some (reg, n) ∧ body = .receive n) →
      build reg body s = .done () t → execute t = .fault f → hostExec op s = .fault f)

/-- A hardware send, every event granted: one frame, or one for each chunk of at most 32 bytes at
`(r + off) mod 256`, appended to the trace, and `Ok`; nothing else changes (R119, R120, R121). -/
def Obligations.HardwareSendEmitsItsFrames : Prop :=
  ∀ (s : State) (op : HostOp) (reg : Option Byte) (d : List Byte) (replies : List BusReply)
    (rest : List (Option BusReply)) (es : List BusEvent),
    sendForm op = some (reg, d) → s.transport.isOpen = true → s.transport.kind = .hardware →
    es = hardwareSendEvents s.transport.addr7 reg d → grants es replies = true → s.env.bus = replies.map some ++ rest →
    hostExec op s = .next { played es rest s with result := some (.status .ok) }

/-- A hardware receive that is one primitive, every event granted: its frame appended to the trace, and the bytes
(R119, R120, R122). -/
def Obligations.HardwareReceiveEmitsItsFrame : Prop :=
  ∀ (s : State) (op : HostOp) (reg : Option Byte) (n : Nat) (replies : List BusReply) (rest : List (Option BusReply))
    (es : List BusEvent),
    receiveForm op = some (reg, n) → (∀ r m, op ≠ .receiveBlock r m) → s.transport.isOpen = true →
    s.transport.kind = .hardware → es = readFrameEvents s.transport.addr7 reg n → grants es replies = true →
    s.env.bus = replies.map some ++ rest →
    hostExec op s = .next { played es rest s with result := some (receiveAnswer op (received es replies)) }

/-- A hardware block receive, every event granted: with no chunk short, the frames of its chunks of at most 32 bytes and
the bytes, in order; a chunk, the first or a later one, whose primitive returns fewer bytes than asked is
`ReceivedLessThanExpected` after its whole frame, with no further chunk (R121, R122; the count draw is log 15). A count
that never comes leaves the block stuck (00_scope.md R11). -/
def Obligations.HardwareBlockReceiveJoinsItsChunks : Prop :=
  ∀ (s : State) (r : Byte) (n : Nat) (replies : List BusReply) (rest : List (Option BusReply)) (es : List BusEvent)
    (counts : List Nat) (crest : List (Option Nat)),
    s.transport.isOpen = true → s.transport.kind = .hardware → grants es replies = true →
    s.env.bus = replies.map some ++ rest → s.env.blockCounts = counts.map some ++ crest →
    (es = receiveFrames s.transport.addr7 n r n → counts.length = (n + 31) / 32 →
      (∀ k, k < counts.length → min 32 (n - 32 * k) ≤ counts.getD k 0) →
      hostExec (.receiveBlock r n) s = .next { s with
        trace := s.trace ++ es, env := { s.env with bus := rest, blockCounts := crest }
        result := some (.bytes (received es replies)) }) ∧
    (∀ (full : List Nat) (c : Nat), counts = full ++ [c] → (∀ x ∈ full, 32 ≤ x) → 32 * full.length < n →
      c < min 32 (n - 32 * full.length) → es = receiveFrames s.transport.addr7 (full.length + 1) r n →
      hostExec (.receiveBlock r n) s = .next { s with
        trace := s.trace ++ es, env := { s.env with bus := rest, blockCounts := crest }
        result := some (.status .receivedLessThanExpected) }) ∧
    (∀ left, crest = none :: left → (∀ x ∈ counts, 32 ≤ x) → 32 * counts.length < n →
      es = receiveFrames s.transport.addr7 (counts.length + 1) r n →
      hostExec (.receiveBlock r n) s = .fault .environmentSilent)

/-- A hardware frame that meets a `Nack` ends with `P`, one that meets a `Timeout` ends with no further event; the send
returns `SendFail` and the receive `ReceiveFail`. In a block the refusal may be in any chunk: the frames of the earlier
chunks stand, and no later chunk is tried (R120, R121, R122; the counts of the earlier chunks are log 15). An event that is
never answered, the `P` after a `Nack` included, leaves the block stuck (00_scope.md R11). -/
def Obligations.HardwareTransfersFailAtTheFirstRefusal : Prop :=
  ∀ (s : State) (op : HostOp) (reg : Option Byte) (es pre post : List BusEvent) (e : BusEvent)
    (replies : List BusReply) (rest : List (Option BusReply)) (st : Status) (counts : List Nat)
    (crest : List (Option Nat)),
    s.transport.isOpen = true → s.transport.kind = .hardware →
    (∃ d, sendForm op = some (reg, d) ∧ st = .sendFail ∧ es = hardwareSendEvents s.transport.addr7 reg d ∧ counts = []) ∨
    (∃ n, receiveForm op = some (reg, n) ∧ (∀ r m, op ≠ .receiveBlock r m) ∧ st = .receiveFail ∧
      es = readFrameEvents s.transport.addr7 reg n ∧ counts = []) ∨
    (∃ r n, op = .receiveBlock r n ∧ st = .receiveFail ∧ es = receiveFrames s.transport.addr7 n r n ∧
      counts.length = pre.count .stop) →
    es = pre ++ e :: post → grants pre replies = true → (∀ c ∈ counts, 32 ≤ c) →
    s.env.blockCounts = counts.map some ++ crest →
    (s.env.bus = replies.map some ++ some .timeout :: rest →
      hostExec op s = .next { s with
        trace := s.trace ++ (pre ++ [e]), env := { s.env with bus := rest, blockCounts := crest }
        result := some (.status st) }) ∧
    (∀ b w p, e = .tx b → s.env.bus = replies.map some ++ some (.answer false w) :: some p :: rest →
      hostExec op s = .next { s with
        trace := s.trace ++ (pre ++ [e, .stop]), env := { s.env with bus := rest, blockCounts := crest }
        result := some (.status st) }) ∧
    (s.env.bus = replies.map some ++ none :: rest → hostExec op s = .fault .environmentSilent) ∧
    (∀ b w, e = .tx b → s.env.bus = replies.map some ++ some (.answer false w) :: none :: rest →
      hostExec op s = .fault .environmentSilent)

/-! ### The register set (44_register_set.md) -/

/-- Register-set transfers outside the set fail with `ReceiveFail` or `SendFail` and make no transport call
(R125 to R131). -/
def Obligations.RegisterTransfersAreBoundsChecked : Prop :=
  ∀ (s : State) (id start count startId endId : Int),
    (id < 0 ∨ 19 ≤ id →
      hostExec (.regRead id) s = .next { s with result := some (.status .receiveFail) } ∧
      hostExec (.regWrite id) s = .next { s with result := some (.status .sendFail) }) ∧
    (start < 0 ∨ count < 0 ∨ 19 < start + count →
      hostExec (.regReadBlock start count) s = .next { s with result := some (.status .receiveFail) } ∧
      hostExec (.regWriteBlock start count) s = .next { s with result := some (.status .sendFail) }) ∧
    (endId < startId →
      hostExec (.regReadRange startId endId) s = .next { s with result := some (.status .receiveFail) } ∧
      hostExec (.regWriteRange startId endId) s = .next { s with result := some (.status .sendFail) }) ∧
    (0 ≤ start → start ≤ 19 →
      hostExec (.regReadBlock start 0) s = .next { s with result := some (.status .ok) } ∧
      hostExec (.regWriteBlock start 0) s = .next { s with result := some (.status .ok) }) ∧
    (startId ≤ endId →
      hostExec (.regReadRange startId endId) s = hostExec (.regReadBlock startId (endId - startId + 1)) s ∧
      hostExec (.regWriteRange startId endId) s = hostExec (.regWriteBlock startId (endId - startId + 1)) s)

/-- `read(T, id)` writes the slot with what the transport returns and no other slot, and leaves the set as it was on a
failure, whose status it returns (R126). -/
def Obligations.SingleReadWritesOneSlot : Prop :=
  ∀ (s : State) (id : Nat), id < 19 →
    (∀ v t, receiveReg (BitVec.ofNat 8 id) s = .done v t →
      ∃ u, hostExec (.regRead id) s = .next u ∧ u.result = some (.status .ok) ∧ getReg id u = v ∧
        (∀ j, j ≠ id → getReg j u = getReg j s) ∧ u.trace = t.trace) ∧
    (∀ st t, receiveReg (BitVec.ofNat 8 id) s = .failed st t →
      ∃ u, hostExec (.regRead id) s = .next u ∧ u.result = some (.status st) ∧ u.regs = s.regs ∧ u.trace = t.trace)

/-- `read(T, start, count)` writes the slots of the range in order with what the transport returns, and on a failure
returns its status and leaves every slot outside the range as it was (R127; the slots inside are log 10). -/
def Obligations.BlockReadWritesItsRange : Prop :=
  ∀ (s : State) (start count : Nat), 0 < count → start + count ≤ 19 →
    (∀ data t, data.length = count → receiveBlock (BitVec.ofNat 8 start) count s = .done data t →
      ∃ u, hostExec (.regReadBlock start count) s = .next u ∧ u.result = some (.status .ok) ∧
        (∀ k, k < count → getReg (start + k) u = data.getD k 0#8) ∧
        (∀ j, j < start ∨ start + count ≤ j → getReg j u = getReg j s) ∧ u.trace = t.trace) ∧
    (∀ st t, receiveBlock (BitVec.ofNat 8 start) count s = .failed st t →
      ∃ u, hostExec (.regReadBlock start count) s = .next u ∧ u.result = some (.status st) ∧
        (∀ j, j < start ∨ start + count ≤ j → getReg j u = getReg j s) ∧
        (s.transport.kind = .bitBanged → u.regs = s.regs) ∧ u.trace = t.trace)

/-- `write(T, id)` and `write(T, start, count)` send the slots to their own device offsets and change no slot
(R129, R130). -/
def Obligations.RegisterWritesSendTheSlots : Prop :=
  ∀ (s : State),
    (∀ id : Nat, id < 19 → hostExec (.regWrite id) s = hostExec (.sendReg (BitVec.ofNat 8 id) (getReg id s)) s) ∧
    (∀ start count : Nat, 0 < count → start + count ≤ 19 →
      hostExec (.regWriteBlock start count) s =
        hostExec (.sendBlock (BitVec.ofNat 8 start) ((List.range count).map fun k => getReg (start + k) s)) s) ∧
    (∀ op t, (sendForm op).isSome → hostExec op s = .next t → t.regs = s.regs)

/-- The local helpers: `get`, `set`, `setBit`, `removeBit`, `isSet`, `isClear` on a valid id, `Clear()`, and the
refusal outside 0..18 (R125, R132, R133, R134, R135). -/
def Obligations.LocalHelpersActOnOneSlot : Prop :=
  ∀ (s : State) (v m : Byte),
    (∀ id : Nat, id < 19 →
      hostExec (.regGet id) s = .next { s with result := some (.byte (getReg id s)) } ∧
      hostExec (.regIsSet id m) s = .next { s with result := some (.bool (decide (getReg id s &&& m = m))) } ∧
      hostExec (.regIsClear id m) s = .next { s with result := some (.bool (decide (getReg id s &&& m = 0#8))) } ∧
      ∀ op w, (op, w) ∈ [(HostOp.regSet id v, v), (.regSetBit id m, getReg id s ||| m),
          (.regRemoveBit id m, getReg id s &&& ~~~m)] →
        ∃ t, hostExec op s = .next t ∧ getReg id t = w ∧ (∀ j, j ≠ id → getReg j t = getReg j s) ∧
          t = { s with regs := t.regs, result := some .done }) ∧
    (∃ t, hostExec .regClear s = .next t ∧ (∀ j, getReg j t = 0#8) ∧
      t = { s with regs := t.regs, result := some .done }) ∧
    (∀ (id : Int) (op : HostOp), id < 0 ∨ 19 ≤ id →
      op ∈ [HostOp.regGet id, .regSet id v, .regSetBit id m, .regRemoveBit id m, .regIsSet id m, .regIsClear id m,
        .regFromBcd id v m, .regToBcd id 0 v m] → hostExec op s = .refused .registerIdOutOfRange)

/-- `fromBcd` of a slot, and `toBcd` into one: the digits under the two masks, and every bit outside them as it was
(R136, R137). -/
def Obligations.BcdHelpersUseTheirMasks : Prop :=
  ∀ (s : State) (id : Nat) (v : Nat) (msb lsb : Byte), id < 19 →
    hostExec (.regFromBcd id msb lsb) s = .next { s with
      result := some (.int ((getReg id s &&& lsb).toNat + (getReg id s &&& msb).toNat / 16 * 10 : Nat)) } ∧
    (v ≤ 255 → ∃ t enc, hostExec (.regToBcd id v msb lsb) s = .next t ∧
      enc = ((BitVec.ofNat 8 (v / 10) <<< 4) &&& msb) ||| (BitVec.ofNat 8 (v % 10) &&& lsb) ∧
      (s.params.bcdMerge = .replace → getReg id t = (getReg id s &&& ~~~(msb ||| lsb)) ||| enc) ∧
      (s.params.bcdMerge = .or → getReg id t = getReg id s ||| enc) ∧
      (∀ j, j ≠ id → getReg j t = getReg j s) ∧ t = { s with regs := t.regs, result := some .done })

/-- The round trip of the BCD codec: for each tens mask, the values it carries come back, whatever the register held
under `Replace`, and from clear digit bits under `Or` (R138). -/
def Obligations.BcdRoundTrip : Prop :=
  ∀ (s : State) (id v limit : Nat) (msb : Byte), id < 19 →
    (msb, limit) ∈ [(0xF0#8, 99), (0x70#8, 79), (0x30#8, 39), (0x10#8, 19)] → v ≤ limit →
    (s.params.bcdMerge = .replace ∨ getReg id s &&& (msb ||| 0x0F#8) = 0#8) →
    ∃ t, hostExec (.regToBcd id v msb 0x0F#8) s = .next t ∧
      hostExec (.regFromBcd id msb 0x0F#8) t = .next { t with result := some (.int v) }

/-! ### The RTC field codec (45_rtc_codec.md) -/

/-- Every codec operation runs on a register set of its own: the host's is as it was (R139; log 12). -/
def Obligations.CodecOperationsLeaveTheHostsRegisters : Prop :=
  ∀ (s t : State) (op : HostOp), isCodec op = true → hostExec op s = .next t → t.regs = s.regs

/-- `GetTemperature()`: four times the signed TempMsb plus bits 7:6 of TempLsb; a failed read returns its status
(R145). -/
def Obligations.TemperatureIsDecoded : Prop :=
  ∀ s : State,
    (∀ m l t, receiveBlock 0x11#8 2 (clearRegs s) = .done [m, l] t →
      hostExec .getTemperature s = .next { t with
        regs := s.regs
        result := some (.int (4 * (if m.toNat < 128 then (m.toNat : Int) else m.toNat - 256) + (l.toNat / 64 : Nat))) }) ∧
    (∀ st t, receiveBlock 0x11#8 2 (clearRegs s) = .failed st t →
      ∃ u, hostExec .getTemperature s = .next u ∧ u.result = some (.status st) ∧ u.trace = t.trace)

/-- `GetClockState()`: `TimeInvalid` when OSF is set, else `Running`; `Unknown` when the read fails (R142). -/
def Obligations.ClockStateIsDecoded : Prop :=
  ∀ s : State,
    (∀ c st t, receiveBlock 0x0E#8 2 (clearRegs s) = .done [c, st] t →
      hostExec .getClockState s = .next { t with
        regs := s.regs, result := some (.clockState (if 128 ≤ st.toNat then .timeInvalid else .running)) }) ∧
    (∀ st t, receiveBlock 0x0E#8 2 (clearRegs s) = .failed st t →
      ∃ u, hostExec .getClockState s = .next u ∧ u.result = some (.clockState .unknown) ∧ u.trace = t.trace)

/-- `GetDateTime()` decodes the seven registers it read: BCD fields, the hour by its mode bit, the year by the century
bit; a failed read returns its status and no value (R140, R141, R143). -/
def Obligations.DateTimeIsDecoded : Prop :=
  ∀ s : State,
    (∀ sec min hr wd d mo y t, receiveBlock 0x00#8 7 (clearRegs s) = .done [sec, min, hr, wd, d, mo, y] t →
      ∃ u dt, hostExec .getDateTime s = .next u ∧ u.result = some (.dateTime dt) ∧
        dt.second = bcdValue sec 0x70#8 0x0F#8 ∧ dt.minute = bcdValue min 0x70#8 0x0F#8 ∧
        (hr &&& 0x40#8 = 0x40#8 → dt.hour = bcdValue hr 0x10#8 0x0F#8 ∧ dt.mode = .h12 ∧
          dt.pm = decide (hr &&& 0x20#8 = 0x20#8)) ∧
        (hr &&& 0x40#8 ≠ 0x40#8 → dt.hour = bcdValue hr 0x30#8 0x0F#8 ∧ dt.mode = .h24 ∧ dt.pm = false) ∧
        dt.weekday = (wd.toNat % 8 : Nat) ∧ dt.day = bcdValue d 0x30#8 0x0F#8 ∧
        dt.month = bcdValue mo 0x10#8 0x0F#8 ∧
        dt.year = (if 128 ≤ mo.toNat then 2000 else 1900) + bcdValue y 0xF0#8 0x0F#8 ∧
        u.regs = s.regs ∧ u.trace = t.trace) ∧
    (∀ st t, receiveBlock 0x00#8 7 (clearRegs s) = .failed st t →
      ∃ u, hostExec .getDateTime s = .next u ∧ u.result = some (.status st) ∧ u.trace = t.trace)

/-- The date and time codec inverts itself: every date and time of 1900..2099 that its registers carry comes back
(R141, R143, R144). -/
def Obligations.DateTimeRoundTrip : Prop :=
  ∀ (s : State) (dt : RtcDateTime), fitsDateTime dt → decodeDateTime (encodeDateTime dt (clearRegs s)) = dt

/-- `SetDateTime`, step by step: a write of the time that fails, and a read of Control and Status that fails, return
their status with no further transfer; when both succeed and neither EOSC nor OSF is set, no third transfer is made;
when either is set, Control and Status are written back with only those bits removed. The seven bytes written are the
ones R144 gives, each field's digits under its masks (R140, R144; the draw counter after a failed hardware block read is
log 10). -/
def Obligations.SetDateTimeClearsTheOscillatorBits : Prop :=
  ∀ (s t : State) (dt : RtcDateTime),
    (∀ sec min hr wd d mo y : Nat, sec ≤ 255 → min ≤ 255 → hr ≤ 255 → wd ≤ 255 → d ≤ 255 → mo ≤ 255 →
      dt = { second := sec, minute := min, hour := hr, mode := dt.mode, pm := dt.pm
             weekday := wd, day := d, month := mo, year := y } →
      (List.range 7).map (fun i => getReg i (encodeDateTime dt (clearRegs s))) =
        [digitByte sec 0x70#8, digitByte min 0x70#8, hourByte dt.mode dt.pm hr, BitVec.ofNat 8 wd &&& 0x07#8,
         digitByte d 0x30#8, digitByte mo 0x10#8 ||| (if 2000 ≤ y then 0x80#8 else 0#8),
         digitByte (y % 100) 0xF0#8]) ∧
    (∀ e, writeBlock 0 7 (encodeDateTime dt (clearRegs s)) = .failed e t →
      hostExec (.setDateTime dt) s = .next { t with regs := s.regs, result := some (.status e) }) ∧
    (writeBlock 0 7 (encodeDateTime dt (clearRegs s)) = .done () t →
      (∀ e u, receiveBlock 0x0E#8 2 t = .failed e u → ∃ draws,
        hostExec (.setDateTime dt) s = .next { u with
          regs := s.regs, env := { u.env with draws := draws }, result := some (.status e) }) ∧
      (∀ c st u, receiveBlock 0x0E#8 2 t = .done [c, st] u →
        (c.toNat < 128 → st.toNat < 128 →
          hostExec (.setDateTime dt) s = .next { u with regs := s.regs, result := some (.status .ok) }) ∧
        (128 ≤ c.toNat ∨ 128 ≤ st.toNat → ∃ v, getReg 0x0E v = c &&& 0x7F#8 ∧ getReg 0x0F v = st &&& 0x7F#8 ∧
          v = { u with regs := v.regs } ∧
          (∀ w, sendBlock 0x0E#8 [c &&& 0x7F#8, st &&& 0x7F#8] v = .done () w →
            hostExec (.setDateTime dt) s = .next { w with regs := s.regs, result := some (.status .ok) }) ∧
          (∀ e w, sendBlock 0x0E#8 [c &&& 0x7F#8, st &&& 0x7F#8] v = .failed e w →
            hostExec (.setDateTime dt) s = .next { w with regs := s.regs, result := some (.status e) }))))

/-- The exclusion table under both schemes, as (sec, min, hrs, day), and the exclude bits that `SetAlarm` writes: bit
0x80 of every field of the alarm, set exactly where the table excludes it (R147, R148; 10_state.md R27). -/
def Obligations.ExclusionTable : Prop :=
  (∀ (scheme : AlarmScheme) (iv : AlarmInterval),
    [1, 2, 3, 4].map (fun f => excluded scheme f iv) =
      match scheme, iv with
      | _, .everySecond => [true, true, true, true]
      | _, .seconds => [false, true, true, true]
      | .cumulative, .minutes => [false, false, true, true]
      | .oneHot, .minutes => [true, false, true, true]
      | .cumulative, .hours => [false, false, false, true]
      | .oneHot, .hours => [true, true, false, true]
      | .cumulative, .weekDay => [false, false, false, false]
      | .oneHot, .weekDay => [true, true, true, false]
      | .cumulative, .days => [false, false, false, false]
      | .oneHot, .days => [true, true, true, false]) ∧
  ∀ (s : State) (id : AlarmId) (a : RtcAlarm) (reg rank : Nat),
    (reg, rank) ∈ (match id with
      | .first => [(0x07, 1), (0x08, 2), (0x09, 3), (0x0A, 4)]
      | .second => [(0x0B, 2), (0x0C, 3), (0x0D, 4)]) →
    getReg reg (encodeAlarm id a (clearRegs s)) &&& 0x80#8 =
      if excluded s.params.alarmScheme rank a.interval then 0x80#8 else 0#8

/-- The alarm codec inverts itself under either scheme. For the first alarm every interval comes back, whatever the
other fields; for the second every one but `Seconds`, which comes back as `EverySecond`. The fields the registers carry
come back too: seconds for the first alarm only, and the day of week or the day of month by the interval. The bytes
written are the ones R148 gives: each field's digits under its masks, the mode bits of the hour, DYDT before a day of
week, and the exclude bits of the table (R148, R149). -/
def Obligations.AlarmRoundTrip : Prop :=
  ∀ (s : State) (a : RtcAlarm) (id : AlarmId) (d : RtcAlarm), d = decodeAlarm id (encodeAlarm id a (clearRegs s)) →
    d.interval = (if id = .second ∧ a.interval = .seconds then .everySecond else a.interval) ∧
    (fitsHour a.toRtcTime → 0 ≤ a.second → a.second ≤ 59 → 0 ≤ a.minute → a.minute ≤ 59 → 0 ≤ a.day → a.day ≤ 31 →
      0 ≤ a.weekday → a.weekday ≤ 7 →
      d.second = (if id = .first then a.second else 0) ∧ d.minute = a.minute ∧
      d.hour = a.hour ∧ d.mode = a.mode ∧ d.pm = a.pm ∧
      d.weekday = (if a.interval = .weekDay then a.weekday else 0) ∧
      d.day = (if a.interval = .weekDay then 0 else a.day)) ∧
    (∀ (sec min hr wd day : Nat) (x : Nat → Byte), sec ≤ 255 → min ≤ 255 → hr ≤ 255 → wd ≤ 255 → day ≤ 255 →
      a.second = sec → a.minute = min → a.hour = hr → a.weekday = wd → a.day = day →
      x = (fun rank => if excluded s.params.alarmScheme rank a.interval then 0x80#8 else 0#8) →
      (id = .first → getReg 0x07 (encodeAlarm id a (clearRegs s)) = digitByte sec 0x70#8 ||| x 1) ∧
      [0, 1, 2].map (fun i => getReg ((if id = .first then 0x08 else 0x0B) + i) (encodeAlarm id a (clearRegs s))) =
        [digitByte min 0x70#8 ||| x 2, hourByte a.mode a.pm hr ||| x 3,
         (if a.interval = .weekDay then 0x40#8 ||| (BitVec.ofNat 8 wd &&& 0x0F#8) else digitByte day 0x30#8) ||| x 4])

/-- `SetAlarm` writes the alarm's block, then Control with only the alarm's own enable bit changed; `GetAlarm` reads
the block and Control and answers what their bits say: the BCD fields under their masks, the hour by its mode bit, the
day by DYDT (0x40), the interval by the exclude bits (0x80) that are clear, the enable bit. A transfer that fails is
the last one, and its status is the answer (R27, R140, R146, R148, R149; the draw counter after a failed hardware
block read is log 10). -/
def Obligations.AlarmCallsMakeTheirTransfers : Prop :=
  ∀ (s t : State) (id : AlarmId) (base count : Nat) (bit : Byte),
    (base, count, bit) = (match id with | .first => (0x07, 4, 0x01#8) | .second => (0x0B, 3, 0x02#8)) →
    (∀ a : RtcAlarm,
      (∀ e, writeBlock base count (encodeAlarm id a (clearRegs s)) = .failed e t →
        hostExec (.setAlarm id a) s = .next { t with regs := s.regs, result := some (.status e) }) ∧
      (writeBlock base count (encodeAlarm id a (clearRegs s)) = .done () t →
        (∀ e u, receiveReg 0x0E#8 t = .failed e u →
          hostExec (.setAlarm id a) s = .next { u with regs := s.regs, result := some (.status e) }) ∧
        (∀ c u, receiveReg 0x0E#8 t = .done c u →
          ∃ v, getReg 0x0E v = (if a.enabled then c ||| bit else c &&& ~~~bit) ∧ v = { u with regs := v.regs } ∧
            (∀ w, sendReg 0x0E#8 (getReg 0x0E v) v = .done () w →
              hostExec (.setAlarm id a) s = .next { w with regs := s.regs, result := some (.status .ok) }) ∧
            (∀ e w, sendReg 0x0E#8 (getReg 0x0E v) v = .failed e w →
              hostExec (.setAlarm id a) s = .next { w with regs := s.regs, result := some (.status e) })))) ∧
    (∀ e, receiveBlock (BitVec.ofNat 8 base) count (clearRegs s) = .failed e t → ∃ draws,
      hostExec (.getAlarm id) s = .next { t with
        regs := s.regs, env := { t.env with draws := draws }, result := some (.status e) }) ∧
    (∀ (sec min hrs day : Byte) (data : List Byte),
      data = (match id with | .first => [sec, min, hrs, day] | .second => [min, hrs, day]) →
      receiveBlock (BitVec.ofNat 8 base) count (clearRegs s) = .done data t →
      (∀ e u, receiveReg 0x0E#8 (putRegs base data t) = .failed e u →
        hostExec (.getAlarm id) s = .next { u with regs := s.regs, result := some (.status e) }) ∧
      (∀ c u, receiveReg 0x0E#8 (putRegs base data t) = .done c u →
        ∃ al, hostExec (.getAlarm id) s = .next { u with regs := s.regs, result := some (.alarm al) } ∧
          al.second = (if id = .first then bcdValue sec 0x70#8 0x0F#8 else 0) ∧
          al.minute = bcdValue min 0x70#8 0x0F#8 ∧
          (hrs &&& 0x40#8 = 0x40#8 → al.hour = bcdValue hrs 0x10#8 0x0F#8 ∧ al.mode = .h12 ∧
            al.pm = decide (hrs &&& 0x20#8 = 0x20#8)) ∧
          (hrs &&& 0x40#8 ≠ 0x40#8 → al.hour = bcdValue hrs 0x30#8 0x0F#8 ∧ al.mode = .h24 ∧ al.pm = false) ∧
          (day &&& 0x40#8 = 0x40#8 → al.weekday = ((day &&& 0x0F#8).toNat : Nat) ∧ al.day = 0) ∧
          (day &&& 0x40#8 ≠ 0x40#8 → al.weekday = 0 ∧ al.day = bcdValue day 0x30#8 0x0F#8) ∧
          al.interval = (match s.params.alarmScheme with
            | .cumulative => (clearFields id sec min hrs day).getLast?.getD .everySecond
            | .oneHot => (clearFields id sec min hrs day).head?.getD .everySecond) ∧
          al.enabled = decide (c &&& bit = bit)))

/-- `SetAlarmInterruptState` writes Control back with only the alarm's own enable bit changed, and
`GetAlarmInterruptStatus` returns both enable bits; when the read of Control fails each returns its status and makes no
write (R140, R150, R151). -/
def Obligations.AlarmEnablesAreReadAndWritten : Prop :=
  ∀ s t : State,
    (∀ e, receiveReg 0x0E#8 (clearRegs s) = .failed e t →
      ∀ op, op = .getAlarmInterruptStatus ∨ (∃ id enabled, op = .setAlarmInterruptState id enabled) →
        hostExec op s = .next { t with regs := s.regs, result := some (.status e) }) ∧
    (∀ c, receiveReg 0x0E#8 (clearRegs s) = .done c t →
      hostExec .getAlarmInterruptStatus s = .next { t with
        regs := s.regs
        result := some (.interruptStatus (decide (c &&& 0x01#8 = 0x01#8)) (decide (c &&& 0x02#8 = 0x02#8))) } ∧
      ∀ (id : AlarmId) (enabled : Bool) (bit : Byte), bit = (match id with | .first => 0x01#8 | .second => 0x02#8) →
        ∃ v, getReg 0x0E v = (if enabled then c ||| bit else c &&& ~~~bit) ∧ v = { t with regs := v.regs } ∧
          (∀ w, sendReg 0x0E#8 (getReg 0x0E v) v = .done () w →
            hostExec (.setAlarmInterruptState id enabled) s =
              .next { w with regs := s.regs, result := some (.status .ok) }) ∧
          (∀ e w, sendReg 0x0E#8 (getReg 0x0E v) v = .failed e w →
            hostExec (.setAlarmInterruptState id enabled) s =
              .next { w with regs := s.regs, result := some (.status e) }))

/-- `GetAlarmTriggerState`: a failed read returns its status and no write is made; with neither flag set no write is
made; with either set, one write clears both and leaves the other Status bits, and the snapshot is what was read
(R140, R152). -/
def Obligations.TriggersAreAcknowledgedOnce : Prop :=
  ∀ s t : State,
    (∀ e, receiveReg 0x0F#8 (clearRegs s) = .failed e t →
      hostExec .getAlarmTriggerState s = .next { t with regs := s.regs, result := some (.status e) }) ∧
    (∀ st, receiveReg 0x0F#8 (clearRegs s) = .done st t →
      (st &&& 0x03#8 = 0#8 → hostExec .getAlarmTriggerState s =
        .next { t with regs := s.regs, result := some (.triggerState false false) }) ∧
      (st &&& 0x03#8 ≠ 0#8 → ∃ v, getReg 0x0F v = st &&& 0xFC#8 ∧ v = { t with regs := v.regs } ∧
        (∀ w, sendReg 0x0F#8 (st &&& 0xFC#8) v = .done () w → hostExec .getAlarmTriggerState s =
          .next { w with
            regs := s.regs
            result := some (.triggerState (decide (st &&& 0x01#8 = 0x01#8)) (decide (st &&& 0x02#8 = 0x02#8))) }) ∧
        (∀ e w, sendReg 0x0F#8 (st &&& 0xFC#8) v = .failed e w → hostExec .getAlarmTriggerState s =
          .next { w with regs := s.regs, result := some (.status e) })))

/-! ### The machine as a whole -/

/-- THE INVARIANT: every step of the machine, whatever the host asks and the environment answers, keeps the buffer
invariant and the canonical form of both buffers, never leaves `Reading` behind, and leaves the bus position `Idle`
between executions (10_state.md R14, R17; 40_byte_buffer.md R78). That it is `Idle` after an execution under `Oracle`
is the model's choice (log 14), and before the first execution too (log 20). -/
def Obligations.EveryStepKeepsTheInvariant : Prop :=
  ∀ s t : State, s.Inv → step s = .next t → t.Inv

/-- What reset leaves, of the values the spec gives: cursors 0, a closed transport at `DEV_ADDR`, a zeroed register
set, the default parameters (10_state.md R21, R40; 00_scope.md R8); and the invariant holds there, whose clause that
the bus position is `Idle` is the model's choice at reset (log 20), as is that nothing is listed in the buffers (log 1). -/
def Obligations.ResetMeetsTheInvariantAndTheSpecValues : Prop :=
  State.reset.Inv ∧
  State.reset.cmd.rd = 0 ∧ State.reset.cmd.wr = 0 ∧ State.reset.rsp.rd = 0 ∧ State.reset.rsp.wr = 0 ∧
  State.reset.transport.isOpen = false ∧ State.reset.transport.addr7 = 0x68#7 ∧
  (∀ i, getReg i State.reset = 0#8) ∧
  State.reset.params.executor = .reference ∧ State.reset.params.bcdMerge = .replace ∧
  State.reset.params.alarmScheme = .cumulative

/-- No step changes the parameters, and only a construction changes the transport's kind, address and adapter or a
buffer's capacity. A construction leaves the transport as given and closed, and the cursors 0 under the capacities
given; a register set is created zeroed (10_state.md R13, R14, R21, R40; 40_byte_buffer.md R69, R78;
70_reset_and_hazards.md R172; what a construction leaves as it was is log 23). -/
def Obligations.TheConfigurationIsFixed : Prop :=
  (∀ s t : State, step s = .next t →
    t.params = s.params ∧
    ((∀ op rest, s.run ≠ .running → s.hostOps = op :: rest → isConstruction op = false) →
      t.transport.kind = s.transport.kind ∧ t.transport.addr7 = s.transport.addr7 ∧
      t.transport.adapter = s.transport.adapter ∧ t.cmd.cap = s.cmd.cap ∧ t.rsp.cap = s.rsp.cap)) ∧
  ∀ s : State,
    (∀ (kind : TransportKind) (addr7 : Addr7) (adapter cmdCap rspCap : Nat),
      ∃ t, hostExec (.construct kind addr7 adapter cmdCap rspCap) s = .next t ∧
        t.transport = { kind := kind, addr7 := addr7, adapter := adapter, isOpen := false } ∧
        t.cmd.cap = cmdCap ∧ t.cmd.rd = 0 ∧ t.cmd.wr = 0 ∧ t.rsp.cap = rspCap ∧ t.rsp.rd = 0 ∧ t.rsp.wr = 0 ∧
        t = { s with transport := t.transport, cmd := t.cmd, rsp := t.rsp, result := some .done }) ∧
    (∀ (b : BufferId) (cap : Nat),
      ∃ t, hostExec (.bufConstruct b cap) s = .next t ∧
        (getBuffer b t).cap = cap ∧ (getBuffer b t).rd = 0 ∧ (getBuffer b t).wr = 0 ∧
        t = { putBuffer b (getBuffer b t) s with result := some (.status .ok) }) ∧
    (∃ t, hostExec .regCreate s = .next t ∧ (∀ i, getReg i t = 0#8) ∧ t = { s with regs := t.regs, result := some .done })

/-- The host port: an operation launched on an idle block is the next thing the block serves; a launch that overlaps
another is refused; while an execution runs no host operation is served (00_scope.md R7;
70_reset_and_hazards.md R183; the host's operations in State are log 8). -/
def Obligations.TheHostIsServedOneOperationAtATime : Prop :=
  ∀ (s : State) (op : HostOp),
    (s.run = .running ∨ s.hostOps ≠ [] → launch op s = .refused .overlappingLaunch) ∧
    (s.run ≠ .running → s.hostOps = [] → ∃ t, launch op s = .next t ∧ step t = hostExec op s) ∧
    (s.run ≠ .running → ∀ rest, s.hostOps = op :: rest → step s = hostExec op { s with hostOps := rest }) ∧
    (s.run = .running → ∀ t, step s = .next t → t.hostOps = s.hostOps)
end

