-- ==== Sys2Proof/Laws/Memory.lean ====
section
/-! SUPPORT. The laws of byte storage: read after write, the canonical form is kept, and equal reads are equal
memories. -/

namespace Sys2Proof.Machine

theorem Memory.read_insert (m : Memory) (a b : Nat) (v : Byte) (h : m.Pairwise (fun x y => x.1 < y.1)) :
    Memory.read (Memory.insert m a v) b = if b = a then v else Memory.read m b := by
  induction m with
  | nil => simp [Memory.insert, Memory.read]
  | cons c rest ih =>
    obtain ⟨k, w⟩ := c
    have hrest := (List.pairwise_cons.1 h).2
    simp only [Memory.insert]
    split
    · simp only [Memory.read]
    · split
      · subst_vars
        simp only [Memory.read]
        split <;> rfl
      · simp only [Memory.read, ih hrest]
        split <;> split <;> simp_all

theorem Memory.read_of_not_mem (m : Memory) (b : Nat) (h : ∀ c ∈ m, c.1 ≠ b) : Memory.read m b = unlistedByte := by
  induction m with
  | nil => rfl
  | cons c rest ih =>
    obtain ⟨k, w⟩ := c
    have hk : b ≠ k := fun e => h (k, w) (by simp) e.symm
    simp only [Memory.read, if_neg hk]
    exact ih fun c hc => h c (by simp [hc])

theorem Memory.read_erase (m : Memory) (a b : Nat) :
    Memory.read (Memory.erase m a) b = if b = a then unlistedByte else Memory.read m b := by
  induction m with
  | nil => simp [Memory.erase, Memory.read]
  | cons c rest ih =>
    obtain ⟨k, w⟩ := c
    simp only [Memory.erase] at ih
    by_cases hk : k = a
    · subst hk
      by_cases hb : b = k
      · subst hb; simpa [Memory.erase] using ih
      · simp [Memory.erase, Memory.read, ih, hb]
    · by_cases hb : b = k
      · subst hb; simp [Memory.erase, Memory.read, hk]
      · simp [Memory.erase, Memory.read, ih, hk, hb]

/-- A read after a write: the byte written at that index, the old byte elsewhere. -/
theorem Memory.read_write (m : Memory) (a b : Nat) (v : Byte) (h : m.wf) :
    Memory.read (Memory.write m a v) b = if b = a then v else Memory.read m b := by
  unfold Memory.write
  split
  · next hv => rw [Memory.read_erase]; split <;> simp_all
  · exact Memory.read_insert m a b v h.1

@[simp] theorem Memory.read_write_same (m : Memory) (a : Nat) (v : Byte) (h : m.wf) :
    Memory.read (Memory.write m a v) a = v := by rw [Memory.read_write m a a v h, if_pos rfl]

theorem Memory.read_write_other (m : Memory) (a b : Nat) (v : Byte) (h : m.wf) (hb : b ≠ a) :
    Memory.read (Memory.write m a v) b = Memory.read m b := by
  rw [Memory.read_write m a b v h, if_neg hb]

theorem Memory.mem_insert (m : Memory) (a : Nat) (v : Byte) (c : Host.Cell) (h : c ∈ Memory.insert m a v) :
    c = (a, v) ∨ c ∈ m := by
  induction m with
  | nil => simpa [Memory.insert] using h
  | cons d rest ih =>
    obtain ⟨k, w⟩ := d
    simp only [Memory.insert] at h
    split at h
    · simpa using h
    · split at h
      · simp only [List.mem_cons] at h ⊢; tauto
      · simp only [List.mem_cons] at h ⊢
        rcases h with h | h
        · tauto
        · rcases ih h with h | h <;> tauto

theorem Memory.insert_pairwise (m : Memory) (a : Nat) (v : Byte) (h : m.Pairwise (fun x y => x.1 < y.1)) :
    (Memory.insert m a v).Pairwise (fun x y => x.1 < y.1) := by
  induction m with
  | nil => simp [Memory.insert]
  | cons d rest ih =>
    obtain ⟨k, w⟩ := d
    obtain ⟨h1, h2⟩ := List.pairwise_cons.1 h
    simp only [Memory.insert]
    split
    · next hlt =>
      refine List.pairwise_cons.2 ⟨?_, h⟩
      intro c hc
      rcases List.mem_cons.1 hc with rfl | hc
      · exact hlt
      · exact lt_trans hlt (h1 c hc)
    · split
      · next heq => subst heq; exact List.pairwise_cons.2 ⟨h1, h2⟩
      · next hn1 hn2 =>
        refine List.pairwise_cons.2 ⟨?_, ih h2⟩
        intro c hc
        rcases Memory.mem_insert rest a v c hc with rfl | hc
        · exact lt_of_le_of_ne (not_lt.1 hn1) (Ne.symm hn2)
        · exact h1 c hc

theorem Memory.mem_write (m : Memory) (a : Nat) (v : Byte) (c : Host.Cell) (h : c ∈ Memory.write m a v) :
    c = (a, v) ∨ c ∈ m := by
  unfold Memory.write at h
  split at h
  · exact .inr (List.mem_of_mem_filter h)
  · exact Memory.mem_insert m a v c h

/-- A write keeps the canonical form. -/
theorem Memory.write_wf (m : Memory) (a : Nat) (v : Byte) (h : m.wf) : (Memory.write m a v).wf := by
  refine ⟨?_, ?_⟩
  · unfold Memory.write
    split
    · exact h.1.filter _
    · exact Memory.insert_pairwise m a v h.1
  · intro c hc
    by_cases hv : v = unlistedByte
    · rw [Memory.write, if_pos hv] at hc
      exact h.2 c (List.mem_of_mem_filter hc)
    · rcases Memory.mem_write m a v c hc with rfl | hc
      · exact hv
      · exact h.2 c hc

/-- Storing a list of bytes keeps the canonical form. -/
theorem Memory.writeList_wf (bytes : List Byte) (m : Memory) (a : Nat) (h : m.wf) : (Memory.writeList m a bytes).wf := by
  induction bytes generalizing m a with
  | nil => exact h
  | cons v rest ih => exact ih _ _ (Memory.write_wf m a v h)

/-- Storing a list of bytes touches only its own span. -/
theorem Memory.read_writeList_outside (bytes : List Byte) (m : Memory) (a b : Nat) (h : m.wf)
    (hb : b < a ∨ a + bytes.length ≤ b) :
    Memory.read (Memory.writeList m a bytes) b = Memory.read m b := by
  induction bytes generalizing m a with
  | nil => rfl
  | cons v rest ih =>
    simp only [List.length_cons] at hb
    rw [Memory.writeList, ih _ _ (Memory.write_wf m a v h) (by omega), Memory.read_write_other m a b v h (by omega)]

/-- Storing a list of bytes and reading its span gives the list. -/
theorem Memory.readList_writeList (bytes : List Byte) (m : Memory) (a : Nat) (h : m.wf) :
    Memory.readList (Memory.writeList m a bytes) a bytes.length = bytes := by
  induction bytes generalizing m a with
  | nil => rfl
  | cons v rest ih =>
    simp only [Memory.writeList, List.length_cons, Memory.readList, ih _ _ (Memory.write_wf m a v h),
      Memory.read_writeList_outside rest _ (a + 1) a (Memory.write_wf m a v h) (by omega),
      Memory.read_write_same m a v h]

@[simp] theorem Memory.readList_length (m : Memory) (a n : Nat) : (Memory.readList m a n).length = n := by
  induction n generalizing a with
  | zero => rfl
  | succ n ih => simp [Memory.readList, ih]

theorem Memory.readList_append (m : Memory) (a k n : Nat) :
    Memory.readList m a (k + n) = Memory.readList m a k ++ Memory.readList m (a + k) n := by
  induction k generalizing a with
  | zero => simp [Memory.readList]
  | succ k ih =>
    rw [show k + 1 + n = (k + n) + 1 by omega]
    simp only [Memory.readList, ih, List.cons_append, show a + 1 + k = a + (k + 1) by omega]

/-- Reading a span depends only on the bytes of that span. -/
theorem Memory.readList_congr (m m' : Memory) (a n : Nat)
    (h : ∀ b, a ≤ b → b < a + n → Memory.read m b = Memory.read m' b) :
    Memory.readList m a n = Memory.readList m' a n := by
  induction n generalizing a with
  | zero => rfl
  | succ n ih =>
    simp only [Memory.readList]
    rw [h a (by omega) (by omega), ih (a + 1) fun b h1 h2 => h b (by omega) (by omega)]

theorem Memory.writeList_append (l1 l2 : List Byte) (m : Memory) (a : Nat) :
    Memory.writeList m a (l1 ++ l2) = Memory.writeList (Memory.writeList m a l1) (a + l1.length) l2 := by
  induction l1 generalizing m a with
  | nil => rfl
  | cons v rest ih =>
    simp only [List.cons_append, Memory.writeList, ih, List.length_cons, show a + 1 + rest.length = a + (rest.length + 1) by omega]

/-- Every cell of a memory with a list stored in it is an old cell or lies in the list's span. -/
theorem Memory.mem_writeList (bytes : List Byte) (m : Memory) (a : Nat) (c : Host.Cell)
    (h : c ∈ Memory.writeList m a bytes) : c ∈ m ∨ (a ≤ c.1 ∧ c.1 < a + bytes.length) := by
  induction bytes generalizing m a with
  | nil => exact .inl h
  | cons v rest ih =>
    rcases ih _ _ h with h | h
    · rcases Memory.mem_write m a v c h with rfl | h
      · exact .inr (by simp)
      · exact .inl h
    · exact .inr (by simp only [List.length_cons]; omega)

/-- A cell of a canonical memory is what a read of its index gives. -/
theorem Memory.read_of_mem (m : Memory) (c : Host.Cell) (h : m.wf) (hc : c ∈ m) : Memory.read m c.1 = c.2 := by
  induction m with
  | nil => simp at hc
  | cons d rest ih =>
    obtain ⟨k, w⟩ := d
    obtain ⟨h1, h2⟩ := List.pairwise_cons.1 h.1
    rcases List.mem_cons.1 hc with rfl | hc
    · simp [Memory.read]
    · have : c.1 ≠ k := by have := h1 c hc; simp only at this; omega
      simp only [Memory.read, if_neg this]
      exact ih ⟨h2, fun c hc => h.2 c (by simp [hc])⟩ hc

/-- Canonical memories with equal reads are equal. -/
theorem Memory.ext_read (m m' : Memory) (h : m.wf) (h' : m'.wf) (hr : ∀ a, Memory.read m a = Memory.read m' a) :
    m = m' := by
  have sub : ∀ (x y : Memory), x.wf → y.wf → (∀ a, Memory.read x a = Memory.read y a) → x ⊆ y := by
    intro x y hx hy hxy c hc
    by_contra hn
    have h1 : Memory.read y c.1 = c.2 := by rw [← hxy, Memory.read_of_mem x c hx hc]
    have h2 : ∃ d ∈ y, d.1 = c.1 := by
      by_contra hno
      push Not at hno
      exact hx.2 c hc (by rw [← h1, Memory.read_of_not_mem y c.1 hno])
    obtain ⟨d, hd, hdc⟩ := h2
    have h3 := Memory.read_of_mem y d hy hd
    rw [hdc, h1] at h3
    exact hn (by rwa [show c = d from Prod.ext hdc.symm h3])
  have nd : ∀ x : Memory, x.wf → x.Nodup := fun x hx => hx.1.imp fun hlt he => by rw [he] at hlt; exact lt_irrefl _ hlt
  have perm : m.Perm m' :=
    (List.perm_ext_iff_of_nodup (nd m h) (nd m' h')).2 fun c => ⟨fun hc => sub m m' h h' hr hc,
      fun hc => sub m' m h' h (fun a => (hr a).symm) hc⟩
  exact perm.eq_of_pairwise (fun x y _ _ hxy hyx => absurd (lt_trans hxy hyx) (lt_irrefl _)) h.1 h'.1

theorem Memory.nil_wf : Memory.wf [] := ⟨List.Pairwise.nil, by simp⟩

end Sys2Proof.Machine
end

