-- ==== Sys2Proof/Laws/State.lean ====
section
/-! SUPPORT. One lemma for each field of each named update of the state, so that no proof unfolds one. -/

namespace Sys2Proof.Machine

@[simp] theorem advance_transport (n : Nat) (s : State) : (advance n s).transport = s.transport := rfl
@[simp] theorem advance_cmd (n : Nat) (s : State) : (advance n s).cmd = { s.cmd with rd := s.cmd.rd + n } := rfl
@[simp] theorem advance_rsp (n : Nat) (s : State) : (advance n s).rsp = s.rsp := rfl
@[simp] theorem advance_phase (n : Nat) (s : State) : (advance n s).phase = s.phase := rfl
@[simp] theorem advance_addr (n : Nat) (s : State) : (advance n s).addr = s.addr := rfl
@[simp] theorem advance_run (n : Nat) (s : State) : (advance n s).run = s.run := rfl
@[simp] theorem advance_trace (n : Nat) (s : State) : (advance n s).trace = s.trace := rfl
@[simp] theorem advance_regs (n : Nat) (s : State) : (advance n s).regs = s.regs := rfl
@[simp] theorem advance_params (n : Nat) (s : State) : (advance n s).params = s.params := rfl
@[simp] theorem advance_result (n : Nat) (s : State) : (advance n s).result = s.result := rfl
@[simp] theorem advance_hostOps (n : Nat) (s : State) : (advance n s).hostOps = s.hostOps := rfl
@[simp] theorem advance_env (n : Nat) (s : State) : (advance n s).env = s.env := rfl

@[simp] theorem beginExecution_transport (s : State) : (beginExecution s).transport = s.transport := rfl
@[simp] theorem beginExecution_cmd (s : State) : (beginExecution s).cmd = { s.cmd with rd := 0 } := rfl
@[simp] theorem beginExecution_rsp (s : State) : (beginExecution s).rsp = { s.rsp with rd := 0, wr := 0 } := rfl
@[simp] theorem beginExecution_phase (s : State) : (beginExecution s).phase = .idle := rfl
@[simp] theorem beginExecution_addr (s : State) : (beginExecution s).addr = none := rfl
@[simp] theorem beginExecution_run (s : State) : (beginExecution s).run = .running := rfl
@[simp] theorem beginExecution_trace (s : State) : (beginExecution s).trace = [] := rfl
@[simp] theorem beginExecution_regs (s : State) : (beginExecution s).regs = s.regs := rfl
@[simp] theorem beginExecution_params (s : State) : (beginExecution s).params = s.params := rfl
@[simp] theorem beginExecution_result (s : State) : (beginExecution s).result = s.result := rfl
@[simp] theorem beginExecution_hostOps (s : State) : (beginExecution s).hostOps = s.hostOps := rfl
@[simp] theorem beginExecution_env (s : State) : (beginExecution s).env = s.env := rfl

@[simp] theorem endFailed_transport (reason : Reason) (s : State) : (endFailed reason s).transport = s.transport := rfl
@[simp] theorem endFailed_cmd (reason : Reason) (s : State) : (endFailed reason s).cmd = s.cmd := rfl
@[simp] theorem endFailed_rsp (reason : Reason) (s : State) : (endFailed reason s).rsp = s.rsp := rfl
@[simp] theorem endFailed_phase (reason : Reason) (s : State) : (endFailed reason s).phase = .idle := rfl
@[simp] theorem endFailed_addr (reason : Reason) (s : State) : (endFailed reason s).addr = s.addr := rfl
@[simp] theorem endFailed_run (reason : Reason) (s : State) : (endFailed reason s).run = .failed reason s.rsp.wr := rfl
@[simp] theorem endFailed_trace (reason : Reason) (s : State) : (endFailed reason s).trace = s.trace := rfl
@[simp] theorem endFailed_regs (reason : Reason) (s : State) : (endFailed reason s).regs = s.regs := rfl
@[simp] theorem endFailed_params (reason : Reason) (s : State) : (endFailed reason s).params = s.params := rfl
@[simp] theorem endFailed_result (reason : Reason) (s : State) : (endFailed reason s).result = s.result := rfl
@[simp] theorem endFailed_hostOps (reason : Reason) (s : State) : (endFailed reason s).hostOps = s.hostOps := rfl
@[simp] theorem endFailed_env (reason : Reason) (s : State) : (endFailed reason s).env = s.env := rfl

@[simp] theorem played_transport (es : List BusEvent) (left : List (Option BusReply)) (s : State) : (played es left s).transport = s.transport := rfl
@[simp] theorem played_cmd (es : List BusEvent) (left : List (Option BusReply)) (s : State) : (played es left s).cmd = s.cmd := rfl
@[simp] theorem played_rsp (es : List BusEvent) (left : List (Option BusReply)) (s : State) : (played es left s).rsp = s.rsp := rfl
@[simp] theorem played_phase (es : List BusEvent) (left : List (Option BusReply)) (s : State) : (played es left s).phase = s.phase := rfl
@[simp] theorem played_addr (es : List BusEvent) (left : List (Option BusReply)) (s : State) : (played es left s).addr = s.addr := rfl
@[simp] theorem played_run (es : List BusEvent) (left : List (Option BusReply)) (s : State) : (played es left s).run = s.run := rfl
@[simp] theorem played_trace (es : List BusEvent) (left : List (Option BusReply)) (s : State) : (played es left s).trace = s.trace ++ es := rfl
@[simp] theorem played_regs (es : List BusEvent) (left : List (Option BusReply)) (s : State) : (played es left s).regs = s.regs := rfl
@[simp] theorem played_params (es : List BusEvent) (left : List (Option BusReply)) (s : State) : (played es left s).params = s.params := rfl
@[simp] theorem played_result (es : List BusEvent) (left : List (Option BusReply)) (s : State) : (played es left s).result = s.result := rfl
@[simp] theorem played_hostOps (es : List BusEvent) (left : List (Option BusReply)) (s : State) : (played es left s).hostOps = s.hostOps := rfl
@[simp] theorem played_env (es : List BusEvent) (left : List (Option BusReply)) (s : State) : (played es left s).env = { s.env with bus := left } := rfl

@[simp] theorem putReg_transport (i : Nat) (v : Byte) (s : State) : (putReg i v s).transport = s.transport := rfl
@[simp] theorem putReg_cmd (i : Nat) (v : Byte) (s : State) : (putReg i v s).cmd = s.cmd := rfl
@[simp] theorem putReg_rsp (i : Nat) (v : Byte) (s : State) : (putReg i v s).rsp = s.rsp := rfl
@[simp] theorem putReg_phase (i : Nat) (v : Byte) (s : State) : (putReg i v s).phase = s.phase := rfl
@[simp] theorem putReg_addr (i : Nat) (v : Byte) (s : State) : (putReg i v s).addr = s.addr := rfl
@[simp] theorem putReg_run (i : Nat) (v : Byte) (s : State) : (putReg i v s).run = s.run := rfl
@[simp] theorem putReg_trace (i : Nat) (v : Byte) (s : State) : (putReg i v s).trace = s.trace := rfl
@[simp] theorem putReg_regs (i : Nat) (v : Byte) (s : State) : (putReg i v s).regs = s.regs.setIfInBounds i v := rfl
@[simp] theorem putReg_params (i : Nat) (v : Byte) (s : State) : (putReg i v s).params = s.params := rfl
@[simp] theorem putReg_result (i : Nat) (v : Byte) (s : State) : (putReg i v s).result = s.result := rfl
@[simp] theorem putReg_hostOps (i : Nat) (v : Byte) (s : State) : (putReg i v s).hostOps = s.hostOps := rfl
@[simp] theorem putReg_env (i : Nat) (v : Byte) (s : State) : (putReg i v s).env = s.env := rfl

@[simp] theorem clearRegs_transport (s : State) : (clearRegs s).transport = s.transport := rfl
@[simp] theorem clearRegs_cmd (s : State) : (clearRegs s).cmd = s.cmd := rfl
@[simp] theorem clearRegs_rsp (s : State) : (clearRegs s).rsp = s.rsp := rfl
@[simp] theorem clearRegs_phase (s : State) : (clearRegs s).phase = s.phase := rfl
@[simp] theorem clearRegs_addr (s : State) : (clearRegs s).addr = s.addr := rfl
@[simp] theorem clearRegs_run (s : State) : (clearRegs s).run = s.run := rfl
@[simp] theorem clearRegs_trace (s : State) : (clearRegs s).trace = s.trace := rfl
@[simp] theorem clearRegs_regs (s : State) : (clearRegs s).regs = RegSet.zero := rfl
@[simp] theorem clearRegs_params (s : State) : (clearRegs s).params = s.params := rfl
@[simp] theorem clearRegs_result (s : State) : (clearRegs s).result = s.result := rfl
@[simp] theorem clearRegs_hostOps (s : State) : (clearRegs s).hostOps = s.hostOps := rfl
@[simp] theorem clearRegs_env (s : State) : (clearRegs s).env = s.env := rfl

@[simp] theorem closeTransport_transport (s : State) : (closeTransport s).transport = { s.transport with isOpen := false } := rfl
@[simp] theorem closeTransport_cmd (s : State) : (closeTransport s).cmd = s.cmd := rfl
@[simp] theorem closeTransport_rsp (s : State) : (closeTransport s).rsp = s.rsp := rfl
@[simp] theorem closeTransport_phase (s : State) : (closeTransport s).phase = s.phase := rfl
@[simp] theorem closeTransport_addr (s : State) : (closeTransport s).addr = s.addr := rfl
@[simp] theorem closeTransport_run (s : State) : (closeTransport s).run = s.run := rfl
@[simp] theorem closeTransport_trace (s : State) : (closeTransport s).trace = s.trace := rfl
@[simp] theorem closeTransport_regs (s : State) : (closeTransport s).regs = s.regs := rfl
@[simp] theorem closeTransport_params (s : State) : (closeTransport s).params = s.params := rfl
@[simp] theorem closeTransport_result (s : State) : (closeTransport s).result = s.result := rfl
@[simp] theorem closeTransport_hostOps (s : State) : (closeTransport s).hostOps = s.hostOps := rfl
@[simp] theorem closeTransport_env (s : State) : (closeTransport s).env = s.env := rfl

/-! ### Buffers -/

@[simp] theorem push_cap (b : ByteBuffer) (v : Byte) : (b.push v).cap = b.cap := rfl
@[simp] theorem push_rd (b : ByteBuffer) (v : Byte) : (b.push v).rd = b.rd := rfl
@[simp] theorem push_wr (b : ByteBuffer) (v : Byte) : (b.push v).wr = b.wr + 1 := rfl
@[simp] theorem push_store (b : ByteBuffer) (v : Byte) : (b.push v).store = Memory.write b.store b.wr v := rfl
@[simp] theorem rewind_cap (b : ByteBuffer) : b.rewind.cap = b.cap := rfl
@[simp] theorem rewind_rd (b : ByteBuffer) : b.rewind.rd = 0 := rfl
@[simp] theorem rewind_wr (b : ByteBuffer) : b.rewind.wr = 0 := rfl
@[simp] theorem rewind_store (b : ByteBuffer) : b.rewind.store = b.store := rfl
@[simp] theorem clear_cap (b : ByteBuffer) : b.clear.cap = b.cap := rfl
@[simp] theorem clear_rd (b : ByteBuffer) : b.clear.rd = 0 := rfl
@[simp] theorem clear_wr (b : ByteBuffer) : b.clear.wr = 0 := rfl
@[simp] theorem clear_store (b : ByteBuffer) : b.clear.store = [] := rfl

/-! ### The register set image -/

/-- A slot after one slot was replaced. -/
theorem getReg_putReg (i j : Nat) (v : Byte) (s : State) :
    getReg j (putReg i v s) = if i = j ∧ i < 19 then v else getReg j s := by
  simp only [getReg, putReg, Vector.getElem?_setIfInBounds]
  by_cases h : i = j
  · subst h
    by_cases h2 : i < 19
    · simp [h2]
    · simp [h2]
  · simp [h]

@[simp] theorem getReg_putReg_same (i : Nat) (v : Byte) (s : State) (h : i < 19) : getReg i (putReg i v s) = v := by
  simp [getReg_putReg, h]

theorem getReg_putReg_other (i j : Nat) (v : Byte) (s : State) (h : i ≠ j) :
    getReg j (putReg i v s) = getReg j s := by
  simp [getReg_putReg, h]

@[simp] theorem getReg_clearRegs (i : Nat) (s : State) : getReg i (clearRegs s) = 0#8 := by
  simp only [getReg, clearRegs_regs]
  by_cases h : i < 19
  · simp [h]
  · simp [h]

/-- Storing a list of bytes in the image changes the image only. -/
theorem putRegs_eq (bytes : List Byte) (i : Nat) (s : State) :
    putRegs i bytes s = { s with regs := (putRegs i bytes s).regs } := by
  induction bytes generalizing i s with
  | nil => rfl
  | cons v rest ih =>
    rw [putRegs, ih]
    rfl

/-- A slot after a list of bytes was stored in the image. -/
theorem getReg_putRegs (bytes : List Byte) (i j : Nat) (s : State) (h : i + bytes.length ≤ 19) :
    getReg j (putRegs i bytes s) = if i ≤ j ∧ j < i + bytes.length then bytes.getD (j - i) 0#8 else getReg j s := by
  induction bytes generalizing i s with
  | nil => simp [putRegs]
  | cons v rest ih =>
    simp only [List.length_cons] at h ⊢
    rw [putRegs, ih (i + 1) (putReg i v s) (by omega), getReg_putReg]
    by_cases h1 : j = i
    · subst h1
      have h2 : j < 19 := by omega
      simp [h2]
    · by_cases h2 : i ≤ j ∧ j < i + (rest.length + 1)
      · obtain ⟨k, rfl⟩ : ∃ k, j = i + 1 + k := ⟨j - i - 1, by omega⟩
        rw [if_pos (by omega), if_pos h2, show i + 1 + k - (i + 1) = k by omega, show i + 1 + k - i = k + 1 by omega]
        rfl
      · rw [if_neg (by omega), if_neg h2, if_neg (by omega)]

end Sys2Proof.Machine
end

