-- ==== Sys2Proof/Laws/Ops.lean ====
section
/-! SUPPORT. One lemma for each shared operation of Machine/Ops.lean that says everything it can do, and one for what
it does when the environment grants its events. -/

namespace Sys2Proof.Machine

/-! ### Procedures -/

/-- What holds of a procedure's end: `P` of a success, `Q` of a failure. -/
def Res.Holds {ε α : Type} (x : Res ε α) (P : α → State → Prop) (Q : ε → State → Prop) : Prop :=
  match x with
  | .done a s => P a s
  | .failed e s => Q e s
  | .fault _ => True
  | .refused _ => True

theorem Res.Holds.bind {ε α β : Type} {x : Res ε α} {f : α → State → Res ε β} {P : α → State → Prop}
    {Q : ε → State → Prop} {P' : β → State → Prop} {Q' : ε → State → Prop} (h : x.Holds P Q)
    (hf : ∀ a s, P a s → (f a s).Holds P' Q') (hq : ∀ e s, Q e s → Q' e s) : (x.bind f).Holds P' Q' := by
  cases x with
  | done a s => exact hf a s h
  | failed e s => exact hq e s h
  | fault r => trivial
  | refused r => trivial

theorem Res.Holds.mono {ε α : Type} {x : Res ε α} {P P' : α → State → Prop} {Q Q' : ε → State → Prop}
    (h : x.Holds P Q) (hp : ∀ a s, P a s → P' a s) (hq : ∀ e s, Q e s → Q' e s) : x.Holds P' Q' := by
  cases x with
  | done a s => exact hp a s h
  | failed e s => exact hq e s h
  | fault r => trivial
  | refused r => trivial

@[simp] theorem bind_done {ε α β : Type} (a : α) (s : State) (f : α → State → Res ε β) :
    (Res.done a s).bind f = f a s := rfl
@[simp] theorem bind_failed {ε α β : Type} (e : ε) (s : State) (f : α → State → Res ε β) :
    (Res.failed e s).bind f = .failed e s := rfl
@[simp] theorem bind_fault {ε α β : Type} (r : Fault) (f : α → State → Res ε β) :
    (Res.fault r : Res ε α).bind f = .fault r := rfl
@[simp] theorem bind_refused {ε α β : Type} (r : Refusal) (f : α → State → Res ε β) :
    (Res.refused r : Res ε α).bind f = .refused r := rfl

theorem bind_assoc {ε α β γ : Type} (x : Res ε α) (f : α → State → Res ε β) (g : β → State → Res ε γ) :
    (x.bind f).bind g = x.bind fun a s => (f a s).bind g := by
  cases x <;> rfl

/-! ### What the bus procedures leave unchanged -/

/-- `t` is `s` after bus events, with a list of bytes stored at the write cursor of `RSP`: everything else is as it
was, but for the environment and the bus position. -/
def Moved (data : List Byte) (s t : State) : Prop :=
  ∃ tr env ph, t = { s with
    trace := s.trace ++ tr, env := env, phase := ph
    rsp := { s.rsp with store := Memory.writeList s.rsp.store s.rsp.wr data, wr := s.rsp.wr + data.length } }

theorem Moved.refl (s : State) : Moved [] s s := ⟨[], s.env, s.phase, by simp [Memory.writeList]⟩

theorem Moved.trans {d1 d2 : List Byte} {s t u : State} (h1 : Moved d1 s t) (h2 : Moved d2 t u) :
    Moved (d1 ++ d2) s u := by
  obtain ⟨tr1, e1, p1, rfl⟩ := h1
  obtain ⟨tr2, e2, p2, rfl⟩ := h2
  exact ⟨tr1 ++ tr2, e2, p2, by simp [Memory.writeList_append, Nat.add_assoc]⟩

theorem Moved.phase {d : List Byte} {s t : State} (h : Moved d s t) (p : Phase) : Moved d s { t with phase := p } := by
  obtain ⟨tr, e, q, rfl⟩ := h
  exact ⟨tr, e, p, rfl⟩

theorem emit_some {e : BusEvent} {s t : State} {r : BusReply} (h : emit e s = some (r, t)) :
    ∃ env, t = { s with trace := s.trace ++ [e], env := env } := by
  unfold emit at h
  split at h
  · simp only [Option.some.injEq, Prod.mk.injEq] at h
    exact ⟨_, h.2.symm⟩
  · simp at h

theorem emit_moved {e : BusEvent} {s t : State} {r : BusReply} (h : emit e s = some (r, t)) : Moved [] s t := by
  obtain ⟨env, rfl⟩ := emit_some h
  exact ⟨[e], env, s.phase, by simp [Memory.writeList]⟩

theorem signal_moved (e : BusEvent) (s : State) :
    (signal e s).Holds (fun _ t => Moved [] s t) (fun _ t => Moved [] s t) := by
  unfold signal
  split
  · trivial
  · next h => exact emit_moved h
  · next h => exact emit_moved h

theorem txByte_moved (b : Byte) (s : State) :
    (txByte b s).Holds (fun _ t => Moved [] s t) (fun _ t => Moved [] s t) := by
  unfold txByte
  split
  · trivial
  · next h => exact emit_moved h
  · next h => split <;> exact emit_moved h

theorem rxByte_moved (ack : Bool) (s : State) :
    (rxByte ack s).Holds (fun _ t => Moved [] s t) (fun _ t => Moved [] s t) := by
  unfold rxByte
  split
  · trivial
  · next h => exact emit_moved h
  · next h => exact emit_moved h

theorem txAll_moved (d : List Byte) (s : State) :
    (txAll d s).Holds (fun _ t => Moved [] s t) (fun _ t => Moved [] s t) := by
  induction d generalizing s with
  | nil => exact Moved.refl s
  | cons b rest ih =>
    exact (txByte_moved b s).bind
      (fun _ t h => (ih t).mono (fun _ u hu => h.trans hu) (fun _ u hu => h.trans hu)) fun _ _ h => h

theorem rxAll_moved (n : Nat) (s : State) :
    (rxAll n s).Holds (fun d t => d.length = n ∧ Moved [] s t) (fun _ t => Moved [] s t) := by
  induction n generalizing s with
  | zero => exact ⟨rfl, Moved.refl s⟩
  | succ n ih =>
    refine (rxByte_moved (n != 0) s).bind (fun v t h => ?_) fun _ _ h => h
    refine (ih t).bind (fun d u hu => ⟨by simp [hu.1], h.trans hu.2⟩) fun _ u hu => h.trans hu

/-- `rxStore` stores as many bytes as were received: all of them when it succeeds. -/
theorem rxStore_moved (n : Nat) (s : State) :
    (rxStore n s).Holds (fun _ t => ∃ d, d.length = n ∧ Moved d s t) (fun _ t => ∃ d, d.length ≤ n ∧ Moved d s t) := by
  induction n generalizing s with
  | zero => exact ⟨[], rfl, Moved.refl s⟩
  | succ n ih =>
    refine (rxByte_moved (n != 0) s).bind (fun v t h => ?_) fun _ t h => ⟨[], by simp, h⟩
    have h1 : Moved [v] s { t with rsp := t.rsp.push v } := by
      obtain ⟨tr, e, p, rfl⟩ := h
      exact ⟨tr, e, p, by simp [Memory.writeList, ByteBuffer.push]⟩
    refine (ih _).mono (fun _ u hu => ?_) fun _ u hu => ?_
    · obtain ⟨d, hd, hu⟩ := hu
      exact ⟨[v] ++ d, by simp [hd], h1.trans hu⟩
    · obtain ⟨d, hd, hu⟩ := hu
      exact ⟨[v] ++ d, by simp only [List.cons_append, List.nil_append, List.length_cons]; omega, h1.trans hu⟩

theorem openPhase_moved (s : State) :
    (openPhase s).Holds (fun _ t => Moved [] s t) (fun _ t => Moved [] s t) := by
  unfold openPhase
  split
  · exact (signal_moved _ s).bind (fun _ t h => h.phase _) fun _ _ h => h
  · exact (signal_moved _ s).bind (fun _ t h => h.phase _) fun _ _ h => h
  · exact (signal_moved _ s).bind (fun _ t h => h.phase _) fun _ _ h => h
  · exact Moved.refl s
  · exact Moved.refl s

theorem addrPhase_moved (isRead : Bool) (s : State) :
    (addrPhase isRead s).Holds (fun _ t => Moved [] s t) (fun _ t => Moved [] s t) := by
  unfold addrPhase
  split
  · exact Moved.refl s
  · refine (openPhase_moved s).bind (fun _ t h => ?_) fun _ _ h => h
    exact (txByte_moved _ t).bind (fun _ u hu => (h.trans hu).phase _) fun _ u hu => h.trans hu

/-! ### What `Fail` and `finish` do -/

/-- `Fail` ends the execution: the bus position is `Idle` and the result is `Failed(reason, RSP.wr)`. -/
theorem abort_next {reason : Reason} {s t : State} (h : abort reason s = .next t) :
    ∃ tr env, t = { s with trace := s.trace ++ tr, env := env, phase := .idle, run := .failed reason s.rsp.wr } := by
  unfold abort at h
  split at h
  · cases h
    exact ⟨[], s.env, by simp [endFailed]⟩
  · split at h
    · cases h
    · next r u hu =>
      cases h
      obtain ⟨env, rfl⟩ := emit_some hu
      exact ⟨_, env, rfl⟩

theorem finish_next {x : Res Reason Unit} {p : Phase} {t : State} (h : finish x p = .next t) :
    (∃ s, x = .done () s ∧ t = { s with phase := p }) ∨ ∃ e s, x = .failed e s ∧ abort e s = .next t := by
  cases x with
  | done a s => cases h; exact .inl ⟨s, rfl, rfl⟩
  | failed e s => exact .inr ⟨e, s, rfl, h⟩
  | fault r => cases h
  | refused r => cases h

/-! ### One command -/

/-- How the execution goes on after a command: it failed, it completed, or it is as before. -/
def CommandEnd (i : Instr) (s : State) (stored : Nat) (phase : Phase) (run : RunState) : Prop :=
  (∃ reason, run = .failed reason (s.rsp.wr + stored) ∧ phase = .idle) ∨
  (i = .endCmd ∧ run = .completed s.rsp.wr ∧ phase = .idle ∧ stored = 0) ∨
  (i ≠ .endCmd ∧ run = s.run ∧ stored = readLength i ∧ (phase = s.phase ∨ phase ≠ .reading))

/-- Everything a command can do to the state. -/
def CommandEffect (i : Instr) (s t : State) : Prop :=
  ∃ data tr env phase addr run,
    t = { s with
      trace := s.trace ++ tr, env := env, phase := phase, addr := addr, run := run
      rsp := { s.rsp with store := Memory.writeList s.rsp.store s.rsp.wr data, wr := s.rsp.wr + data.length } } ∧
    data.length ≤ readLength i ∧ (data = [] ∨ s.rsp.wr + data.length ≤ s.rsp.cap) ∧
    (addr = s.addr ∨ ∃ a, i = .addr a ∧ addr = some (a.setWidth 7)) ∧
    CommandEnd i s data.length phase run

theorem abort_effect {i : Instr} {data : List Byte} {reason : Reason} {s u t : State} (hu : Moved data s u)
    (hd : data.length ≤ readLength i) (hc : data = [] ∨ s.rsp.wr + data.length ≤ s.rsp.cap)
    (h : abort reason u = .next t) : CommandEffect i s t := by
  obtain ⟨tr, env, ph, rfl⟩ := hu
  obtain ⟨tr', env', rfl⟩ := abort_next h
  exact ⟨data, tr ++ tr', env', .idle, s.addr, _, by simp, hd, hc, .inl rfl, .inl ⟨reason, rfl, rfl⟩⟩

theorem same_effect {i : Instr} {s : State} (hi : i ≠ .endCmd) (hr : readLength i = 0) : CommandEffect i s s :=
  ⟨[], [], s.env, s.phase, s.addr, s.run, by simp [Memory.writeList], by simp, .inl rfl, .inl rfl,
    .inr (.inr ⟨hi, rfl, by simp [hr], .inl rfl⟩)⟩

theorem writePayload_effect {i : Instr} {d : List Byte} {s t : State} (hi : i ≠ .endCmd) (hr : readLength i = 0)
    (h : writePayload d s = .next t) : CommandEffect i s t := by
  unfold writePayload at h
  split at h
  · cases h; exact same_effect hi hr
  · have hm : ((if s.phase = .writing then Res.done () s else addrPhase false s).bind fun _ u => txAll d u).Holds
        (fun _ u => Moved [] s u) (fun _ u => Moved [] s u) := by
      refine Res.Holds.bind (P := fun _ u => Moved [] s u) (Q := fun _ u => Moved [] s u) ?_ (fun _ u hu => ?_) ?_
      · split
        · exact Moved.refl s
        · exact addrPhase_moved false s
      · exact (txAll_moved d u).mono (fun _ v hv => hu.trans hv) fun _ v hv => hu.trans hv
      · exact fun _ _ hu => hu
    rcases finish_next h with ⟨u, hx, rfl⟩ | ⟨e, u, hx, ha⟩
    · rw [hx] at hm
      obtain ⟨tr, env, ph, rfl⟩ := hm
      exact ⟨[], tr, env, .writing, s.addr, s.run, by simp, by simp, .inl rfl, .inl rfl,
        .inr (.inr ⟨hi, rfl, by simp [hr], .inr (by decide)⟩)⟩
    · rw [hx] at hm
      exact abort_effect hm (by simp) (.inl rfl) ha

theorem readInto_effect {i : Instr} {n : Nat} {s t : State} (hi : i ≠ .endCmd) (hr : readLength i = n)
    (h : readInto n s = .next t) : CommandEffect i s t := by
  unfold readInto at h
  split at h
  · next hn => cases h; exact same_effect hi (by omega)
  · split at h
    · exact abort_effect (Moved.refl s) (by simp) (.inl rfl) h
    · next hcap =>
      have hcap : s.rsp.wr + n ≤ s.rsp.cap := by
        simp only [ByteBuffer.writeRemaining] at hcap; omega
      have hm : ((addrPhase true s).bind fun _ u => rxStore n u).Holds
          (fun _ u => ∃ d, d.length = n ∧ Moved d s u) (fun _ u => ∃ d, d.length ≤ n ∧ Moved d s u) := by
        refine (addrPhase_moved true s).bind (fun _ u hu => ?_) fun _ u hu => ⟨[], by simp, hu⟩
        refine (rxStore_moved n u).mono (fun _ v hv => ?_) fun _ v hv => ?_
        · obtain ⟨d, hd, hv⟩ := hv
          exact ⟨[] ++ d, by simpa using hd, hu.trans hv⟩
        · obtain ⟨d, hd, hv⟩ := hv
          exact ⟨[] ++ d, by simpa using hd, hu.trans hv⟩
      rcases finish_next h with ⟨u, hx, rfl⟩ | ⟨e, u, hx, ha⟩
      · rw [hx] at hm
        obtain ⟨d, hd, tr, env, ph, rfl⟩ := hm
        exact ⟨d, tr, env, .readDone, s.addr, s.run, rfl, by omega, .inr (by omega), .inl rfl,
          .inr (.inr ⟨hi, rfl, by omega, .inr (by decide)⟩)⟩
      · rw [hx] at hm
        obtain ⟨d, hd, hm⟩ := hm
        exact abort_effect hm (by omega) (.inr (by omega)) ha

/-- Everything a command can do when it answers a next state. -/
theorem exec_effect (i : Instr) (s t : State) (h : exec i s = .next t) : CommandEffect i s t := by
  cases i with
  | endCmd =>
    simp only [exec, execEnd] at h
    split at h
    · next hp =>
      cases h
      exact ⟨[], [], s.env, s.phase, s.addr, _, by simp [Memory.writeList], by simp, .inl rfl, .inl rfl,
        .inr (.inl ⟨rfl, rfl, hp, rfl⟩)⟩
    · split at h
      · cases h
      · next r u hu =>
        cases h
        obtain ⟨env, rfl⟩ := emit_some hu
        split
        · exact ⟨[], [.stop], env, .idle, s.addr, _, by simp [Memory.writeList, endFailed], by simp, .inl rfl, .inl rfl,
            .inl ⟨.timeout, rfl, rfl⟩⟩
        · exact ⟨[], [.stop], env, .idle, s.addr, _, by simp [Memory.writeList], by simp, .inl rfl, .inl rfl,
            .inr (.inl ⟨rfl, rfl, rfl, rfl⟩)⟩
  | escape op => exact abort_effect (Moved.refl s) (by simp) (.inl rfl) h
  | start =>
    simp only [exec, execStart] at h
    split at h
    · cases h
    · next r u hu =>
      cases h
      obtain ⟨env, rfl⟩ := emit_some hu
      split
      · exact ⟨[], [if s.phase = .idle then .start else .restart], env, .idle, s.addr, _, by simp [Memory.writeList, endFailed], by simp, .inl rfl, .inl rfl,
          .inl ⟨.timeout, rfl, rfl⟩⟩
      · exact ⟨[], [if s.phase = .idle then .start else .restart], env, .started, s.addr, s.run, by simp [Memory.writeList], by simp, .inl rfl, .inl rfl,
          .inr (.inr ⟨by simp, rfl, rfl, .inr (by decide)⟩)⟩
  | stop =>
    simp only [exec, execStop] at h
    split at h
    · cases h; exact same_effect (by simp) rfl
    · split at h
      · cases h
      · next r u hu =>
        cases h
        obtain ⟨env, rfl⟩ := emit_some hu
        split
        · exact ⟨[], [.stop], env, .idle, s.addr, _, by simp [Memory.writeList, endFailed], by simp, .inl rfl, .inl rfl,
            .inl ⟨.timeout, rfl, rfl⟩⟩
        · exact ⟨[], [.stop], env, .idle, s.addr, s.run, by simp [Memory.writeList], by simp, .inl rfl, .inl rfl,
            .inr (.inr ⟨by simp, rfl, rfl, .inr (by decide)⟩)⟩
  | addr a =>
    simp only [exec, execAddr] at h
    split at h
    · exact abort_effect (Moved.refl s) (by simp) (.inl rfl) h
    · cases h
      exact ⟨[], [], s.env, s.phase, some (a.setWidth 7), s.run, by simp [Memory.writeList], by simp, .inl rfl,
        .inr ⟨a, rfl, rfl⟩, .inr (.inr ⟨by simp, rfl, rfl, .inl rfl⟩)⟩
  | flags => exact abort_effect (Moved.refl s) (by simp) (.inl rfl) h
  | read n => exact readInto_effect (by simp) rfl h
  | write d => exact writePayload_effect (by simp) rfl h
  | escRead n => exact readInto_effect (by simp) rfl h
  | escWrite d => exact writePayload_effect (by simp) rfl h
  | illegal op => exact abort_effect (Moved.refl s) (by simp) (.inl rfl) h

/-! ### When the environment grants the events -/

theorem played_played (es es' : List BusEvent) (l l' : List (Option BusReply)) (s : State) :
    played es' l' (played es l s) = played (es ++ es') l' s := by
  simp [played]

@[simp] theorem played_nil (s : State) : played [] s.env.bus s = s := by simp [played]

/-- An event with a scripted answer. -/
theorem emit_script {e : BusEvent} {s : State} {r : BusReply} {rest : List (Option BusReply)}
    (h : s.env.bus = some r :: rest) : emit e s = some (r, played [e] rest s) := by
  simp [emit, nextAnswer, h, played]

/-- An event whose answer never arrives. -/
theorem emit_silent {e : BusEvent} {s : State} {rest : List (Option BusReply)} (h : s.env.bus = none :: rest) :
    emit e s = none := by
  simp [emit, nextAnswer, h]

theorem grants_cons {e : BusEvent} {es : List BusEvent} {rs : List BusReply} (h : grants (e :: es) rs = true) :
    ∃ ack v rest, rs = .answer ack v :: rest ∧ grant e (.answer ack v) = true ∧ grants es rest = true := by
  cases rs with
  | nil => simp [grants] at h
  | cons r rest =>
    simp only [grants, Bool.and_eq_true] at h
    cases r with
    | timeout => simp [grant] at h
    | answer ack v => exact ⟨ack, v, rest, rfl, h.1, h.2⟩

theorem grants_nil {rs : List BusReply} (h : grants [] rs = true) : rs = [] := by
  cases rs with
  | nil => rfl
  | cons r rest => simp [grants] at h

/-- Answers that grant a list in two parts come in two parts. -/
theorem grants_append {es es' : List BusEvent} {rs : List BusReply} (h : grants (es ++ es') rs = true) :
    ∃ r1 r2, rs = r1 ++ r2 ∧ grants es r1 = true ∧ grants es' r2 = true ∧
      received (es ++ es') rs = received es r1 ++ received es' r2 := by
  induction es generalizing rs with
  | nil => exact ⟨[], rs, rfl, rfl, h, by cases es' <;> simp [received]⟩
  | cons e es ih =>
    obtain ⟨ack, v, rest, rfl, h1, h2⟩ := grants_cons h
    obtain ⟨r1, r2, rfl, h3, h4, h5⟩ := ih h2
    refine ⟨.answer ack v :: r1, r2, rfl, by simp [grants, h1, h3], h4, ?_⟩
    cases e <;> simp [received, h5]

theorem signal_played {e : BusEvent} {s : State} {ack : Bool} {v : Byte} {rest : List (Option BusReply)}
    (h : s.env.bus = some (.answer ack v) :: rest) : signal e s = .done () (played [e] rest s) := by
  simp [signal, emit_script h]

theorem txByte_played {b : Byte} {s : State} {v : Byte} {rest : List (Option BusReply)}
    (h : s.env.bus = some (.answer true v) :: rest) : txByte b s = .done () (played [.tx b] rest s) := by
  simp [txByte, emit_script h]

theorem rxByte_played {ack : Bool} {s : State} {ack' : Bool} {v : Byte} {rest : List (Option BusReply)}
    (h : s.env.bus = some (.answer ack' v) :: rest) : rxByte ack s = .done v (played [.rx ack] rest s) := by
  simp [rxByte, emit_script h]

theorem txAll_played (d : List Byte) (s : State) (rs : List BusReply) (rest : List (Option BusReply))
    (hg : grants (d.map .tx) rs = true) (h : s.env.bus = rs.map some ++ rest) :
    txAll d s = .done () (played (d.map .tx) rest s) := by
  induction d generalizing s rs with
  | nil =>
    rw [grants_nil hg] at h
    simp [txAll, played, ← show s.env.bus = rest from h]
  | cons b d ih =>
    obtain ⟨ack, v, rs, rfl, h1, h2⟩ := grants_cons hg
    simp only [grant] at h1
    subst h1
    rw [txAll, txByte_played (by simpa using h), bind_done, ih _ rs h2 (by simp [played]), played_played]
    rfl

theorem received_rx_length (n : Nat) (rs : List BusReply) (hg : grants (rxEvents n) rs = true) :
    (received (rxEvents n) rs).length = n := by
  induction n generalizing rs with
  | zero => rw [grants_nil hg]; rfl
  | succ n ih =>
    obtain ⟨ack, v, rs, rfl, -, h2⟩ := grants_cons hg
    simp [rxEvents, received, ih rs h2]

theorem rxAll_played (n : Nat) (s : State) (rs : List BusReply) (rest : List (Option BusReply))
    (hg : grants (rxEvents n) rs = true) (h : s.env.bus = rs.map some ++ rest) :
    rxAll n s = .done (received (rxEvents n) rs) (played (rxEvents n) rest s) := by
  induction n generalizing s rs with
  | zero =>
    rw [grants_nil hg] at h ⊢
    simp [rxAll, rxEvents, received, played, ← show s.env.bus = rest from h]
  | succ n ih =>
    obtain ⟨ack, v, rs, rfl, h1, h2⟩ := grants_cons hg
    rw [rxAll, rxByte_played (by simpa using h), bind_done, ih _ rs h2 (by simp [played]), bind_done, played_played]
    rfl

/-- The state with a list of bytes stored at the write cursor of `RSP`. -/
def stored (data : List Byte) (s : State) : State :=
  { s with rsp := { s.rsp with store := Memory.writeList s.rsp.store s.rsp.wr data, wr := s.rsp.wr + data.length } }

theorem rxStore_played (n : Nat) (s : State) (rs : List BusReply) (rest : List (Option BusReply))
    (hg : grants (rxEvents n) rs = true) (h : s.env.bus = rs.map some ++ rest) :
    rxStore n s = .done () (stored (received (rxEvents n) rs) (played (rxEvents n) rest s)) := by
  induction n generalizing s rs with
  | zero =>
    rw [grants_nil hg] at h ⊢
    simp [rxStore, rxEvents, received, played, stored, Memory.writeList, ← show s.env.bus = rest from h]
  | succ n ih =>
    obtain ⟨ack, v, rs, rfl, h1, h2⟩ := grants_cons hg
    rw [rxStore, rxByte_played (by simpa using h), bind_done, ih _ rs h2 (by simp [played])]
    simp [stored, played, rxEvents, received, Memory.writeList, ByteBuffer.push]
    omega

theorem openPhase_played (s : State) (rs : List BusReply) (rest : List (Option BusReply))
    (hg : grants (openEvents s.phase) rs = true) (h : s.env.bus = rs.map some ++ rest) :
    openPhase s = .done () { played (openEvents s.phase) rest s with
      phase := if openEvents s.phase = [] then s.phase else .started } := by
  have h0 : ∀ rs : List BusReply, grants [] rs = true → s.env.bus = rs.map some ++ rest → played [] rest s = s := by
    intro rs hg h
    rw [grants_nil hg] at h
    rw [show rest = s.env.bus from h.symm, played_nil]
  cases hp : s.phase with
  | started =>
    rw [hp] at hg
    simp [openPhase, hp, openEvents, h0 rs hg h]
    simp [← hp]
  | reading =>
    rw [hp] at hg
    simp [openPhase, hp, openEvents, h0 rs hg h]
    simp [← hp]
  | idle =>
    rw [hp] at hg
    obtain ⟨ack, v, rs, rfl, -, h2⟩ := grants_cons hg
    rw [grants_nil h2] at h
    simp [openPhase, hp, openEvents, signal_played (e := .start) h]
  | writing =>
    rw [hp] at hg
    obtain ⟨ack, v, rs, rfl, -, h2⟩ := grants_cons hg
    rw [grants_nil h2] at h
    simp [openPhase, hp, openEvents, signal_played (e := .restart) h]
  | readDone =>
    rw [hp] at hg
    obtain ⟨ack, v, rs, rfl, -, h2⟩ := grants_cons hg
    rw [grants_nil h2] at h
    simp [openPhase, hp, openEvents, signal_played (e := .restart) h]

theorem addrPhase_played (isRead : Bool) (s : State) (a : Addr7) (rs : List BusReply) (rest : List (Option BusReply))
    (ha : s.addr = some a) (hg : grants (openEvents s.phase ++ [.tx (addrByte a isRead)]) rs = true)
    (h : s.env.bus = rs.map some ++ rest) :
    addrPhase isRead s = .done () { played (openEvents s.phase ++ [.tx (addrByte a isRead)]) rest s with
      phase := if isRead then .reading else .writing } := by
  obtain ⟨r1, r2, rfl, h1, h2, -⟩ := grants_append hg
  obtain ⟨ack, v, r3, rfl, h3, h4⟩ := grants_cons h2
  simp only [grant] at h3
  subst h3
  rw [grants_nil h4] at h
  simp only [addrPhase, ha, openPhase_played s r1 (some (.answer true v) :: rest) h1 (by simpa using h), bind_done]
  rw [txByte_played (s := { played (openEvents s.phase) (some (.answer true v) :: rest) s with
      phase := if openEvents s.phase = [] then s.phase else .started }) (v := v) (rest := rest) rfl]
  simp [played]

end Sys2Proof.Machine
end

