-- ==== Sys2Proof/Laws/Answered.lean ====
section
/-! SUPPORT. Procedures that end because every scripted bus answer arrives. -/

namespace Sys2Proof.Machine

/-- The procedure ends, and every scripted bus answer left still arrives. -/
def Answered {ε α} (x : Res ε α) : Prop :=
  (∃ a s, x = .done a s ∧ none ∉ s.env.bus) ∨ ∃ e s, x = .failed e s ∧ none ∉ s.env.bus

theorem Answered.bind {ε α β} {x : Res ε α} {f : α → State → Res ε β} (h : Answered x) (hf : ∀ a s, none ∉ s.env.bus → Answered (f a s)) : Answered (x.bind f) := by
  rcases h with ⟨a, s, rfl, h⟩ | ⟨e, s, rfl, h⟩
  · exact hf a s h
  · exact .inr ⟨e, s, rfl, h⟩

theorem emit_answered (e : BusEvent) (s : State) (h : none ∉ s.env.bus) : ∃ r t, emit e s = some (r, t) ∧ none ∉ t.env.bus := by
  unfold emit nextAnswer
  rcases hb : s.env.bus with _ | ⟨_ | r, rest⟩
  · simp
  · simp [hb] at h
  · simp [hb] at h; simp [h]

theorem signal_answered (e : BusEvent) (s : State) (h : none ∉ s.env.bus) : Answered (signal e s) := by
  obtain ⟨r, t, h1, h2⟩ := emit_answered e s h
  simp only [signal, h1]; cases r
  · exact .inr ⟨_, _, rfl, h2⟩
  · exact .inl ⟨_, _, rfl, h2⟩

theorem txByte_answered (e : Byte) (s : State) (h : none ∉ s.env.bus) : Answered (txByte e s) := by
  obtain ⟨r, t, h1, h2⟩ := emit_answered (.tx e) s h
  simp only [txByte, h1]; cases r with
  | timeout => exact .inr ⟨_, _, rfl, h2⟩
  | answer a v =>
    cases a
    · exact .inr ⟨_, _, rfl, h2⟩
    · exact .inl ⟨_, _, rfl, h2⟩

theorem rxByte_answered (e : Bool) (s : State) (h : none ∉ s.env.bus) : Answered (rxByte e s) := by
  obtain ⟨r, t, h1, h2⟩ := emit_answered (.rx e) s h
  simp only [rxByte, h1]; cases r
  · exact .inr ⟨_, _, rfl, h2⟩
  · exact .inl ⟨_, _, rfl, h2⟩

theorem txAll_answered (d : List Byte) (s : State) (h : none ∉ s.env.bus) : Answered (txAll d s) := by
  induction d generalizing s with
  | nil => exact .inl ⟨_, _, rfl, h⟩
  | cons b d ih => exact (txByte_answered b s h).bind fun _ t ht => ih t ht

theorem rxStore_answered (d : Nat) (s : State) (h : none ∉ s.env.bus) : Answered (rxStore d s) := by
  induction d generalizing s with
  | zero => exact .inl ⟨_, _, rfl, h⟩
  | succ b ih => exact (rxByte_answered _ s h).bind fun _ t ht => ih _ ht

theorem openPhase_answered (s : State) (h : none ∉ s.env.bus) : Answered (openPhase s) := by
  unfold openPhase
  split
  · exact (signal_answered _ s h).bind fun _ t ht => .inl ⟨_, _, rfl, ht⟩
  · exact (signal_answered _ s h).bind fun _ t ht => .inl ⟨_, _, rfl, ht⟩
  · exact (signal_answered _ s h).bind fun _ t ht => .inl ⟨_, _, rfl, ht⟩
  · exact .inl ⟨_, _, rfl, h⟩
  · exact .inl ⟨_, _, rfl, h⟩

theorem addrPhase_answered (w) (s : State) (h : none ∉ s.env.bus) : Answered (addrPhase w s) := by
  unfold addrPhase
  split
  · exact .inr ⟨_, _, rfl, h⟩
  · exact (openPhase_answered s h).bind fun _ t ht => (txByte_answered _ t ht).bind fun _ u hu => .inl ⟨_, _, rfl, hu⟩

theorem abort_answered (q) (s : State) (h : none ∉ s.env.bus) : ∃ t, abort q s = .next t := by
  obtain ⟨r, t, h1, h2⟩ := emit_answered .stop s h
  unfold abort; split
  · exact ⟨_, rfl⟩
  · rw [h1]; exact ⟨_, rfl⟩

theorem finish_answered {x} (p) (h : Answered x) : ∃ t, finish x p = .next t := by
  rcases h with ⟨a, s, rfl, h⟩ | ⟨e, s, rfl, h⟩
  · exact ⟨_, rfl⟩
  · exact abort_answered e s h

theorem readInto_answered (n) (s : State) (h : none ∉ s.env.bus) : ∃ t, readInto n s = .next t := by
  unfold readInto; split
  · exact ⟨_, rfl⟩
  split
  · exact abort_answered _ s h
  · exact finish_answered _ ((addrPhase_answered _ s h).bind fun _ t ht => rxStore_answered n t ht)

theorem writePayload_answered (d) (s : State) (h : none ∉ s.env.bus) : ∃ t, writePayload d s = .next t := by
  unfold writePayload; split
  · exact ⟨_, rfl⟩
  · refine finish_answered _ (Answered.bind ?_ fun _ t ht => txAll_answered d t ht)
    split
    · exact .inl ⟨_, _, rfl, h⟩
    · exact addrPhase_answered _ s h

end Sys2Proof.Machine
end

