-- ==== Sys2Proof/Laws/Transport.lean ====
section
/-! SUPPORT. What every transfer leaves as it was: the register set image, the transport, the parameters, the last
result and the host's operations. -/

namespace Sys2Proof.Machine

/-- One encoder write: all of its bytes, or none. -/

theorem encodeBytes_eq (bytes : List Byte) (s : State) :
    encodeBytes bytes s =
      if s.cmd.cap - s.cmd.wr < bytes.length then .failed .writeOverflow s
      else .done () { s with cmd := { s.cmd with
        store := Memory.writeList s.cmd.store s.cmd.wr bytes, wr := s.cmd.wr + bytes.length } } := by
  simp only [encodeBytes, ByteBuffer.write, ByteBuffer.writeRemaining]
  split <;> split <;> simp_all

/-- What one step of the main loop can be: a decoded command, or a fetch that ran out of bytes. -/

theorem stepCommand_next {s t : State} (h : stepCommand s = .next t) :
    (∃ i n, decode s.cmd.unread = .ok i n ∧ exec i (advance n s) = .next t) ∨
    (∃ w n, decode s.cmd.unread = .missing w n ∧ abort .readUnderflow (advance n s) = .next t) := by
  unfold stepCommand at h
  split at h
  · next i n hd => exact .inl ⟨i, n, hd, h⟩
  · next w n hd => exact .inr ⟨w, n, hd, h⟩

/-- The two states agree on everything a transfer leaves alone. -/
def SameImage (s t : State) : Prop :=
  t.regs = s.regs ∧ t.transport = s.transport ∧ t.params = s.params ∧ t.result = s.result ∧ t.hostOps = s.hostOps

theorem SameImage.refl (s : State) : SameImage s s := ⟨rfl, rfl, rfl, rfl, rfl⟩

theorem SameImage.trans {s t u : State} (h1 : SameImage s t) (h2 : SameImage t u) : SameImage s u :=
  ⟨h2.1.trans h1.1, h2.2.1.trans h1.2.1, h2.2.2.1.trans h1.2.2.1, h2.2.2.2.1.trans h1.2.2.2.1,
    h2.2.2.2.2.trans h1.2.2.2.2⟩

/-- The procedure, run from `s`, leaves all that alone whether it succeeds or fails. -/
def Res.Same {ε α : Type} (x : Res ε α) (s : State) : Prop :=
  x.Holds (fun _ t => SameImage s t) (fun _ t => SameImage s t)

theorem Res.Same.bind {ε α β : Type} {x : Res ε α} {f : α → State → Res ε β} {s : State} (h : x.Same s)
    (hf : ∀ a t, (f a t).Same t) : (x.bind f).Same s :=
  Res.Holds.bind h (fun a t ht => (hf a t).mono (fun _ _ hu => ht.trans hu) (fun _ _ hu => ht.trans hu)) fun _ _ h => h

theorem emit_same {e s r t} (h : emit e s = some (r, t)) : SameImage s t := by
  obtain ⟨env, rfl⟩ := emit_some h; exact SameImage.refl s

theorem signal_same (e s) : Res.Same (signal e s) s := by
  unfold signal; split
  · trivial
  · next h => exact emit_same h
  · next h => exact emit_same h

theorem txByte_same (e s) : Res.Same (txByte e s) s := by
  unfold txByte; split
  · trivial
  · next h => exact emit_same h
  · next h => split <;> exact emit_same h

theorem rxByte_same (e s) : Res.Same (rxByte e s) s := by
  unfold rxByte; split
  · trivial
  · next h => exact emit_same h
  · next h => exact emit_same h

theorem done_same {ε α} (a : α) (s) : Res.Same (Res.done a s : Res ε α) s := SameImage.refl s

theorem failed_same {ε α} (a : ε) (s) : Res.Same (Res.failed a s : Res ε α) s := SameImage.refl s

theorem txAll_same (d s) : Res.Same (txAll d s) s := by
  induction d generalizing s with
  | nil => exact done_same _ s
  | cons b d ih => exact (txByte_same b s).bind fun _ t => ih t

theorem rxAll_same (n s) : Res.Same (rxAll n s) s := by
  induction n generalizing s with
  | zero => exact done_same _ s
  | succ n ih => exact (rxByte_same _ s).bind fun _ t => (ih t).bind fun _ u => done_same _ u

theorem closeFrame_same {α} {x : Res Reason α} {s} (h : Res.Same x s) : Res.Same (closeFrame x) s := by
  unfold closeFrame; split
  · next t => split
              · trivial
              · next hu => exact SameImage.trans h (emit_same hu)
  · exact h

theorem frame_same {α} {f : State → Res Reason α} (h : ∀ t, Res.Same (f t) t) (s) : Res.Same (frame f s) s := by
  unfold frame
  exact (signal_same _ s).bind fun _ t => closeFrame_same ((h t).bind fun _ u => (signal_same _ u).bind fun _ v => done_same _ v)

theorem mapError_same {ε ε' α} {x : Res ε α} {f : ε → ε'} {s} (h : Res.Same x s) : Res.Same (x.mapError f) s := by
  cases x <;> exact h

theorem hardwareSend_same (b s) : Res.Same (hardwareSend b s) s := mapError_same (frame_same (fun t => txAll_same _ t) s)

theorem hardwareReceive_same (reg n s) : Res.Same (hardwareReceive reg n s) s := by
  refine mapError_same (frame_same (fun t => ?_) s)
  refine Res.Same.bind ?_ fun _ u => (txByte_same _ u).bind fun _ v => rxAll_same n v
  unfold pointAt; split
  · exact done_same _ t
  · exact (txAll_same _ t).bind fun _ u => signal_same _ u

theorem sendChunks_same (f r b s) : Res.Same (sendChunks f r b s) s := by
  induction f generalizing r b s with
  | zero => exact done_same _ s
  | succ f ih =>
    unfold sendChunks; split
    · exact done_same _ s
    · exact (hardwareSend_same _ s).bind fun _ t => ih _ _ t

theorem blockRead_same (r m s) : Res.Same (blockRead r m s) s := by
  refine (hardwareReceive_same _ m s).bind fun d t => ?_
  split
  · trivial
  · next c u h =>
    have : SameImage t u := by
      unfold askBlockCount at h; split at h
      · cases h; exact SameImage.refl t
      · cases h
    split <;> exact this

theorem receiveChunks_same (f r n s) : Res.Same (receiveChunks f r n s) s := by
  induction f generalizing r n s with
  | zero => exact done_same _ s
  | succ f ih =>
    unfold receiveChunks; split
    · exact done_same _ s
    · exact (blockRead_same _ _ s).bind fun _ t => (ih _ _ t).bind fun _ u => done_same _ u

theorem encodeBytes_same (bytes s) : Res.Same (encodeBytes bytes s) s := by
  rw [encodeBytes_eq]; split <;> exact SameImage.refl _

theorem encLength_same (c n s) : Res.Same (encLength c n s) s := by
  unfold encLength; split
  · trivial
  split
  · trivial
  split <;> exact encodeBytes_same _ s

theorem build_same (reg body s) : Res.Same (build reg body s) s := by
  unfold build
  refine Res.Same.bind (x := encAddress _ _) (encodeBytes_same _ _) fun _ t => Res.Same.bind ?_ fun _ t => (encodeBytes_same _ _).bind fun _ t => Res.Same.bind ?_ fun _ t => encodeBytes_same _ _
  · unfold buildRegister; split
    · exact done_same _ t
    · exact (encLength_same _ _ t).bind fun _ u => encodeBytes_same _ u
  · unfold buildBody; split
    · exact (encLength_same _ _ t).bind fun _ u => encodeBytes_same _ u
    · exact encLength_same _ _ t

theorem exec_same {i s t} (h : exec i s = .next t) : SameImage s t := by
  obtain ⟨data, tr, env, ph, ad, run, rfl, -⟩ := exec_effect i s t h; exact SameImage.refl s

theorem runCommands_same (f s t) (h : runCommands f s = .next t) : SameImage s t := by
  induction f generalizing s with
  | zero => cases h; exact SameImage.refl _
  | succ f ih =>
    rw [runCommands] at h; split at h
    · next u hu =>
      have : SameImage s u := by
        rcases stepCommand_next hu with ⟨i, n, hd, h⟩ | ⟨w, n, hd, h⟩
        · exact exec_same (s := advance n s) h
        · obtain ⟨tr, env, rfl⟩ := abort_next h; exact SameImage.refl s
      split at h
      · exact this.trans (ih u h)
      · cases h; exact this
    · cases h
    · cases h

theorem execute_same {s t} (h : execute s = .next t) : SameImage s t := by
  unfold execute at h; split at h
  · exact runCommands_same _ (beginExecution s) _ h
  · unfold executeOracle at h; split at h
    · cases h
    · next d u hu =>
      cases h
      unfold askExecution at hu; split at hu
      · cases hu; exact SameImage.refl s
      · cases hu

theorem runTransaction_same (q s) : Res.Same (runTransaction q s) s := by
  unfold runTransaction; split
  · trivial
  · trivial
  · next t h => have := execute_same h
                split <;> exact this

theorem takeReceived_same (n k s) : Res.Same (takeReceived n k s) s := by
  unfold takeReceived; split
  · exact failed_same _ s
  · simp only; split
    · exact SameImage.refl s
    · split
      · exact SameImage.refl s
      · exact SameImage.refl s

theorem sendVia_same (reg d hw s) (h : Res.Same (hw s) s) : Res.Same (sendVia reg d hw s) s := by
  unfold sendVia; split
  · split
    · exact (build_same _ _ s).bind fun _ t => (runTransaction_same _ t).bind fun _ u => done_same _ u
    · exact h
  · exact failed_same _ s

theorem receiveVia_same (reg d hw s) (h : Res.Same (hw s) s) : Res.Same (receiveVia reg d hw s) s := by
  unfold receiveVia; split
  · split
    · exact (build_same _ _ s).bind fun _ t => (runTransaction_same _ t).bind fun _ u => takeReceived_same _ _ u
    · exact h
  · exact failed_same _ s

theorem sendByte_same (v s) : Res.Same (sendByte v s) s := sendVia_same _ _ _ s (hardwareSend_same _ s)

theorem sendReg_same (r v s) : Res.Same (sendReg r v s) s := sendVia_same _ _ _ s (hardwareSend_same _ s)

theorem sendWord_same (r v s) : Res.Same (sendWord r v s) s := sendVia_same _ _ _ s (hardwareSend_same _ s)

theorem sendBlock_same (r v s) : Res.Same (sendBlock r v s) s := sendVia_same _ _ _ s (sendChunks_same _ _ _ s)

theorem receiveByte_same (s) : Res.Same (receiveByte s) s := (receiveVia_same _ _ _ s (hardwareReceive_same _ _ s)).bind fun _ t => done_same _ t

theorem receiveReg_same (r s) : Res.Same (receiveReg r s) s := (receiveVia_same _ _ _ s (hardwareReceive_same _ _ s)).bind fun _ t => done_same _ t

theorem receiveWord_same (r s) : Res.Same (receiveWord r s) s := (receiveVia_same _ _ _ s (hardwareReceive_same _ _ s)).bind fun _ t => done_same _ t

theorem receiveBlock_same (r n s) : Res.Same (receiveBlock r n s) s := receiveVia_same _ _ _ s (receiveChunks_same _ _ _ s)

theorem Res.Same.done {ε α} {x : Res ε α} {s a t} (h : Res.Same x s) (e : x = .done a t) : SameImage s t := by subst e; exact h

theorem Res.Same.failed {ε α} {x : Res ε α} {s a t} (h : Res.Same x s) (e : x = .failed a t) : SameImage s t := by subst e; exact h

end Sys2Proof.Machine
end

