-- ==== Sys2Proof/Laws/Build.lean ====
section
/-! SUPPORT. What the encoder operations and `Build` append to `CMD`, all or nothing. -/

namespace Sys2Proof.Machine

theorem lo8_ofNat (n : Nat) : lo8 (BitVec.ofNat 16 n) = BitVec.ofNat 8 (n % 256) := by
  simp only [lo8]; apply BitVec.eq_of_toNat_eq; simp

theorem hi8_ofNat (n : Nat) (h : n ≤ 65535) : hi8 (BitVec.ofNat 16 n) = BitVec.ofNat 8 (n / 256) := by
  simp only [hi8]; apply BitVec.eq_of_toNat_eq; simp [Nat.shiftRight_eq_div_pow]; omega

/-- The short form up to 255, the escaped little-endian one above (41_command_encoder.md R85, R86). -/
theorem encLength_nat (code : Byte) (n : Nat) (h : n ≤ 65535) (s : State) : encLength code n s =
      encodeBytes (if n ≤ 255 then [code, BitVec.ofNat 8 n]
        else [0x01#8, code, BitVec.ofNat 8 (n % 256), BitVec.ofNat 8 (n / 256)]) s := by
  simp only [encLength, Config.lengthMax, Config.escThreshold, BitVec.ofInt_natCast, lo8_ofNat, hi8_ofNat n h]
  rw [if_neg (by omega), if_neg (by omega)]
  split <;> split <;> first | rfl | omega

/-- The state with the bytes appended to `CMD`. -/
def appended (bytes : List Byte) (s : State) : State := { s with cmd := { s.cmd with store := Memory.writeList s.cmd.store s.cmd.wr bytes, wr := s.cmd.wr + bytes.length } }

/-- The procedure appends the bytes when they fit and fails with `WriteOverflow` when they do not. -/
def Appends (f : State → Res Status Unit) (bytes : List Byte) : Prop :=
  ∀ s : State, s.cmd.wr ≤ s.cmd.cap →
    (bytes.length ≤ s.cmd.cap - s.cmd.wr → f s = .done () (appended bytes s)) ∧
    (s.cmd.cap - s.cmd.wr < bytes.length → ∃ b, f s = .failed .writeOverflow { s with cmd := b })

theorem encodeBytes_appends (bytes) : Appends (encodeBytes bytes) bytes := by
  intro s _; rw [encodeBytes_eq]
  exact ⟨fun h => by rw [if_neg (by omega)]; rfl, fun h => ⟨s.cmd, by rw [if_pos h]⟩⟩

theorem Appends.seq {f g b1 b2} (hf : Appends f b1) (hg : Appends g b2) :
    Appends (fun s => (f s).bind fun _ t => g t) (b1 ++ b2) := by
  intro s hs
  obtain ⟨h1, h2⟩ := hf s hs
  by_cases h : b1.length ≤ s.cmd.cap - s.cmd.wr
  · simp only [h1 h, bind_done]
    obtain ⟨g1, g2⟩ := hg (appended b1 s) (by simp [appended]; omega)
    simp only [appended, List.length_append] at *
    refine ⟨fun hl => ?_, fun hl => ?_⟩
    · rw [g1 (by omega)]; simp [Memory.writeList_append, Nat.add_assoc]
    · obtain ⟨b, hb⟩ := g2 (by omega); exact ⟨b, by rw [hb]⟩
  · obtain ⟨b, hb⟩ := h2 (by omega)
    exact ⟨fun hl => by simp at hl; omega, fun _ => ⟨b, by simp only [hb]; rfl⟩⟩

theorem done_appends : Appends (fun s => .done () s) [] := by
  intro s _; exact ⟨fun _ => by simp [appended, Memory.writeList], fun h => by simp at h⟩

theorem encLength_appends (code : Byte) (n : Nat) (h : n ≤ 65535) :
    Appends (encLength code n) (if n ≤ 255 then [code, BitVec.ofNat 8 n]
      else [0x01#8, code, BitVec.ofNat 8 (n % 256), BitVec.ofNat 8 (n / 256)]) := by
  intro s; rw [encLength_nat code n h]; exact encodeBytes_appends _ s

theorem buildRegister_appends (reg) : Appends (buildRegister reg) (regStream reg) := by
  cases reg with
  | none => exact done_appends
  | some r => exact (encLength_appends 0x07#8 1 (by omega)).seq (encodeBytes_appends [r])

theorem buildBody_appends (body) (h : bodyLength body ≤ 65535) : Appends (buildBody body) (bodyStream body) := by
  cases body with
  | receive n => exact encLength_appends 0x06#8 n h
  | send d =>
    have := (encLength_appends 0x07#8 d.length h).seq (encodeBytes_appends d)
    have hs : bodyStream (.send d) = (if d.length ≤ 255 then [0x07#8, BitVec.ofNat 8 d.length]
        else [0x01#8, 0x07#8, BitVec.ofNat 8 (d.length % 256), BitVec.ofNat 8 (d.length / 256)]) ++ d := by
      simp only [bodyStream]; split <;> simp
    rw [hs]; exact this

/-- `Build` after its `clear` appends the whole stream of the operation (43_transport.md R115, R116). -/
theorem build_appends (reg body) (a : Addr7) (h : bodyLength body ≤ 65535) :
    Appends (fun s => (encAddress (a.setWidth 8) s).bind fun _ s1 =>
      (buildRegister reg s1).bind fun _ s2 =>
      (encRestart s2).bind fun _ s3 =>
      (buildBody body s3).bind fun _ s4 =>
      encStopAndEnd s4) (opStream a reg body) := by
  have := (encodeBytes_appends [0x04#8, a.setWidth 8]).seq ((buildRegister_appends reg).seq
    ((encodeBytes_appends [0x02#8]).seq ((buildBody_appends body h).seq (encodeBytes_appends [0x03#8, 0x00#8]))))
  have hs : opStream a reg body = [0x04#8, a.setWidth 8] ++
      (regStream reg ++ ([0x02#8] ++ (bodyStream body ++ [0x03#8, 0x00#8]))) := by simp [opStream]
  rw [hs]; exact this

end Sys2Proof.Machine
end

