-- ==== Sys2Proof/Laws/Codec.lean ====
section
/-! SUPPORT. The codec's arithmetic on non-negative values, which bits a BCD field touches, and which slots the
encoders of the codec write. -/

namespace Sys2Proof.Machine

/-- Division of a non-negative value. -/
theorem specDiv_nat (v d : Nat) : specDiv v d = (v / d : Nat) := by
  rw [specDiv, if_neg (by omega)]; simp

/-- Remainder of a non-negative value. -/
theorem specMod_nat (v d : Nat) : specMod v d = (v % d : Nat) := by
  rw [specMod, if_neg (by omega)]; simp

/-- The low byte of a non-negative value. -/
theorem specByte_nat (v : Nat) : specByte v = BitVec.ofNat 8 v := by
  rw [specByte, if_neg (by omega)]; exact BitVec.ofInt_natCast 8 v

/-- The digits of a non-negative value. -/
theorem bcdDigits_nat (v : Nat) (msb lsb : Byte) : bcdDigits v msb lsb = ((BitVec.ofNat 8 (v / 10) <<< 4) &&& msb) ||| (BitVec.ofNat 8 (v % 10) &&& lsb) := by
  rw [bcdDigits, show (10 : Int) = ((10 : Nat) : Int) from rfl, specDiv_nat, specMod_nat, specByte_nat, specByte_nat]

/-- A merge by replacement shows the new digits under its masks. -/
theorem and_replace_masks (r d m l : Byte) : ((r &&& ~~~(m ||| l)) ||| d) &&& m = d &&& m ∧ ((r &&& ~~~(m ||| l)) ||| d) &&& l = d &&& l := by
  constructor <;> ext i h <;> simp <;> cases r[i] <;> cases m[i] <;> cases l[i] <;> simp

/-- A merge by `or` onto clear digit bits shows the new digits under its masks. -/
theorem and_or_masks (r d m l : Byte) (h : r &&& (m ||| l) = 0#8) : (r ||| d) &&& m = d &&& m ∧ (r ||| d) &&& l = d &&& l := by
  have h1 : ∀ i (hi : i < 8), (r[i] && (m[i] || l[i])) = false := by
    intro i hi
    have := congrArg (fun b : Byte => b[i]) h
    simpa using this
  constructor <;> ext i hi <;> have := h1 i hi <;> simp <;> revert this <;> cases r[i] <;> cases m[i] <;> cases l[i] <;> simp

/-- A BCD field leaves every bit outside its masks. -/
theorem bcdMerge_outside (mg : BcdMerge) (r : Byte) (v : Int) (msb m : Byte) (hm : m &&& (msb ||| 0x0F#8) = 0#8) : bcdMerge mg r v msb 0x0F#8 &&& m = r &&& m := by
  have h1 : ∀ i (hi : i < 8), (m[i] && (msb[i] || (0x0F#8)[i])) = false := by
    intro i hi
    have := congrArg (fun b : Byte => b[i]) hm
    simpa using this
  cases mg <;> simp only [bcdMerge, bcdDigits] <;> generalize specByte _ <<< 4 = x <;> generalize specByte _ = y <;> ext i hi <;> have := h1 i hi <;> simp at this ⊢ <;> revert this <;> generalize (Nat.testBit 15 i) = q <;>
    cases r[i] <;> cases m[i] <;> cases msb[i] <;> cases x[i] <;> cases y[i] <;> cases q <;> simp

/-- A BCD field over clear digit bits adds the digits, under either merge. -/
theorem bcdMerge_digitByte (mg : BcdMerge) (r : Byte) (v : Nat) (msb : Byte) (hm : r &&& (msb ||| 0x0F#8) = 0#8) :
    bcdMerge mg r v msb 0x0F#8 = r ||| digitByte v msb := by
  have hd : bcdDigits v msb 0x0F#8 = digitByte v msb := bcdDigits_nat v msb 0x0F#8
  have h : r &&& ~~~(msb ||| 0x0F#8) = r := by
    generalize msb ||| 0x0F#8 = m at hm
    ext i hi
    have := congrArg (fun b : Byte => b[i]) hm
    simp at this ⊢; revert this; cases r[i] <;> cases m[i] <;> simp
  cases mg <;> simp only [bcdMerge, hd, h]

/-- A BCD field over a clear byte is its digits. -/
theorem bcdMerge_zero (mg : BcdMerge) (v : Nat) (msb : Byte) : bcdMerge mg 0#8 v msb 0x0F#8 = digitByte v msb := by
  rw [bcdMerge_digitByte _ _ _ _ (by simp)]; simp

/-- The byte the hour encoder leaves in a clear slot. -/
theorem getReg_encodeHour (h : Nat) (t : RtcTime) (hr : Nat) (s : State) (hh : h < 19) (ht : t.hour = hr)
    (z : getReg h s = 0#8) : getReg h (encodeHour h t s) = hourByte t.mode t.pm hr := by
  obtain ⟨hour, minute, second, mode, pm⟩ := t
  simp only at ht; subst ht
  have m1 := bcdMerge_digitByte s.params.bcdMerge 0x40#8 hr 0x10#8 (by decide)
  have m2 := bcdMerge_digitByte s.params.bcdMerge 0x60#8 hr 0x10#8 (by decide)
  cases mode <;> cases pm <;> simp [encodeHour, toBcd, setBit, hh, z, hr24Msb, hr12Msb, lsb4, withBits,
    mode12, pmBit, bcdMerge_zero, m1, m2, hourByte]

/-- The hour encoder writes its own slot only. -/
theorem getReg_encodeHour_other (h : Nat) (t : RtcTime) (s : State) (j : Nat) (hj : h ≠ j) : getReg j (encodeHour h t s) = getReg j s := by
  unfold encodeHour
  split
  · simp only
    split <;> simp [toBcd, setBit, getReg_putReg, hj]
  · simp [toBcd, getReg_putReg, hj]

/-- A slot after the exclude bits were set. -/
theorem getReg_setExclusions (sch iv) (fs : List AlarmField) (s : State) (j : Nat) (hf : ∀ f ∈ fs, f.reg < 19) :
   getReg j (setExclusions sch iv fs s) = if (∃ f ∈ fs, f.reg = j ∧ excluded sch f.rank iv = true) then getReg j s ||| exclBit else getReg j s := by
  induction fs generalizing s with
  | nil => simp [setExclusions]
  | cons f fs ih =>
    have h19 := hf f (by simp)
    rw [setExclusions, ih _ (fun f h => hf f (by simp [h]))]
    have idem : ∀ b : Byte, b ||| exclBit ||| exclBit = b ||| exclBit := by decide
    by_cases he : excluded sch f.rank iv = true
    · by_cases hj : f.reg = j
      · subst hj; simp [he, setBit, h19, withBits, idem]
      · simp [he, hj, setBit, getReg_putReg]
    · simp [he]

/-- The day encoder writes its own slot only. -/
theorem getReg_encodeDay_other (d j : Nat) (a : RtcAlarm) (s : State) (h : d ≠ j) : getReg j (encodeDay d a s) = getReg j s := by
  unfold encodeDay; split <;> simp [setBit, toBcd, getReg_putReg, h]

/-- The byte the day encoder leaves in a clear slot. -/
theorem getReg_encodeDay (d : Nat) (a : RtcAlarm) (wd day : Nat) (s : State) (hd : d < 19) (h1 : a.weekday = wd)
    (h2 : a.day = day) (z : getReg d s = 0#8) : getReg d (encodeDay d a s) =
      if a.interval = .weekDay then 0x40#8 ||| (BitVec.ofNat 8 wd &&& 0x0F#8) else digitByte day 0x30#8 := by
  unfold encodeDay
  split <;> simp [toBcd, setBit, hd, z, lsb4, withBits, dydt, adayWdayMask, h1, h2, specByte_nat,
    dateMsb, bcdMerge_zero]

/-- The update changes the register set image only. -/
def RegsOnly (f : State → State) : Prop := ∀ s, f s = { s with regs := (f s).regs }

theorem RegsOnly.comp {f g} (hf : RegsOnly f) (hg : RegsOnly g) : RegsOnly (fun s => g (f s)) := by
  intro s
  have h1 := hf s
  have h2 := hg (f s)
  beta_reduce
  generalize f s = t at *
  rw [h1] at h2 ⊢
  exact h2

theorem regsOnly_putReg (i) (v : State → Byte) : RegsOnly (fun s => putReg i (v s) s) := fun _ => rfl

theorem regsOnly_toBcd (i v m l) : RegsOnly (toBcd i v m l) := fun _ => rfl

theorem regsOnly_setBit (i m) : RegsOnly (setBit i m) := fun _ => rfl

theorem regsOnly_removeBit (i m) : RegsOnly (removeBit i m) := fun _ => rfl

theorem regsOnly_id : RegsOnly (fun s => s) := fun _ => rfl

theorem regsOnly_encodeHour (h t) : RegsOnly (encodeHour h t) := by
  intro s; unfold encodeHour; split
  · simp only; split <;> rfl
  · rfl

theorem regsOnly_encodeDateTime (dt) : RegsOnly (encodeDateTime dt) := by
  have h7 : RegsOnly (fun s => if 2000 ≤ dt.year then setBit regMonth century s else s) := by
    by_cases h : 2000 ≤ dt.year
    · simp only [h, if_true]; exact regsOnly_setBit _ _
    · simp only [h, if_false]; exact regsOnly_id
  exact (((((((regsOnly_toBcd regSeconds dt.second secMsb lsb4).comp (regsOnly_toBcd regMinutes dt.minute minMsb lsb4)).comp (regsOnly_encodeHour regHours dt.toRtcTime)).comp (regsOnly_putReg regWeekDay (fun _ => specByte dt.weekday &&& wdayMask))).comp (regsOnly_toBcd regDate dt.day dateMsb lsb4)).comp (regsOnly_toBcd regMonth dt.month monthMsb lsb4)).comp h7).comp (regsOnly_toBcd regYear (specMod dt.year 100) yearMsb lsb4)

theorem regsOnly_setExclusions (sch iv fs) : RegsOnly (setExclusions sch iv fs) := by
  induction fs with
  | nil => exact regsOnly_id
  | cons f fs ih =>
    intro s; unfold setExclusions; rw [ih]; split <;> rfl

theorem regsOnly_encodeDay (d a) : RegsOnly (encodeDay d a) := by
  intro s; unfold encodeDay; split <;> rfl

theorem regsOnly_encodeAlarm (id a) : RegsOnly (encodeAlarm id a) := by
  intro s
  unfold encodeAlarm
  simp only
  rw [regsOnly_setExclusions, regsOnly_encodeDay, regsOnly_encodeHour]
  cases id <;> rfl

end Sys2Proof.Machine
end

