-- ==== Sys2Proof/Laws/Decode.lean ====
section
/-! SUPPORT. How many bytes the decoder takes. -/

namespace Sys2Proof.Machine

/-- An accepted command has at least one byte and no more than there are. -/
theorem decode_length {bs i n} (h : decode bs = .ok i n) : 1 ≤ n ∧ n ≤ bs.length := by
  have hp : ∀ mk hd k (b : List Byte), decodePayload mk hd k b = .ok i n → n = hd + k ∧ k ≤ b.length := by
    intro mk hd k b h
    unfold decodePayload at h
    split at h <;> cases h
    exact ⟨rfl, by omega⟩
  cases bs with
  | nil => simp [decode] at h
  | cons op rest =>
    simp only [decode] at h
    split at h
    · cases h; simp
    split at h
    · cases rest with
      | nil => simp [decodeEscaped] at h
      | cons op rest =>
        simp only [decodeEscaped] at h
        split at h
        · split at h <;> cases h
          simp
        split at h
        · split at h
          · have := hp _ _ _ _ h
            simp only [List.length_cons]; omega
          · cases h
          · cases h
        · cases h; simp
    split at h
    · cases h; simp
    split at h
    · cases h; simp
    split at h
    · split at h <;> cases h
      simp
    split at h
    · cases h; simp
    split at h
    · split at h <;> cases h
      simp
    split at h
    · split at h
      · have := hp _ _ _ _ h
        simp only [List.length_cons]; omega
      · cases h
    · cases h; simp

/-- A fetch that runs out has consumed no more bytes than there were. -/
theorem decode_missing_length {bs w n} (h : decode bs = .missing w n) : n ≤ bs.length := by
  have hp : ∀ mk hd k (b : List Byte), decodePayload mk hd k b = .missing w n → n = hd := by
    intro mk hd k b h; unfold decodePayload at h; split at h <;> cases h; rfl
  cases bs with
  | nil => simp [decode] at h; simp [h]
  | cons op rest =>
    simp only [decode] at h
    split at h; · cases h
    split at h
    · cases rest with
      | nil => simp [decodeEscaped] at h; simp [h]
      | cons op rest =>
        simp only [decodeEscaped] at h
        split at h
        · split at h
          · cases h
          · cases h; simp
          · cases h; simp
        split at h
        · split at h
          · have := hp _ _ _ _ h; simp; omega
          · cases h; simp
          · cases h; simp
        · cases h
    split at h; · cases h
    split at h; · cases h
    split at h
    · split at h
      · cases h
      · cases h; simp
    split at h; · cases h
    split at h
    · split at h
      · cases h
      · cases h; simp
    split at h
    · split at h
      · have := hp _ _ _ _ h; simp; omega
      · cases h; simp
    · cases h

end Sys2Proof.Machine
end

