-- ==== Sys2Proof/Laws/Frames.lean ====
section
/-! SUPPORT. The hardware frames and chunks when every event is granted (43_transport.md R120, R121). -/

namespace Sys2Proof.Machine

theorem closeFrame_done {α} (a : α) (s : State) : closeFrame (.done a s) = .done a s := rfl

theorem writeFrame_played (bytes : List Byte) (s : State) (rs : List BusReply) (rest : List (Option BusReply))
   (hg : grants (writeFrameEvents s.transport.addr7 bytes) rs = true) (hb : s.env.bus = rs.map some ++ rest) :
   writeFrame bytes s = .done () (played (writeFrameEvents s.transport.addr7 bytes) rest s) := by
  rw [writeFrameEvents, show ([BusEvent.start, .tx (addrByte s.transport.addr7 false)] ++ bytes.map .tx ++ [.stop]) = .start :: ((addrByte s.transport.addr7 false :: bytes).map .tx ++ [.stop]) by simp] at hg ⊢
  obtain ⟨ak, v, r, rfl, -, h2⟩ := grants_cons hg
  obtain ⟨r1, r2, rfl, g1, g2, -⟩ := grants_append h2
  obtain ⟨ak', v', r3, rfl, -, g3⟩ := grants_cons g2
  rw [grants_nil g3] at hb
  unfold writeFrame frame
  rw [signal_played (rest := r1.map some ++ (some (.answer ak' v') :: rest)) (by simpa using hb), bind_done]
  beta_reduce
  rw [txAll_played _ _ r1 (some (.answer ak' v') :: rest) g1 (by simp), bind_done, signal_played (rest := rest) (ack := ak') (v := v') (by simp), bind_done, closeFrame_done]
  simp [played]

theorem hardwareSend_played (bytes : List Byte) (s : State) (rs : List BusReply) (rest : List (Option BusReply))
   (hg : grants (writeFrameEvents s.transport.addr7 bytes) rs = true) (hb : s.env.bus = rs.map some ++ rest) :
   hardwareSend bytes s = .done () (played (writeFrameEvents s.transport.addr7 bytes) rest s) := by
  rw [hardwareSend, writeFrame_played bytes s rs rest hg hb]; rfl

theorem sendChunks_played (fuel : Nat) (r : Byte) (buf : List Byte) (s : State) (rs : List BusReply) (rest : List (Option BusReply))
   (hg : grants (sendFrames s.transport.addr7 fuel r buf) rs = true) (hb : s.env.bus = rs.map some ++ rest) :
   sendChunks fuel r buf s = .done () (played (sendFrames s.transport.addr7 fuel r buf) rest s) := by
  induction fuel generalizing r buf s rs with
  | zero => rw [grants_nil hg] at hb; simp [sendChunks, sendFrames, ← show s.env.bus = rest from hb]
  | succ fuel ih =>
    simp only [sendChunks, sendFrames] at *
    by_cases h : buf.length = 0
    · simp only [h, if_true] at *
      rw [grants_nil hg] at hb; simp [← show s.env.bus = rest from hb]
    · simp only [h, if_false] at *
      obtain ⟨r1, r2, rfl, g1, g2, -⟩ := grants_append hg
      rw [hardwareSend_played _ s r1 (r2.map some ++ rest) g1 (by simpa using hb), bind_done]
      have := ih (r + 32#8) (buf.drop 32) (played (writeFrameEvents s.transport.addr7 (r :: buf.take 32)) (r2.map some ++ rest) s) r2 g2 rfl
      simp only [played_transport, played_played] at this
      exact this

theorem sendFrames_one (a : Addr7) (r : Byte) (d : List Byte) (h : 0 < d.length) (h2 : d.length ≤ 32) : sendFrames a d.length r d = writeFrameEvents a (r :: d) := by
  obtain ⟨k, hk⟩ : ∃ k, d.length = k + 1 := ⟨d.length - 1, by omega⟩
  rw [hk, sendFrames, if_neg (by omega), List.take_of_length_le (by omega), List.drop_of_length_le (by omega)]
  cases k <;> simp [sendFrames]

theorem pointAt_played (reg : Option Byte) (s : State) (rs : List BusReply) (rest : List (Option BusReply))
   (hg : grants ((pointerEvents s.transport.addr7 reg).tail) rs = true) (hb : s.env.bus = rs.map some ++ rest) :
   pointAt reg s = .done () (played ((pointerEvents s.transport.addr7 reg).tail) rest s) := by
  cases reg with
  | none => simp only [pointerEvents, List.tail] at *; rw [grants_nil hg] at hb; simp [pointAt, ← show s.env.bus = rest from hb]
  | some r =>
    simp only [pointerEvents, List.tail] at *
    rw [show [BusEvent.tx (addrByte s.transport.addr7 false), .tx r, .restart] = [addrByte s.transport.addr7 false, r].map .tx ++ [.restart] from rfl] at hg ⊢
    obtain ⟨r1, r2, rfl, g1, g2, -⟩ := grants_append hg
    obtain ⟨ak', v', r3, rfl, -, g3⟩ := grants_cons g2
    rw [grants_nil g3] at hb
    rw [pointAt, txAll_played _ s r1 (some (.answer ak' v') :: rest) g1 (by simpa using hb), bind_done, signal_played (rest := rest) (ack := ak') (v := v') (by simp), played_played]

theorem readFrame_played (reg : Option Byte) (n : Nat) (s : State) (rs : List BusReply) (rest : List (Option BusReply))
   (hg : grants (readFrameEvents s.transport.addr7 reg n) rs = true) (hb : s.env.bus = rs.map some ++ rest) :
   readFrame reg n s = .done (received (readFrameEvents s.transport.addr7 reg n) rs) (played (readFrameEvents s.transport.addr7 reg n) rest s) := by
  have e : readFrameEvents s.transport.addr7 reg n = .start :: ((pointerEvents s.transport.addr7 reg).tail ++ ([.tx (addrByte s.transport.addr7 true)] ++ (rxEvents n ++ [.stop]))) := by
    cases reg <;> simp [readFrameEvents, pointerEvents]
  rw [e] at hg ⊢
  obtain ⟨ak, v, r, rfl, -, h2⟩ := grants_cons hg
  obtain ⟨r1, r2, rfl, g1, g2, e1⟩ := grants_append h2
  obtain ⟨r3, r4, rfl, g3, g4, e2⟩ := grants_append g2
  obtain ⟨r5, r6, rfl, g5, g6, e3⟩ := grants_append g4
  obtain ⟨ak', v', r7, rfl, -, g7⟩ := grants_cons g6
  obtain ⟨ak'', v'', r8, rfl, g8, g9⟩ := grants_cons g3
  have := grants_nil g7; subst this
  have := grants_nil g9; subst this
  simp only [grant] at g8; subst g8
  have z : received ((pointerEvents s.transport.addr7 reg).tail) r1 = [] := by
      cases reg <;> simp only [pointerEvents, List.tail] at * <;> rcases r1 with _ | ⟨_, _ | ⟨_, _ | ⟨_, _⟩⟩⟩ <;> simp [received]
  have z2 : received (BusEvent.start :: ((pointerEvents s.transport.addr7 reg).tail ++ ([.tx (addrByte s.transport.addr7 true)] ++ (rxEvents n ++ [.stop])))) (.answer ak v :: (r1 ++ ([.answer true v''] ++ (r5 ++ [.answer ak' v'])))) = received (rxEvents n) r5 := by
    simp only [received]
    rw [e1, e2, e3, z]; simp [received]
  rw [z2]
  unfold readFrame frame
  rw [signal_played (rest := r1.map some ++ (some (.answer true v'') :: (r5.map some ++ some (.answer ak' v') :: rest))) (by simpa using hb), bind_done]
  beta_reduce
  rw [pointAt_played reg _ r1 (some (.answer true v'') :: (r5.map some ++ some (.answer ak' v') :: rest)) (by simpa using g1) (by simp), bind_done]
  rw [txByte_played (rest := r5.map some ++ some (.answer ak' v') :: rest) (v := v'') (by simp), bind_done, rxAll_played n _ r5 (some (.answer ak' v') :: rest) g5 (by simp), bind_done, signal_played (rest := rest) (ack := ak') (v := v') (by simp), bind_done, closeFrame_done]
  simp [played]

theorem leWord_eq : ∀ a b : Byte, leWord a b = BitVec.ofNat 16 (a.toNat + 256 * b.toNat) := by
    intro a b
    apply BitVec.eq_of_toNat_eq
    have := a.isLt
    have := b.isLt
    simp only [leWord, BitVec.toNat_append, BitVec.toNat_ofNat]
    rw [← Nat.shiftLeft_add_eq_or_of_lt (by omega)]
    simp only [Nat.shiftLeft_eq]; omega

theorem blockRead_played (r : Byte) (m c : Nat) (s : State) (rs : List BusReply) (rest : List (Option BusReply)) (crest)
   (hg : grants (readFrameEvents s.transport.addr7 (some r) m) rs = true) (hb : s.env.bus = rs.map some ++ rest) (hc : s.env.blockCounts = some c :: crest) (hm : m ≤ c) :
   blockRead r m s = .done (received (readFrameEvents s.transport.addr7 (some r) m) rs) { played (readFrameEvents s.transport.addr7 (some r) m) rest s with env := { s.env with bus := rest, blockCounts := crest } } := by
  rw [blockRead, hardwareReceive, readFrame_played _ _ s rs rest hg hb]
  simp [Res.mapError, askBlockCount, nextAnswer, hc, show ¬ c < m by omega]

end Sys2Proof.Machine
end

