-- ==== Sys2Proof/Laws/Keeps.lean ====
section
/-! SUPPORT. What a procedure between executions keeps: sound buffers, the bus position, the configuration. -/

namespace Sys2Proof.Machine

/-- The invariant of a block with no execution in progress. -/
def QuietInv (s : State) : Prop := s.cmd.Sound ∧ s.rsp.Sound ∧ s.phase = .idle

/-- The second state meets the invariant if the first does, and has its parameters, configuration and capacities. -/
structure Kept (s t : State) : Prop where
  inv : QuietInv s → QuietInv t
  params : t.params = s.params
  kind : t.transport.kind = s.transport.kind
  addr7 : t.transport.addr7 = s.transport.addr7
  adapter : t.transport.adapter = s.transport.adapter
  cmd : t.cmd.cap = s.cmd.cap
  rsp : t.rsp.cap = s.rsp.cap

theorem Kept.refl (s) : Kept s s := ⟨id, rfl, rfl, rfl, rfl, rfl, rfl⟩

theorem Kept.trans {s t u} (h1 : Kept s t) (h2 : Kept t u) : Kept s u :=
  ⟨fun h => h2.inv (h1.inv h), h2.params.trans h1.params, h2.kind.trans h1.kind, h2.addr7.trans h1.addr7, h2.adapter.trans h1.adapter, h2.cmd.trans h1.cmd, h2.rsp.trans h1.rsp⟩

/-- A change of the trace, the answers, the registers, the result, the operations or the handle alone. -/
theorem Kept.light {s t : State} (h : ∃ tr env rg res ops op rn ad, t = { s with trace := tr, env := env, regs := rg, result := res, hostOps := ops, transport := { s.transport with isOpen := op }, run := rn, addr := ad }) : Kept s t := by
  obtain ⟨tr, env, rg, res, ops, op, rn, ad, rfl⟩ := h
  exact ⟨fun h => h, rfl, rfl, rfl, rfl, rfl, rfl⟩

/-- The procedure, run from the state, keeps all that whether it succeeds or fails. -/
def Keeps {ε α} (x : Res ε α) (s : State) : Prop := x.Holds (fun _ t => Kept s t) (fun _ t => Kept s t)

theorem Keeps.bind {ε α β} {x : Res ε α} {f : α → State → Res ε β} {s} (h : Keeps x s) (hf : ∀ a t, Keeps (f a t) t) : Keeps (x.bind f) s :=
  Res.Holds.bind h (fun a t ht => (hf a t).mono (fun _ _ hu => ht.trans hu) (fun _ _ hu => ht.trans hu)) (fun _ _ h => h)

theorem emit_rel {e s r t} (h : emit e s = some (r, t)) : Kept s t := by
  obtain ⟨env, rfl⟩ := emit_some h
  exact Kept.light ⟨_, env, s.regs, s.result, s.hostOps, s.transport.isOpen, s.run, s.addr, rfl⟩

theorem signal_keeps (e s) : Keeps (signal e s) s := by
  unfold signal; split
  · trivial
  · next h => exact emit_rel h
  · next h => exact emit_rel h

theorem txByte_keeps (e s) : Keeps (txByte e s) s := by
  unfold txByte; split
  · trivial
  · next h => exact emit_rel h
  · next h => split <;> exact emit_rel h

theorem rxByte_keeps (e s) : Keeps (rxByte e s) s := by
  unfold rxByte; split
  · trivial
  · next h => exact emit_rel h
  · next h => exact emit_rel h

theorem done_keeps {ε α} (a : α) (s) : Keeps (Res.done a s : Res ε α) s := Kept.refl s

theorem failed_keeps {ε α} (a : ε) (s) : Keeps (Res.failed a s : Res ε α) s := Kept.refl s

theorem txAll_keeps (d s) : Keeps (txAll d s) s := by
  induction d generalizing s with
  | nil => exact done_keeps _ s
  | cons b d ih => exact (txByte_keeps b s).bind fun _ t => ih t

theorem rxAll_keeps (n s) : Keeps (rxAll n s) s := by
  induction n generalizing s with
  | zero => exact done_keeps _ s
  | succ n ih => exact (rxByte_keeps _ s).bind fun _ t => (ih t).bind fun _ u => done_keeps _ u

theorem closeFrame_keeps {α} {x : Res Reason α} {s} (h : Keeps x s) : Keeps (closeFrame x) s := by
  unfold closeFrame; split
  · next t => split
              · trivial
              · next hu => exact Kept.trans h (emit_rel hu)
  · exact h

theorem frame_keeps {α} {f : State → Res Reason α} (h : ∀ t, Keeps (f t) t) (s) : Keeps (frame f s) s := by
  unfold frame
  exact (signal_keeps _ s).bind fun _ t => closeFrame_keeps ((h t).bind fun _ u => (signal_keeps _ u).bind fun _ v => done_keeps _ v)

theorem mapError_keeps {ε ε' α} {x : Res ε α} {f : ε → ε'} {s} (h : Keeps x s) : Keeps (x.mapError f) s := by
  cases x <;> exact h

theorem hardwareSend_keeps (b s) : Keeps (hardwareSend b s) s := mapError_keeps (frame_keeps (fun t => txAll_keeps _ t) s)

theorem hardwareReceive_keeps (reg n s) : Keeps (hardwareReceive reg n s) s := by
  refine mapError_keeps (frame_keeps (fun t => ?_) s)
  refine Keeps.bind ?_ fun _ u => (txByte_keeps _ u).bind fun _ v => rxAll_keeps n v
  unfold pointAt; split
  · exact done_keeps _ t
  · exact (txAll_keeps _ t).bind fun _ u => signal_keeps _ u

theorem sendChunks_keeps (f r b s) : Keeps (sendChunks f r b s) s := by
  induction f generalizing r b s with
  | zero => exact done_keeps _ s
  | succ f ih =>
    unfold sendChunks; split
    · exact done_keeps _ s
    · exact (hardwareSend_keeps _ s).bind fun _ t => ih _ _ t

theorem blockRead_keeps (r m s) : Keeps (blockRead r m s) s := by
  refine (hardwareReceive_keeps _ m s).bind fun d t => ?_
  split
  · trivial
  · next c u h =>
    have : Kept t u := by
      unfold askBlockCount at h; split at h
      · cases h; exact Kept.light ⟨_, _, t.regs, t.result, t.hostOps, t.transport.isOpen, t.run, t.addr, rfl⟩
      · cases h
    split <;> exact this

theorem receiveChunks_keeps (f r n s) : Keeps (receiveChunks f r n s) s := by
  induction f generalizing r n s with
  | zero => exact done_keeps _ s
  | succ f ih =>
    unfold receiveChunks; split
    · exact done_keeps _ s
    · exact (blockRead_keeps _ _ s).bind fun _ t => (ih _ _ t).bind fun _ u => done_keeps _ u

theorem sound_write {b : ByteBuffer} (bytes) (h : b.Sound) (hl : bytes.length ≤ b.cap - b.wr) : ({ b with store := Memory.writeList b.store b.wr bytes, wr := b.wr + bytes.length } : ByteBuffer).Sound := by
  obtain ⟨h1, h2, h3, h4⟩ := h
  refine ⟨by simp only; omega, by simp only; omega, Memory.writeList_wf _ _ _ h3, fun c hc => ?_⟩
  rcases Memory.mem_writeList _ _ _ _ hc with h | ⟨-, h⟩
  · exact h4 c h
  · simp only; omega

theorem encodeBytes_keeps (bytes s) : Keeps (encodeBytes bytes s) s := by
  rw [encodeBytes_eq]; split
  · exact Kept.refl s
  · exact ⟨fun ⟨h1, h2, h3⟩ => ⟨sound_write bytes h1 (by omega), h2, h3⟩, rfl, rfl, rfl, rfl, rfl, rfl⟩

theorem encLength_keeps (c n s) : Keeps (encLength c n s) s := by
  unfold encLength; split
  · trivial
  split
  · trivial
  split <;> exact encodeBytes_keeps _ s

theorem clear_sound (b : ByteBuffer) : b.clear.Sound := ⟨by simp, by simp, Memory.nil_wf, by simp⟩

theorem rewind_sound {b : ByteBuffer} (h : b.Sound) : b.rewind.Sound := ⟨by simp, by simp, h.2.2.1, h.2.2.2⟩

theorem fresh_sound (n) : (ByteBuffer.fresh n).Sound := ⟨by simp, by simp, Memory.nil_wf, by simp⟩

theorem build_keeps (reg body s) : Keeps (build reg body s) s := by
  unfold build
  have h : Kept s { s with cmd := s.cmd.clear } := ⟨fun ⟨h1, h2, h3⟩ => ⟨clear_sound _, h2, h3⟩, rfl, rfl, rfl, rfl, rfl, rfl⟩
  have : Keeps ((encAddress (s.transport.addr7.setWidth 8) { s with cmd := s.cmd.clear }).bind fun _ s1 =>
    (buildRegister reg s1).bind fun _ s2 =>
    (encRestart s2).bind fun _ s3 =>
    (buildBody body s3).bind fun _ s4 =>
    encStopAndEnd s4) { s with cmd := s.cmd.clear } := by
    refine (encodeBytes_keeps _ _).bind fun _ t => Keeps.bind ?_ fun _ t => (encodeBytes_keeps _ _).bind fun _ t => Keeps.bind ?_ fun _ t => encodeBytes_keeps _ _
    · unfold buildRegister; split
      · exact done_keeps _ t
      · exact (encLength_keeps _ _ t).bind fun _ u => encodeBytes_keeps _ u
    · unfold buildBody; split
      · exact (encLength_keeps _ _ t).bind fun _ u => encodeBytes_keeps _ u
      · exact encLength_keeps _ _ t
  exact Res.Holds.mono this (fun _ _ hu => h.trans hu) (fun _ _ hu => h.trans hu)

end Sys2Proof.Machine
end

