-- ==== Sys2Proof/Laws/PerInstr.lean ====
section
/-! SUPPORT. Statements made of each command as syntax, one lemma for each constructor. -/

namespace Sys2Proof.Laws.EncodingLength

/-- A command's encoding is as long as the stream position advances over it (30_encoding.md R60), and no command is
empty (42_sequencer.md R108). -/
def Statement (i : Instr) : Prop := (encode i).length = i.length ∧ 1 ≤ i.length

theorem endCmd : Statement .endCmd := ⟨rfl, by simp [Instr.length]⟩

theorem escape (op : Byte) : Statement (.escape op) := ⟨rfl, by simp [Instr.length]⟩

theorem start : Statement .start := ⟨rfl, by simp [Instr.length]⟩

theorem stop : Statement .stop := ⟨rfl, by simp [Instr.length]⟩

theorem addr (a : Byte) : Statement (.addr a) := ⟨rfl, by simp [Instr.length]⟩

theorem flags : Statement .flags := ⟨rfl, by simp [Instr.length]⟩

theorem read (n : Byte) : Statement (.read n) := ⟨rfl, by simp [Instr.length]⟩

theorem write (d : List Byte) : Statement (.write d) := by
  simp [Statement, encode, Instr.length]; omega

theorem escRead (n : Word) : Statement (.escRead n) := ⟨rfl, by simp [Instr.length]⟩

theorem escWrite (d : List Byte) : Statement (.escWrite d) := by
  simp [Statement, encode, Instr.length]; omega

theorem illegal (op : Byte) : Statement (.illegal op) := ⟨rfl, by simp [Instr.length]⟩

end Sys2Proof.Laws.EncodingLength
end

