-- ==== Sys2Proof/Laws/Refusal.lean ====
section
/-! SUPPORT. What the bus procedures do at the first event the environment refuses or never answers: they stop there,
with the events up to it on the trace, or are stuck. -/

namespace Sys2Proof.Machine

/-- Why an answer refuses an event, if it does: `Timeout` refuses every event, `Nack` a `TX`. -/
def refusal : BusEvent → BusReply → Option Reason
  | _, .timeout => some .timeout
  | .tx _, .answer false _ => some .nack
  | _, _ => none

theorem txByte_refused {b : Byte} {s : State} {r : BusReply} {q : Reason} {rest} (h : refusal (.tx b) r = some q)
   (hb : s.env.bus = some r :: rest) : txByte b s = .failed q (played [.tx b] rest s) := by
  cases r with
  | timeout => cases h; simp [txByte, emit_script hb]
  | answer a v => cases a <;> cases h; simp [txByte, emit_script hb]

theorem rxByte_refused {b : Bool} {s : State} {r : BusReply} {q : Reason} {rest} (h : refusal (.rx b) r = some q)
   (hb : s.env.bus = some r :: rest) : rxByte b s = .failed q (played [.rx b] rest s) := by
  cases r with
  | timeout => cases h; simp [rxByte, emit_script hb]
  | answer a v => cases a <;> cases h

theorem signal_refused {e : BusEvent} {s : State} {r : BusReply} {q : Reason} {rest} (he : ∀ b, e ≠ .tx b) (h : refusal e r = some q)
   (hb : s.env.bus = some r :: rest) : signal e s = .failed q (played [e] rest s) := by
  cases r with
  | timeout => cases h; simp [signal, emit_script hb]
  | answer a v => cases e <;> cases a <;> simp [refusal] at h; simp at he

theorem txAll_refused (d : List Byte) (s : State) (pre post : List BusEvent) (e : BusEvent) (rs : List BusReply) (r : BusReply) (q : Reason)
   (rest : List (Option BusReply)) (hd : d.map .tx = pre ++ e :: post) (hg : grants pre rs = true) (h : refusal e r = some q)
   (hb : s.env.bus = rs.map some ++ some r :: rest) : txAll d s = .failed q (played (pre ++ [e]) rest s) := by
  induction d generalizing s pre rs with
  | nil => simp at hd
  | cons b d ih =>
    cases pre with
    | nil =>
      rw [grants_nil hg] at hb
      simp only [List.map_cons, List.nil_append, List.cons.injEq] at hd
      obtain ⟨rfl, -⟩ := hd
      rw [txAll, txByte_refused h (by simpa using hb)]; rfl
    | cons e' pre =>
      obtain ⟨ack, v, rs, rfl, h1, h2⟩ := grants_cons hg
      simp only [List.map_cons, List.cons_append, List.cons.injEq] at hd
      obtain ⟨rfl, hd⟩ := hd
      simp only [grant] at h1; subst h1
      rw [txAll, txByte_played (by simpa using hb), bind_done, ih _ pre rs hd h2 (by simp), played_played]; rfl

theorem rxStore_refused (n : Nat) (s : State) (pre post : List BusEvent) (e : BusEvent) (rs : List BusReply) (r : BusReply) (q : Reason)
   (rest : List (Option BusReply)) (hd : rxEvents n = pre ++ e :: post) (hg : grants pre rs = true) (h : refusal e r = some q)
   (hb : s.env.bus = rs.map some ++ some r :: rest) : rxStore n s = .failed q (stored (received pre rs) (played (pre ++ [e]) rest s)) := by
  induction n generalizing s pre rs with
  | zero => simp [rxEvents] at hd
  | succ n ih =>
    cases pre with
    | nil =>
      rw [grants_nil hg] at hb ⊢
      simp only [rxEvents, List.nil_append, List.cons.injEq] at hd
      obtain ⟨rfl, -⟩ := hd
      rw [rxStore, rxByte_refused h (by simpa using hb)]; simp [received, stored, Memory.writeList, played]
    | cons e' pre =>
      obtain ⟨ack, v, rs, rfl, h1, h2⟩ := grants_cons hg
      simp only [rxEvents, List.cons_append, List.cons.injEq] at hd
      obtain ⟨rfl, hd⟩ := hd
      rw [rxStore, rxByte_played (by simpa using hb), bind_done, ih _ pre rs hd h2 (by simp [played])]
      simp [stored, played, received, Memory.writeList, ByteBuffer.push]; omega

theorem append_eq_split {α} {a b pre post : List α} {e : α} (h : a ++ b = pre ++ e :: post) :
   (∃ p, a = pre ++ e :: p) ∨ (∃ p, pre = a ++ p ∧ b = p ++ e :: post) := by
  rcases List.append_eq_append_iff.1 h with ⟨x, h1, h2⟩ | ⟨x, h1, h2⟩
  · exact .inr ⟨x, h1, h2⟩
  · cases x with
    | nil => right; refine ⟨[], by simpa using h1.symm, by simpa using h2.symm⟩
    | cons y x => simp at h2; obtain ⟨rfl, h2⟩ := h2; exact .inl ⟨x, h1⟩

theorem openPhase_refused (s : State) (pre post : List BusEvent) (e : BusEvent) (rs : List BusReply) (r : BusReply) (q : Reason)
   (rest : List (Option BusReply)) (hd : openEvents s.phase = pre ++ e :: post) (hg : grants pre rs = true) (h : refusal e r = some q)
   (hb : s.env.bus = rs.map some ++ some r :: rest) : openPhase s = .failed q (played (pre ++ [e]) rest s) ∧ ∀ b, e ≠ .tx b := by
  have : ∀ e', [e'] = pre ++ e :: post → pre = [] ∧ e = e' := by
    intro e' h; cases pre <;> simp at h; exact ⟨rfl, h.1.symm⟩
  cases hp : s.phase <;> rw [hp] at hd <;> simp only [openEvents] at hd
  · obtain ⟨rfl, rfl⟩ := this _ hd; rw [grants_nil hg] at hb; simp [openPhase, hp, signal_refused (e := .start) (by simp) h (by simpa using hb)]
  · simp at hd
  · obtain ⟨rfl, rfl⟩ := this _ hd; rw [grants_nil hg] at hb; simp [openPhase, hp, signal_refused (e := .restart) (by simp) h (by simpa using hb)]
  · simp at hd
  · obtain ⟨rfl, rfl⟩ := this _ hd; rw [grants_nil hg] at hb; simp [openPhase, hp, signal_refused (e := .restart) (by simp) h (by simpa using hb)]

theorem addrPhase_refused (w : Bool) (s : State) (a : Addr7) (pre post : List BusEvent) (e : BusEvent) (rs : List BusReply) (r : BusReply) (q : Reason)
   (rest : List (Option BusReply)) (ha : s.addr = some a) (hd : openEvents s.phase ++ [.tx (addrByte a w)] = pre ++ e :: post) (hg : grants pre rs = true) (h : refusal e r = some q)
   (hb : s.env.bus = rs.map some ++ some r :: rest) : ∃ ph, addrPhase w s = .failed q { played (pre ++ [e]) rest s with phase := ph } ∧ ((∃ b, e = .tx b) → ph ≠ .idle) := by
  rcases append_eq_split hd with ⟨p, h1⟩ | ⟨p, h1, h2⟩
  · obtain ⟨h3, h4⟩ := openPhase_refused s pre p e rs r q rest h1 hg h hb
    refine ⟨s.phase, ?_, fun ⟨b, hb⟩ => absurd hb (h4 b)⟩
    simp only [addrPhase, ha, h3, bind_failed]
    rfl
  · subst h1
    have : p = [] ∧ e = .tx (addrByte a w) := by cases p <;> simp at h2; exact ⟨rfl, h2.1.symm⟩
    obtain ⟨rfl, rfl⟩ := this
    rw [List.append_nil] at hg
    refine ⟨if openEvents s.phase = [] then s.phase else .started, ?_, ?_⟩
    · simp only [addrPhase, ha, openPhase_played s rs (some r :: rest) hg hb, bind_done]
      rw [txByte_refused (s := { played (openEvents s.phase) (some r :: rest) s with phase := if openEvents s.phase = [] then s.phase else .started }) (rest := rest) h rfl]
      simp [played]
    · cases s.phase <;> simp [openEvents]

theorem abort_played {q : Reason} {s : State} (pre) (e : BusEvent) (rest) (ph) :
   (q = .timeout → abort q { played (pre ++ [e]) rest s with phase := ph } = .next { played (pre ++ [e]) rest s with phase := .idle, run := .failed .timeout s.rsp.wr }) ∧
   (∀ p rest', q ≠ .timeout → ph ≠ .idle → rest = some p :: rest' →
    abort q { played (pre ++ [e]) rest s with phase := ph } = .next { played (pre ++ [e, .stop]) rest' s with phase := .idle, run := .failed q s.rsp.wr }) := by
  refine ⟨?_, ?_⟩
  · rintro rfl; simp [abort, endFailed]
  · rintro p rest' h1 h2 rfl
    simp [abort, h1, h2, emit, nextAnswer, played, endFailed]

theorem rxAll_refused (n : Nat) (s : State) (pre post : List BusEvent) (e : BusEvent) (rs : List BusReply) (r : BusReply) (q : Reason)
   (rest : List (Option BusReply)) (hd : rxEvents n = pre ++ e :: post) (hg : grants pre rs = true) (h : refusal e r = some q)
   (hb : s.env.bus = rs.map some ++ some r :: rest) : rxAll n s = .failed q (played (pre ++ [e]) rest s) := by
  induction n generalizing s pre rs with
  | zero => simp [rxEvents] at hd
  | succ n ih =>
    cases pre with
    | nil =>
      rw [grants_nil hg] at hb
      simp only [rxEvents, List.nil_append, List.cons.injEq] at hd
      obtain ⟨rfl, -⟩ := hd
      rw [rxAll, rxByte_refused h (by simpa using hb)]; simp
    | cons e' pre =>
      obtain ⟨ack, v, rs, rfl, h1, h2⟩ := grants_cons hg
      simp only [rxEvents, List.cons_append, List.cons.injEq] at hd
      obtain ⟨rfl, hd⟩ := hd
      rw [rxAll, rxByte_played (by simpa using hb), bind_done, ih _ pre rs hd h2 (by simp), bind_failed, played_played]; rfl

/-- Bytes sent up to an event that is never answered. -/
theorem txAll_silent (d : List Byte) (s : State) (pre post : List BusEvent) (e : BusEvent) (rs : List BusReply)
    (rest : List (Option BusReply)) (hd : d.map .tx = pre ++ e :: post) (hg : grants pre rs = true)
    (hb : s.env.bus = rs.map some ++ none :: rest) : txAll d s = .fault .environmentSilent := by
  induction d generalizing s pre rs with
  | nil => simp at hd
  | cons b d ih =>
    cases pre with
    | nil =>
      rw [grants_nil hg] at hb
      rw [txAll, txByte, emit_silent (by simpa using hb)]; rfl
    | cons e' pre =>
      obtain ⟨ack, v, rs, rfl, h1, h2⟩ := grants_cons hg
      simp only [List.map_cons, List.cons_append, List.cons.injEq] at hd
      obtain ⟨rfl, hd⟩ := hd
      simp only [grant] at h1; subst h1
      rw [txAll, txByte_played (by simpa using hb), bind_done, ih _ pre rs hd h2 (by simp)]

/-- Bytes received up to an event that is never answered. -/
theorem rxAll_silent (n : Nat) (s : State) (pre post : List BusEvent) (e : BusEvent) (rs : List BusReply)
    (rest : List (Option BusReply)) (hd : rxEvents n = pre ++ e :: post) (hg : grants pre rs = true)
    (hb : s.env.bus = rs.map some ++ none :: rest) : rxAll n s = .fault .environmentSilent := by
  induction n generalizing s pre rs with
  | zero => simp [rxEvents] at hd
  | succ n ih =>
    cases pre with
    | nil =>
      rw [grants_nil hg] at hb
      rw [rxAll, rxByte, emit_silent (by simpa using hb)]; rfl
    | cons e' pre =>
      obtain ⟨ack, v, rs, rfl, h1, h2⟩ := grants_cons hg
      simp only [rxEvents, List.cons_append, List.cons.injEq] at hd
      obtain ⟨rfl, hd⟩ := hd
      rw [rxAll, rxByte_played (by simpa using hb), bind_done, ih _ pre rs hd h2 (by simp)]; rfl

end Sys2Proof.Machine
end

