-- ==== Sys2Proof/Tests/Slice0.lean ====
section
/-! SUPPORT. The model's own tests. Expected results are the spec's examples and vectors (95_test_vectors.md, by their
labels) or are worked out by hand from the rule named. Then one witness for each statement that has hypotheses. -/

namespace Sys2Proof.Tests

open Sys2Proof.Machine

/-! ### Helpers: a small open block, and scripted answers of the environment -/

/-- The event is granted (acknowledged). -/
abbrev yes : BusReply := .answer true 0#8

/-- The same, as an answer that arrives. -/
abbrev ok : Option BusReply := some yes

/-- A received byte. -/
abbrev got (v : Byte) : Option BusReply := some (.answer true v)

/-- The device refuses the byte sent. -/
abbrev nack : Option BusReply := some (.answer false 0#8)

/-- The environment reports a time-out. -/
abbrev late : Option BusReply := some .timeout

/-- An open transport at 0x68, empty buffers of 40 and 32 bytes, no execution yet. -/
abbrev block (kind : TransportKind) (bus : List (Option BusReply)) : State where
  transport := { kind := kind, addr7 := 0x68#7, adapter := 1, isOpen := true }
  cmd := ByteBuffer.fresh 40
  rsp := ByteBuffer.fresh 32
  phase := .idle
  addr := none
  run := .idle
  trace := []
  regs := RegSet.zero
  params := { executor := .reference, bcdMerge := .replace, alarmScheme := .cumulative }
  result := none
  hostOps := []
  env := { bus := bus, openDevice := [], blockCounts := [], executions := [], draws := 0 }

/-- A block in the middle of an execution: the bytes ahead in CMD, the bus position and the target. -/
abbrev at_ (bytes : List Byte) (phase : Phase) (addr : Option Addr7) (bus : List (Option BusReply)) : State :=
  { block .bitBanged bus with
    cmd := { ByteBuffer.fresh 40 with store := Memory.writeList [] 0 bytes, wr := bytes.length }
    phase := phase, addr := addr, run := .running }

/-- The outcome is a next state, and the check holds of it. -/
abbrev holds (o : Host.Outcome State Fault Refusal) (check : State → Bool) : Bool :=
  match o with
  | .next t => check t
  | .fault _ => false
  | .refused _ => false

/-! ### Well-formedness: each check refuses an ill-formed term -/

theorem test_wf_escape_before_read : (Instr.escape 0x06#8).wf = false := by decide
theorem test_wf_escape_before_write : (Instr.escape 0x07#8).wf = false := by decide
theorem test_wf_escape : (Instr.escape 0x04#8).wf = true := by decide
theorem test_wf_write_too_long : (Instr.write (List.replicate 256 0#8)).wf = false := by
  rw [Instr.wf, List.length_replicate]; decide
theorem test_wf_write_longest : (Instr.write (List.replicate 255 0#8)).wf = true := by
  rw [Instr.wf, List.length_replicate]; decide
theorem test_wf_esc_write_too_long : (Instr.escWrite (List.replicate 65536 0#8)).wf = false := by
  rw [Instr.wf, List.length_replicate]; decide
theorem test_wf_esc_write_longest : (Instr.escWrite (List.replicate 65535 0#8)).wf = true := by
  rw [Instr.wf, List.length_replicate]; decide
theorem test_wf_illegal_is_not_write : (Instr.illegal 0x07#8).wf = false := by decide
theorem test_wf_illegal : (Instr.illegal 0x08#8).wf = true := by decide
/-- R64: `Flags`, an escape before another byte, an opcode above 7 and an address above 0x7F are illegal encodings. -/
theorem test_legal_refuses_r64 :
    [Instr.flags, .escape 0x04#8, .illegal 0xFF#8, .addr 0x80#8].map Instr.legal = [false, false, false, false] := by
  decide
/-- R66: the commands of the grammar. -/
theorem test_legal_accepts_r66 :
    [Instr.endCmd, .start, .stop, .addr 0x7F#8, .read 0#8, .write [], .escRead 5#16, .escWrite []].all Instr.legal =
      true := by decide

/-! ### Decoding: a word of each constructor, from R58, R59 and R61 -/

theorem test_decode_end : decode [0x00#8] = .ok .endCmd 1 := by decide
theorem test_decode_start : decode [0x02#8, 0xFF#8] = .ok .start 1 := by decide
theorem test_decode_stop : decode [0x03#8] = .ok .stop 1 := by decide
theorem test_decode_addr : decode [0x04#8, 0x68#8] = .ok (.addr 0x68#8) 2 := by decide
theorem test_decode_flags : decode [0x05#8] = .ok .flags 1 := by decide
theorem test_decode_read : decode [0x06#8, 0xFF#8] = .ok (.read 255#8) 2 := by decide
theorem test_decode_write : decode [0x07#8, 0x02#8, 0x0E#8, 0x1C#8, 0x00#8] = .ok (.write [0x0E#8, 0x1C#8]) 4 := by
  decide
/-- R43: 300 is `2C 01`. -/
theorem test_decode_esc_read : decode [0x01#8, 0x06#8, 0x2C#8, 0x01#8] = .ok (.escRead 300#16) 4 := by decide
theorem test_decode_esc_write : decode [0x01#8, 0x07#8, 0x01#8, 0x00#8, 0x55#8] = .ok (.escWrite [0x55#8]) 5 := by
  decide
theorem test_decode_escape : decode [0x01#8, 0x01#8] = .ok (.escape 0x01#8) 2 := by decide
theorem test_decode_illegal : decode [0xFF#8] = .ok (.illegal 0xFF#8) 1 := by decide
/-- R94: what is missing, and the bytes consumed by then. -/
theorem test_decode_breaks_off :
    [decode [], decode [0x04#8], decode [0x01#8, 0x06#8, 0x2C#8], decode [0x07#8, 0x05#8, 0x01#8]] =
      [.missing .opcode 0, .missing .operand 1, .missing .operand 3, .missing .payload 2] := by decide
/-- The rows of the opcode table, as the table gives their bits (the first byte lowest). -/
theorem test_table_words :
    [decodeTableWord 8 0x00, decodeTableWord 8 0x02, decodeTableWord 16 0x6804, decodeTableWord 8 0x06,
      decodeTableWord 16 0x0601, decodeTableWord 16 0x0701, decodeTableWord 8 0x08] =
      [some .endCmd, some .start, some (.addr 0x68#8), some (.read 0#8), some (.escRead 0#16), some (.escWrite []),
        some (.illegal 0x08#8)] := by decide

/-! ### One step of each command -/

/-- SQ1: `00` completes with an empty trace. -/
theorem test_end_idle : holds (step (at_ [0x00#8] .idle none [])) fun t =>
    t.run = .completed 0 ∧ t.trace = [] ∧ t.cmd.rd = 1 := by decide
/-- SQ3: an END that finds a transaction open closes it. -/
theorem test_end_open : holds (step (at_ [0x00#8] .started none [ok])) fun t =>
    t.run = .completed 0 ∧ t.trace = [.stop] ∧ t.phase = .idle := by decide
/-- SQ2: `02` from Idle is S. -/
theorem test_start_idle : holds (step (at_ [0x02#8] .idle none [ok])) fun t =>
    t.trace = [.start] ∧ t.phase = .started ∧ t.run = .running := by decide
/-- SQ3: the second `02` is Sr. -/
theorem test_start_again : holds (step (at_ [0x02#8] .started none [ok])) fun t =>
    t.trace = [.restart] ∧ t.phase = .started := by decide
/-- SQ4: a STOP when idle emits nothing. -/
theorem test_stop_idle : holds (step (at_ [0x03#8] .idle none [])) fun t => t.trace = [] ∧ t.run = .running := by
  decide
/-- R98: P, and no further event after its time-out. -/
theorem test_stop_late : holds (step (at_ [0x03#8] .writing none [late])) fun t =>
    t.trace = [.stop] ∧ t.phase = .idle ∧ t.run = .failed .timeout 0 := by decide
/-- SQ5: the target, with no event. -/
theorem test_addr : holds (step (at_ [0x04#8, 0x68#8] .idle none [])) fun t =>
    t.addr = some 0x68#7 ∧ t.trace = [] ∧ t.cmd.rd = 2 := by decide
/-- SQ17: an operand above 0x7F. -/
theorem test_addr_illegal : holds (step (at_ [0x04#8, 0x80#8] .idle none [])) fun t =>
    t.run = .failed .illegalAddress 0 ∧ t.addr = none := by decide
/-- SQ21: FLAGS with a transaction open. -/
theorem test_flags : holds (step (at_ [0x05#8] .writing (some 0x68#7) [ok])) fun t =>
    t.run = .failed .unsupported 0 ∧ t.trace = [.stop] ∧ t.cmd.rd = 1 := by decide
/-- R103's example. -/
theorem test_read : holds (step (at_ [0x06#8, 0x02#8] .started (some 0x68#7) [ok, got 0x13#8, got 0x40#8])) fun t =>
    t.trace = [.tx 0xD1#8, .rx true, .rx false] ∧ t.phase = .readDone ∧
      Memory.readList t.rsp.store 0 2 = [0x13#8, 0x40#8] ∧ t.rsp.wr = 2 := by decide
/-- SQ13: the byte received before the time-out is counted, and there is no P. -/
theorem test_read_late : holds (step (at_ [0x06#8, 0x03#8] .idle (some 0x68#7) [ok, ok, got 0x55#8, late])) fun t =>
    t.run = .failed .timeout 1 ∧ t.trace = [.start, .tx 0xD1#8, .rx true, .rx true] ∧
      Memory.read t.rsp.store 0 = 0x55#8 := by decide
/-- R102's example. -/
theorem test_write : holds (step (at_ [0x07#8, 0x02#8, 0x0E#8, 0x1C#8] .idle (some 0x68#7) [ok, ok, ok, ok])) fun t =>
    t.trace = [.start, .tx 0xD0#8, .tx 0x0E#8, .tx 0x1C#8] ∧ t.phase = .writing ∧ t.cmd.rd = 4 := by decide
/-- P5: a refused address byte. -/
theorem test_write_nack : holds (step (at_ [0x07#8, 0x02#8, 0x00#8, 0x01#8] .idle (some 0x50#7) [ok, nack, ok])) fun t =>
    t.trace = [.start, .tx 0xA0#8, .stop] ∧ t.run = .failed .nack 0 ∧ t.phase = .idle := by decide
/-- SQ28: an escaped short length is READ 2. -/
theorem test_esc_read : holds (step (at_ [0x01#8, 0x06#8, 0x02#8, 0x00#8] .idle (some 0x68#7)
    [ok, ok, got 0x01#8, got 0x02#8])) fun t =>
    t.trace = [.start, .tx 0xD1#8, .rx true, .rx false] ∧ Memory.readList t.rsp.store 0 2 = [0x01#8, 0x02#8] := by
  decide
/-- P3 with a response buffer too small: no event, and P closes the open transaction. -/
theorem test_esc_read_overflow : holds (step (at_ [0x01#8, 0x06#8, 0x2C#8, 0x01#8] .started (some 0x68#7) [ok])) fun t =>
    t.run = .failed .writeOverflow 0 ∧ t.trace = [.stop] ∧ t.cmd.rd = 4 := by decide
/-- SQ8 in escaped form: a Write after a Write continues with no address byte. -/
theorem test_esc_write : holds (step (at_ [0x01#8, 0x07#8, 0x01#8, 0x00#8, 0x1C#8] .writing (some 0x68#7) [ok])) fun t =>
    t.trace = [.tx 0x1C#8] ∧ t.phase = .writing ∧ t.cmd.rd = 5 := by decide
/-- SQ29: an escaped Write 0. -/
theorem test_esc_write_zero : holds (step (at_ [0x01#8, 0x07#8, 0x00#8, 0x00#8] .idle (some 0x68#7) [])) fun t =>
    t.trace = [] ∧ t.run = .running ∧ t.phase = .idle := by decide
/-- SQ18: an escaped Address. -/
theorem test_escape_address : holds (step (at_ [0x01#8, 0x04#8] .idle none [])) fun t =>
    t.run = .failed .illegalAddress 0 ∧ t.cmd.rd = 2 := by decide
/-- SQ19: an escaped Escape. -/
theorem test_escape_escape : holds (step (at_ [0x01#8, 0x01#8] .idle none [])) fun t =>
    t.run = .failed .illegalEscape 0 := by decide
/-- SQ22. -/
theorem test_illegal : holds (step (at_ [0x08#8] .idle none [])) fun t =>
    t.run = .failed .illegalOpcode 0 ∧ t.cmd.rd = 1 := by decide
/-- SQ25: a short payload is found before any event, at CMD.rd 4 of the whole stream (2 of this one). -/
theorem test_short_payload : holds (step (at_ [0x07#8, 0x05#8, 0x01#8, 0x02#8, 0x00#8] .idle (some 0x68#7) [])) fun t =>
    t.run = .failed .readUnderflow 0 ∧ t.trace = [] ∧ t.cmd.rd = 2 := by decide

/-! ### Host operations -/

/-- BB2: a full buffer. -/
theorem test_buffer_full : holds (hostExec (.bufWrite8 .rsp 4#8)
    { block .bitBanged [] with rsp := { cap := 3, store := [(0, 1#8), (1, 2#8), (2, 3#8)], rd := 0, wr := 3 } }) fun t =>
    t.result = some (.status .writeOverflow) ∧ t.rsp.wr = 3 := by decide
/-- R85: 256 is `00 01`. -/
theorem test_encode_send_256 : holds (hostExec (.encSend 256) (block .bitBanged [])) fun t =>
    t.cmd.unread = [0x01#8, 0x07#8, 0x00#8, 0x01#8] := by decide
/-- TR5: a bit-banged receiveReg(0F). -/
theorem test_bit_banged_receive : holds (hostExec (.receiveReg 0x0F#8)
    (block .bitBanged [ok, ok, ok, ok, ok, got 0x88#8, ok])) fun t =>
    t.result = some (.byte 0x88#8) ∧
      t.trace = [.start, .tx 0xD0#8, .tx 0x0F#8, .restart, .tx 0xD1#8, .rx false, .stop] := by decide
/-- TR9: a bit-banged send whose second address byte is refused. -/
theorem test_bit_banged_send_nack : holds (hostExec (.sendReg 0x0E#8 0x1C#8)
    (block .bitBanged [ok, ok, ok, ok, nack, ok])) fun t =>
    t.result = some (.status .sendFail) ∧
      t.trace = [.start, .tx 0xD0#8, .tx 0x0E#8, .restart, .tx 0xD0#8, .stop] := by decide
/-- R116's ten bytes for an empty block, and their trace by R97 and R106: the START in Writing is Sr (D15), `WRITE 0`
emits nothing (D16; log 25). -/
theorem test_empty_send : holds (hostExec (.sendBlock 0x0E#8 []) (block .bitBanged [ok, ok, ok, ok, ok])) fun t =>
    t.result = some (.status .ok) ∧ t.trace = [.start, .tx 0xD0#8, .tx 0x0E#8, .restart, .stop] ∧ t.cmd.rd = 10 ∧
      Memory.readList t.cmd.store 0 10 =
        [0x04#8, 0x68#8, 0x07#8, 0x01#8, 0x0E#8, 0x02#8, 0x07#8, 0x00#8, 0x03#8, 0x00#8] := by decide
/-- The same for `READ 0`. -/
theorem test_empty_receive : holds (hostExec (.receiveBlock 0x0E#8 0) (block .bitBanged [ok, ok, ok, ok, ok])) fun t =>
    t.result = some (.bytes []) ∧ t.trace = [.start, .tx 0xD0#8, .tx 0x0E#8, .restart, .stop] := by decide
/-- R92: a `Timeout` on the empty block's Sr fails the send, with no further event (R95). -/
theorem test_empty_send_timeout : holds (hostExec (.sendBlock 0x0E#8 []) (block .bitBanged [ok, ok, ok, late])) fun t =>
    t.result = some (.status .sendFail) ∧ t.trace = [.start, .tx 0xD0#8, .tx 0x0E#8, .restart] := by decide
/-- TR12: a hardware sendReg. -/
theorem test_hardware_send : holds (hostExec (.sendReg 0x0E#8 0x1C#8) (block .hardware [ok, ok, ok, ok, ok])) fun t =>
    t.result = some (.status .ok) ∧ t.trace = [.start, .tx 0xD0#8, .tx 0x0E#8, .tx 0x1C#8, .stop] := by decide
/-- TR13: a hardware receiveWord, low byte first. -/
theorem test_hardware_word : holds (hostExec (.receiveWord 0x11#8)
    (block .hardware [ok, ok, ok, ok, ok, got 0x13#8, got 0x40#8, ok])) fun t =>
    t.result = some (.word 0x4013#16) := by decide
/-- RS14: toBcd over old digits, under both settings. -/
theorem test_to_bcd : holds (hostExec (.regToBcd 1 7 0x70#8 0x0F#8)
    { block .hardware [] with regs := RegSet.zero.set 1 0x59#8 }) fun t => getReg 1 t = 0x07#8 := by decide
/-- RTC12: FF 40 is minus three quarters. -/
theorem test_temperature : quarterDegrees 0xFF#8 0x40#8 = -3 := by decide
/-- RTC4: the time registers of 12:30:45 PM, 2023-06-15. -/
theorem test_date_time :
    decodeDateTime (putRegs 0 [0x45#8, 0x30#8, 0x72#8, 0x03#8, 0x15#8, 0x86#8, 0x23#8] (block .hardware [])) =
      {
        hour := 12, minute := 30, second := 45, mode := .h12, pm := true
        day := 15, weekday := 3, month := 6, year := 2023 } := by decide
/-- RTC9: the registers of 2099-12-31, 11:59:59 PM. -/
theorem test_set_date_time :
    getRegs (encodeDateTime {
        hour := 11, minute := 59, second := 59, mode := .h12, pm := true
        day := 31, weekday := 1, month := 12, year := 2099 } (block .hardware [])) 0 7 =
      [0x59#8, 0x59#8, 0x71#8, 0x01#8, 0x31#8, 0x92#8, 0x99#8] := by decide
/-- R148's example, Hours under `Cumulative`. -/
theorem test_set_alarm :
    getRegs (encodeAlarm .first {
        hour := 6, minute := 30, second := 15, mode := .h24, pm := false
        day := 15, weekday := 3, enabled := true, interval := .hours } (block .hardware [])) 7 4 =
      [0x15#8, 0x30#8, 0x06#8, 0x95#8] := by decide
/-- The table's `Second` row: 07:05 PM, day 1, Hours. -/
theorem test_set_second_alarm :
    getRegs (encodeAlarm .second {
        hour := 7, minute := 5, second := 0, mode := .h12, pm := true
        day := 1, weekday := 0, enabled := true, interval := .hours } (block .hardware [])) 0x0B 3 = [0x05#8, 0x67#8, 0x81#8] := by decide

/-- R149's example. -/
theorem test_get_alarm :
    decodeAlarm .first (putReg 0x0E 0x05#8 (putRegs 7 [0x15#8, 0x30#8, 0x06#8, 0x95#8] (block .hardware []))) =
      {
        hour := 6, minute := 30, second := 15, mode := .h24, pm := false
        day := 15, weekday := 0, enabled := true, interval := .hours } := by decide
/-- The table's `Second` row WeekDay: `30 06 43`. -/
theorem test_get_week_day_alarm :
    decodeAlarm .second (putRegs 0x0B [0x30#8, 0x06#8, 0x43#8] (block .hardware [])) =
      {
        hour := 6, minute := 30, second := 0, mode := .h24, pm := false
        day := 0, weekday := 3, enabled := false, interval := .weekDay } := by decide

/-! ### Witnesses: a concrete state and operands for the hypotheses of each statement -/

/-- The answers of a hardware read frame at a register. -/
abbrev readAnswers (bytes : List Byte) : List (Option BusReply) := [ok, ok, ok, ok, ok] ++ bytes.map got ++ [ok]

/-- The answers of a hardware write frame of `n` bytes at a register. -/
abbrev writeAnswers (n : Nat) : List (Option BusReply) := List.replicate (n + 4) ok

/-- A hardware block with scripted bus answers and block-read counts. -/
abbrev device (bus : List (Option BusReply)) (counts : List (Option Nat)) : State :=
  { block .hardware bus with
    env := { bus := bus, openDevice := [], blockCounts := counts, executions := [], draws := 0 } }

/-- Under Oracle, with the draw `Execute()` is answered. -/
abbrev drawn (draw : Option ExecDraw) : State :=
  { block .bitBanged [] with
    params := { executor := .oracle, bcdMerge := .replace, alarmScheme := .cumulative }
    env := { bus := [], openDevice := [], blockCounts := [], executions := [draw], draws := 0 } }

/-- A draw of `Completed` with those bytes received. -/
abbrev completedDraw (bytes : List Byte) : Option ExecDraw :=
  some { failure := none, bytes := bytes, trace := [], consumed := 0 }

theorem witness_DecodeOfEncodeIsTheCommand :
    (Instr.escape 0x04#8).wf ∧ (Instr.write (List.replicate 255 0#8)).wf ∧ (Instr.escWrite [0x55#8]).wf ∧
      (Instr.illegal 0x08#8).wf := ⟨by decide, test_wf_write_longest, by decide, by decide⟩

theorem witness_EncodeOfDecodeIsTheBytes : decode [0x07#8, 0x01#8, 0xAA#8, 0x00#8] = .ok (.write [0xAA#8]) 3 := by decide

theorem witness_FetchWordRunsTheDecodedCommand :
    State.reset.cmd.store.wf ∧ decodeTableWord 16 0x6804 = some (.addr 0x68#8) ∧
      decodeTableWord 16 0x0107 = some (.write [0x00#8]) := by decide

theorem witness_BufferWriteIsAllOrNothing :
    (2 ≤ [1#8, 2#8].length) ∧ 0 ≤ ([] : List Byte).length ∧ (-1 : Int) < 0 := by decide

theorem witness_BufferReadTakesTheUnreadSpan : (-1 : Int) < 0 := by decide

theorem witness_BufferCursorOperations :
    let s := { block .bitBanged [] with rsp := { cap := 32, store := [], rd := 2, wr := 3 } }
    (getBuffer .rsp s).cap < 33 ∧ (1 ≤ (getBuffer .rsp s).cap ∧ 1 < (getBuffer .rsp s).rd) ∧
      ((getBuffer .rsp s).rd ≤ 2 ∧ 32 ≤ (getBuffer .rsp s).cap) ∧ (-1 : Int) < 0 := by decide

theorem witness_WrittenBytesAreReadBack :
    (getBuffer .cmd (block .bitBanged [])).Sound ∧
      (getBuffer .cmd (block .bitBanged [])).rd = (getBuffer .cmd (block .bitBanged [])).wr ∧
      (List.replicate 40 7#8).length ≤
        (getBuffer .cmd (block .bitBanged [])).cap - (getBuffer .cmd (block .bitBanged [])).wr := by
  refine ⟨by decide, by decide, ?_⟩
  rw [List.length_replicate]; decide

/-- Each clause at the ends of its range: 255, 256, 65535, and 65536 and -1 for the refusals. -/
theorem witness_EncoderAppendsItsBytes :
    (255 ≤ 65535 ∧ (HostOp.encSend 255, [0x07#8, 0xFF#8]) ∈ [(HostOp.encSend (255 : Nat), if 255 ≤ 255 then [0x07#8,
      BitVec.ofNat 8 255] else [0x01#8, 0x07#8, BitVec.ofNat 8 (255 % 256), BitVec.ofNat 8 (255 / 256)])]) ∧
    (256 ≤ 65535 ∧ (HostOp.encReceive 256, [0x01#8, 0x06#8, 0x00#8, 0x01#8]) ∈ [(HostOp.encReceive (256 : Nat),
      if 256 ≤ 255 then [0x06#8, BitVec.ofNat 8 256] else [0x01#8, 0x06#8, BitVec.ofNat 8 (256 % 256),
      BitVec.ofNat 8 (256 / 256)])]) ∧
    (65535 < 65536 ∧ HostOp.encSend 65536 ∈ [HostOp.encSend (65536 : Nat), .encReceive (65536 : Nat)]) ∧
    ((-1 : Int) < 0 ∧ HostOp.encReceive (-1) ∈ [HostOp.encSend (-1), .encReceive (-1)]) := by decide

/-- A draw whose bytes fill RSP, and one that never comes. -/
theorem witness_ExecuteBeginsOrIsDrawn :
    (block .bitBanged []).params.executor = .reference ∧
    (drawn none).params.executor = .oracle ∧ (drawn none).env.executions = none :: [] ∧
    ∃ (s : State) (d : ExecDraw), s.params.executor = .oracle ∧ s.rsp.store.wf ∧ s.env.executions = some d :: [] ∧
      d.bytes.length ≤ s.rsp.cap :=
  ⟨rfl, rfl, rfl, { block .bitBanged [] with
      params := { executor := .oracle, bcdMerge := .replace, alarmScheme := .cumulative }
      env := { bus := [], openDevice := [], blockCounts := [], draws := 0
               executions := [some { failure := none, bytes := List.replicate 32 1#8, trace := [], consumed := 0 }] } },
    { failure := none, bytes := List.replicate 32 1#8, trace := [], consumed := 0 }, rfl, by decide, rfl, by decide⟩

theorem witness_StepRunsTheCommandAtTheStreamPosition :
    ((at_ [0x00#8] .idle none []).run = .running ∧
      decode (at_ [0x00#8] .idle none []).cmd.unread = .ok .endCmd 1) ∧
    ((at_ [] .idle none []).phase = .idle ∧ decode (at_ [] .idle none []).cmd.unread = .missing .opcode 0) ∧
    decode (at_ [0x07#8, 0x02#8, 0x00#8] .idle none []).cmd.unread = .missing .payload 2 ∧
    ((at_ [] .writing none [ok]).phase ≠ .idle ∧ (at_ [] .writing none [ok]).env.bus = some yes :: [] ∧
      decode (at_ [] .writing none [ok]).cmd.unread = .missing .opcode 0) := by decide

theorem witness_FailClosesAnOpenTransaction :
    (Reason.timeout = .timeout ∨ (at_ [] .started none []).phase = .idle) ∧
    (Reason.nack = .timeout ∨ (at_ [] .idle none []).phase = .idle) ∧
    (Reason.nack ≠ .timeout ∧ (at_ [] .started none [late]).phase ≠ .idle ∧
      (at_ [] .started none [late]).env.bus = some .timeout :: []) := by decide

theorem witness_EndCompletesTheExecution :
    (at_ [] .idle none []).phase = .idle ∧
    ((at_ [] .writing none [ok]).phase ≠ .idle ∧ (at_ [] .writing none [ok]).env.bus = some (.answer true 0#8) :: []) ∧
    ((at_ [] .writing none [late]).phase ≠ .idle ∧ (at_ [] .writing none [late]).env.bus = some .timeout :: []) := by
  decide

theorem witness_StartSignalsStartOrRepeatedStart :
    ((at_ [] .idle none [ok]).env.bus = some (.answer true 0#8) :: [] ∧
      BusEvent.start = if (at_ [] .idle none [ok]).phase = .idle then BusEvent.start else .restart) ∧
    ((at_ [] .readDone none [late]).env.bus = some .timeout :: [] ∧
      BusEvent.restart = if (at_ [] .readDone none [late]).phase = .idle then BusEvent.start else .restart) := by decide

theorem witness_StopReleasesTheBus :
    (at_ [] .idle none []).phase = .idle ∧
    ((at_ [] .readDone none [ok]).phase ≠ .idle ∧
      (at_ [] .readDone none [ok]).env.bus = some (.answer true 0#8) :: []) ∧
    ((at_ [] .started none [late]).phase ≠ .idle ∧ (at_ [] .started none [late]).env.bus = some .timeout :: []) := by
  decide

theorem witness_AddressSetsTheTarget :
    (0x7F < (0x80#8).toNat ∧ (at_ [] .idle none []).phase = .idle) ∧
    (0x7F < (0xFF#8).toNat ∧ (at_ [] .writing none [nack]).phase ≠ .idle ∧
      (at_ [] .writing none [nack]).env.bus = some (.answer false 0#8) :: []) := by decide

theorem witness_WriteSendsItsPayload :
    let s := at_ [] .readDone (some 0x68#7) [ok, ok, ok, late]
    ([0x0E#8] : List Byte) ≠ [] ∧ s.addr = some 0x68#7 ∧
      grants (writeEvents s.phase 0x68#7 [0x0E#8]) [yes, yes, yes] = true ∧
      s.env.bus = [yes, yes, yes].map some ++ [late] := by decide

/-- A read that fills RSP exactly. -/
theorem witness_ReadStoresTheReceivedBytes :
    let s := at_ [] .started (some 0x68#7) (ok :: List.replicate 32 (got 1#8))
    let replies := yes :: List.replicate 32 (BusReply.answer true 1#8)
    (32 ≤ 255 ∧ 0 < 32) ∧ 32 ≤ s.rsp.cap - s.rsp.wr ∧ s.addr = some 0x68#7 ∧
      grants (readEvents s.phase 0x68#7 32) replies = true ∧ s.env.bus = replies.map some ++ [] := by decide

/-- A time-out on the first event, a refused address byte and a refused last byte. -/
theorem witness_WriteFailsAtTheFirstRefusal :
    let d := [0x0E#8, 0x1C#8]
    (writeEvents .idle 0x68#7 d = [] ++ .start :: [.tx 0xD0#8, .tx 0x0E#8, .tx 0x1C#8] ∧ grants [] [] = true ∧
      (at_ [] .idle (some 0x68#7) [late]).env.bus = [].map some ++ some .timeout :: []) ∧
    (writeEvents .started 0x68#7 d = [] ++ .tx 0xD0#8 :: [.tx 0x0E#8, .tx 0x1C#8] ∧
      (at_ [] .started (some 0x68#7) [nack, ok]).env.bus = [].map some ++ some (.answer false 0#8) :: some yes :: []) ∧
    (writeEvents .writing 0x68#7 d = [.tx 0x0E#8] ++ .tx 0x1C#8 :: [] ∧ grants [.tx 0x0E#8] [yes] = true ∧
      (at_ [] .writing (some 0x68#7) [ok, nack, late]).env.bus =
        [yes].map some ++ some (.answer false 0#8) :: some .timeout :: []) := by decide

theorem witness_ReadFailsAtTheFirstRefusal :
    (readEvents .started 0x68#7 2 = [.tx 0xD1#8, .rx true] ++ .rx false :: [] ∧
      grants [.tx 0xD1#8, .rx true] [yes, .answer true 0x55#8] = true ∧
      [0x55#8] = received [.tx 0xD1#8, .rx true] [yes, .answer true 0x55#8] ∧
      2 ≤ (at_ [] .started (some 0x68#7) []).rsp.cap - 0 ∧
      (at_ [] .started (some 0x68#7) [ok, got 0x55#8, late]).env.bus =
        [yes, .answer true 0x55#8].map some ++ some .timeout :: []) ∧
    (readEvents .idle 0x68#7 1 = [.start] ++ .tx 0xD1#8 :: [.rx false] ∧ grants [.start] [yes] = true ∧
      (at_ [] .idle (some 0x68#7) [ok, nack, ok]).env.bus =
        [yes].map some ++ some (.answer false 0#8) :: some yes :: []) := by decide

/-- One byte more than RSP holds, and exactly what it holds; each reason from Idle and with a transaction open. -/
theorem witness_TransfersCheckBeforeAnyEvent :
    let s := at_ [] .idle none []
    let u := at_ [] .started none [ok]
    (s.phase = .idle ∧ s.addr = none ∧ u.phase ≠ .idle ∧ u.phase ≠ .writing ∧ u.addr = none ∧
      u.env.bus = some yes :: []) ∧
    (0 < 33 ∧ Instr.read 33#8 = .read (BitVec.ofNat 8 33) ∧ 33 ≤ 255 ∧ s.rsp.cap - s.rsp.wr < 33 ∧
      u.rsp.cap - u.rsp.wr < 33) ∧
    (0 < 300 ∧ Instr.escRead 300#16 = .escRead (BitVec.ofNat 16 300) ∧ 300 ≤ 65535 ∧ u.rsp.cap - u.rsp.wr < 300) ∧
    (0 < 32 ∧ 32 ≤ s.rsp.cap - s.rsp.wr ∧ 32 ≤ u.rsp.cap - u.rsp.wr) ∧ [0#8] ≠ [] := by decide

theorem witness_IllegalCommandsFail :
    (Instr.escape 0x04#8, Reason.illegalAddress) ∈ [(Instr.flags, Reason.unsupported), (.illegal 0x04#8, .illegalOpcode),
      (.escape 0x04#8, if 0x04#8 = 0x04#8 then .illegalAddress else .illegalEscape)] ∧
    (Instr.escape 0x05#8, Reason.illegalEscape) ∈ [(Instr.flags, Reason.unsupported), (.illegal 0x05#8, .illegalOpcode),
      (.escape 0x05#8, if 0x05#8 = 0x04#8 then .illegalAddress else .illegalEscape)] ∧
    (at_ [] .idle none []).phase = .idle ∧
    ((at_ [] .started none [ok]).phase ≠ .idle ∧ (at_ [] .started none [ok]).env.bus = some yes :: []) := by decide

/-- A START and a closing P, an address above 0x7F; a second byte of a Write, a byte of a Read, and the P after a Nack. -/
theorem witness_AnEventNeverAnsweredIsStuck :
    ((at_ [] .started none [none]).env.bus = none :: [] ∧ (at_ [] .started none [none]).phase ≠ .idle) ∧
    (0x7F < (0x80#8).toNat ∧ Reason.nack ≠ .timeout) ∧
    ([0x0E#8] ≠ [] ∧ writeEvents .started 0x68#7 [0x0E#8] = [.tx 0xD0#8] ++ .tx 0x0E#8 :: [] ∧
      grants [.tx 0xD0#8] [yes] = true ∧
      (at_ [] .started (some 0x68#7) [ok, none]).env.bus = [yes].map some ++ none :: [] ∧
      (at_ [] .started (some 0x68#7) [ok, nack, none]).env.bus =
        [yes].map some ++ some (.answer false 0#8) :: none :: []) ∧
    (0 < 2 ∧ 2 ≤ 255 ∧ 2 ≤ (at_ [] .started (some 0x68#7) []).rsp.cap - (at_ [] .started (some 0x68#7) []).rsp.wr ∧
      readEvents .started 0x68#7 2 = [.tx 0xD1#8, .rx true] ++ .rx false :: [] ∧
      grants [.tx 0xD1#8, .rx true] [yes, yes] = true ∧
      (at_ [] .started (some 0x68#7) [ok, ok, none]).env.bus = [yes, yes].map some ++ none :: []) := by decide

theorem witness_EveryCommandAnswersWhenTheEnvironmentDoes : none ∉ (at_ [] .idle none [ok, late]).env.bus := by decide

theorem witness_CommandsChangeOnlyTheirOwnState :
    (at_ [] .started (some 0x68#7) [ok, got 0x13#8]).rsp.store.wf ∧
      ∃ t, exec (.read 1#8) (at_ [] .started (some 0x68#7) [ok, got 0x13#8]) = .next t := ⟨by decide, _, rfl⟩

theorem witness_SuccessfulCommandsStoreWhatTheyRead :
    ∃ t, exec .endCmd (at_ [] .idle none []) = .next t ∧ t.run = .completed 0 := ⟨_, rfl, rfl⟩

/-- SQ6's stream, executed whole. -/
theorem witness_EveryExecutionEnds :
    ∃ t, executeReference (at_ [0x04#8, 0x68#8, 0x06#8, 0x01#8, 0x00#8] .idle none [ok, ok, got 0x11#8, ok]) = .next t ∧
      t.run = .completed 1 := ⟨_, rfl, rfl⟩

/-- The SQ5 stream. -/
theorem witness_StepwiseAndAtomicExecutionAgree :
    ∃ t, executeReference (at_ [0x04#8, 0x68#8, 0x00#8] .idle none []) = .next t ∧ t.run = .completed 0 := ⟨_, rfl, rfl⟩

theorem witness_TransportOpensCloses :
    let closed := { block .hardware [] with
      transport := { kind := .hardware, addr7 := 0x68#7, adapter := 1, isOpen := false }
      env := { bus := [], openDevice := [some false], blockCounts := [], executions := [], draws := 0 } }
    (block .hardware []).transport.isOpen = true ∧
    (closed.transport.isOpen = false ∧ closed.env.openDevice = some false :: []) ∧
    ({ closed with env := { closed.env with openDevice := [none] } } : State).env.openDevice = none :: [] ∧
    ((sendForm (.sendByte 0#8)).isSome ∧ (receiveForm (.receiveBlock 0#8 0)).isSome) := by decide

/-- A stream that fills CMD exactly (13 bytes for 3 of payload, R116), and one that is a byte too long for it. -/
theorem witness_BuildProducesTheTableStream :
    bodyLength (.send [1#8, 2#8, 3#8]) ≤ 65535 ∧
      (opStream 0x68#7 (some 0x00#8) (.send [1#8, 2#8, 3#8])).length ≤ 13 ∧
      12 < (opStream 0x68#7 (some 0x00#8) (.send [1#8, 2#8, 3#8])).length ∧
      9 < (opStream 0x68#7 (some 0x00#8) (.send [])).length := by decide

theorem witness_BitBangedSendEmitsItsTrace :
    let s := block .bitBanged (List.replicate 7 ok)
    sendForm (.sendReg 0x0E#8 0x1C#8) = some (some 0x0E#8, [0x1C#8]) ∧ s.transport.isOpen = true ∧
      s.transport.kind = .bitBanged ∧ s.params.executor = .reference ∧
      (opStream s.transport.addr7 (some 0x0E#8) (.send [0x1C#8])).length ≤ s.cmd.cap ∧
      grants (bitBangedSendEvents s.transport.addr7 (some 0x0E#8) [0x1C#8]) (List.replicate 7 yes) = true ∧
      s.env.bus = (List.replicate 7 yes).map some ++ [] := by decide

/-- A block of 0 bytes, granted. -/
theorem witness_BitBangedSendEmitsItsTrace_empty :
    let s := block .bitBanged (List.replicate 5 ok)
    sendForm (.sendBlock 0x0E#8 []) = some (some 0x0E#8, []) ∧
      (opStream s.transport.addr7 (some 0x0E#8) (.send [])).length ≤ s.cmd.cap ∧
      bitBangedSendEvents s.transport.addr7 (some 0x0E#8) [] = [.start, .tx 0xD0#8, .tx 0x0E#8, .restart, .stop] ∧
      grants (bitBangedSendEvents s.transport.addr7 (some 0x0E#8) []) (List.replicate 5 yes) = true ∧
      s.env.bus = (List.replicate 5 yes).map some ++ [] := by decide

theorem witness_BitBangedReceiveReturnsTheBytes :
    let s := block .bitBanged (List.replicate 8 ok)
    receiveForm (.receiveWord 0x11#8) = some (some 0x11#8, 2) ∧ 2 ≤ s.rsp.cap ∧ s.rsp.store.wf ∧
      s.transport.isOpen = true ∧ s.transport.kind = .bitBanged ∧ s.params.executor = .reference ∧
      (opStream s.transport.addr7 (some 0x11#8) (.receive 2)).length ≤ s.cmd.cap ∧
      grants (bitBangedReceiveEvents s.transport.addr7 (some 0x11#8) 2) (List.replicate 8 yes) = true ∧
      s.env.bus = (List.replicate 8 yes).map some ++ [] := by decide

/-- A CMD of 4 bytes for the failed `Build`. -/
abbrev smallCmd : State := { block .bitBanged [] with cmd := ByteBuffer.fresh 4 }

/-- Under Oracle: Completed(1) for a receive of two bytes (TR10). -/
abbrev shortDraw : State := drawn (completedDraw [0x13#8])

/-- Under either executor: a send, and receives of exactly the bytes asked and of one more. -/
theorem witness_BitBangedTransfers_completed :
    (∃ t u, build none (.send [1#8]) (drawn (completedDraw [])) = .done () t ∧
      execute t = .next u ∧ u.run = .completed 0) ∧
    (∃ t u, build none (.send [1#8]) (block .bitBanged [ok, ok, ok, ok]) = .done () t ∧
      execute t = .next u ∧ u.run = .completed 0) ∧
    (∃ t u, build (some 0x11#8) (.receive 1) shortDraw = .done () t ∧
      execute t = .next u ∧ u.run = .completed 1 ∧ 1 ≤ 1 ∧ 1 ≤ u.rsp.cap) ∧
    (∃ t u, build (some 0x11#8) (.receive 0) shortDraw = .done () t ∧
      execute t = .next u ∧ u.run = .completed 1 ∧ 0 ≤ 1 ∧ 1 ≤ u.rsp.cap) :=
  ⟨⟨_, _, rfl, rfl, rfl⟩, ⟨_, _, rfl, rfl, rfl⟩, ⟨_, _, rfl, rfl, rfl, by decide, by decide⟩,
    ⟨_, _, rfl, rfl, rfl, by decide, by decide⟩⟩

/-- The trace of R117's corner case is one the Oracle may draw (D15: "the Oracle executor keeps other readings
available"; log 25). -/
theorem test_empty_send_oracle : holds (hostExec (.sendBlock 0x0E#8 []) (drawn (some {
    failure := none, bytes := [], trace := [.start, .tx 0xD0#8, .tx 0x0E#8, .stop], consumed := 10 }))) fun t =>
    t.result = some (.status .ok) ∧ t.trace = [.start, .tx 0xD0#8, .tx 0x0E#8, .stop] := by decide

/-- D26: Completed(3) for a receive of two bytes is accepted, and the first two are the answer. -/
theorem test_surplus_receive : holds (hostExec (.receiveWord 0x11#8) (drawn (completedDraw [0x13#8, 0x40#8, 0xFF#8])))
    fun t => t.result = some (.word 0x4013#16) ∧ t.rsp.rd = 2 ∧ t.rsp.wr = 3 := by decide

/-- One witness for each of the clauses; a block of 0 bytes fails too, at its first event. -/
theorem witness_BitBangedFailuresReturnTheirStatus :
    (∃ st t, build none (.send [1#8]) smallCmd = .failed st t) ∧
    (∃ st t, build none (.receive 1) smallCmd = .failed st t) ∧
    (∃ t u reason k, build (some 0#8) (.send []) (block .bitBanged [late]) = .done () t ∧
      execute t = .next u ∧ u.run = .failed reason k) ∧
    (∃ t u reason k, build none (.receive 1) (block .bitBanged [ok, nack, ok]) = .done () t ∧
      execute t = .next u ∧ u.run = .failed reason k) ∧
    (∃ t u, build (some 0x11#8) (.receive 2) shortDraw = .done () t ∧
      execute t = .next u ∧ u.run = .completed 1 ∧ 1 < 2 ∧ 1 ≤ u.rsp.cap) ∧
    (∃ t f, build none (.send [1#8]) (block .bitBanged [none]) = .done () t ∧
      execute t = .fault f) ∧
    (∃ t f, build (some 0#8) (.receive 0) (block .bitBanged [none]) = .done () t ∧
      execute t = .fault f) :=
  ⟨⟨_, _, rfl⟩, ⟨_, _, rfl⟩, ⟨_, _, _, _, rfl, rfl, rfl⟩, ⟨_, _, _, _, rfl, rfl, rfl⟩,
    ⟨_, _, rfl, rfl, rfl, by decide, by decide⟩, ⟨_, _, rfl, rfl⟩, ⟨_, _, rfl, rfl⟩⟩

/-- TR15: 33 bytes from 0xF0 are two frames, the second at 0x10. -/
theorem witness_HardwareSendEmitsItsFrames :
    let s := block .hardware (List.replicate 41 ok)
    let d := List.replicate 33 1#8
    sendForm (.sendBlock 0xF0#8 d) = some (some 0xF0#8, d) ∧ s.transport.isOpen = true ∧
      s.transport.kind = .hardware ∧
      grants (hardwareSendEvents s.transport.addr7 (some 0xF0#8) d) (List.replicate 41 yes) = true ∧
      s.env.bus = (List.replicate 41 yes).map some ++ [] := by decide

theorem witness_HardwareReceiveEmitsItsFrame :
    let s := block .hardware (List.replicate 4 ok)
    receiveForm .receiveByte = some (none, 1) ∧ s.transport.isOpen = true ∧ s.transport.kind = .hardware ∧
      grants (readFrameEvents s.transport.addr7 none 1) (List.replicate 4 yes) = true ∧
      s.env.bus = (List.replicate 4 yes).map some ++ [] := by decide

/-- Two chunks for 33 bytes, one chunk a byte short, a second chunk a byte short, and one whose count never comes. -/
theorem witness_HardwareBlockReceiveJoinsItsChunks :
    let s := device (List.replicate 45 ok) [some 32, some 1]
    let u := device (List.replicate 8 ok) [some 1]
    let v := device (List.replicate 45 ok) [some 32, some 0]
    (s.transport.isOpen = true ∧ s.transport.kind = .hardware ∧
      grants (receiveFrames s.transport.addr7 33 0#8 33) (List.replicate 45 yes) = true ∧
      s.env.bus = (List.replicate 45 yes).map some ++ [] ∧ s.env.blockCounts = [32, 1].map some ++ [] ∧
      [32, 1].length = (33 + 31) / 32 ∧ ∀ k, k < [32, 1].length → min 32 (33 - 32 * k) ≤ [32, 1].getD k 0) ∧
    (grants (receiveFrames u.transport.addr7 1 0#8 2) (List.replicate 8 yes) = true ∧
      u.env.bus = (List.replicate 8 yes).map some ++ [] ∧ u.env.blockCounts = ([] ++ [1]).map some ++ [] ∧
      32 * 0 < 2 ∧ 1 < min 32 (2 - 32 * 0)) ∧
    (grants (receiveFrames v.transport.addr7 2 0#8 33) (List.replicate 45 yes) = true ∧
      v.env.bus = (List.replicate 45 yes).map some ++ [] ∧ v.env.blockCounts = ([32] ++ [0]).map some ++ [] ∧
      (∀ x ∈ [32], 32 ≤ x) ∧ 32 * 1 < 33 ∧ 0 < min 32 (33 - 32 * 1)) ∧
    ((device (List.replicate 45 ok) [some 32, none]).env.blockCounts = [32].map some ++ none :: [] ∧
      32 * [32].length < 33) := by
  decide

/-- A send and a receive of one primitive; TR16, the second chunk of 33 bytes refused; and a block receive of 33 bytes
whose second chunk times out, the first one counted whole; then the same two events never answered. -/
theorem witness_HardwareTransfersFailAtTheFirstRefusal :
    let s := block .hardware [ok, nack, late]
    let u := block .hardware [ok, ok, late]
    let v := block .hardware (List.replicate 36 ok ++ [ok, nack, ok])
    let w := device (List.replicate 38 ok ++ [late]) [some 32]
    (s.transport.isOpen = true ∧ s.transport.kind = .hardware ∧ sendForm (.sendByte 0#8) = some (none, [0#8]) ∧
      writeFrameEvents s.transport.addr7 ((none : Option Byte).toList ++ [0#8]) =
        [.start] ++ .tx 0xD0#8 :: [.tx 0#8, .stop] ∧
      grants [.start] [yes] = true ∧
      s.env.bus = [yes].map some ++ some (.answer false 0#8) :: some .timeout :: []) ∧
    (receiveForm .receiveByte = some (none, 1) ∧
      readFrameEvents u.transport.addr7 none 1 = [.start, .tx 0xD1#8] ++ .rx false :: [.stop] ∧
      grants [.start, .tx 0xD1#8] [yes, yes] = true ∧
      u.env.bus = [yes, yes].map some ++ some .timeout :: []) ∧
    (sendForm (.sendBlock 0#8 (List.replicate 33 1#8)) = some (some 0#8, List.replicate 33 1#8) ∧
      hardwareSendEvents v.transport.addr7 (some 0#8) (List.replicate 33 1#8) =
        (writeFrameEvents 0x68#7 (0#8 :: List.replicate 32 1#8) ++ [.start]) ++
          .tx 0xD0#8 :: [.tx 0x20#8, .tx 1#8, .stop] ∧
      grants (writeFrameEvents 0x68#7 (0#8 :: List.replicate 32 1#8) ++ [.start]) (List.replicate 37 yes) = true ∧
      v.env.bus = (List.replicate 37 yes).map some ++ some (.answer false 0#8) :: some yes :: []) ∧
    (receiveFrames w.transport.addr7 33 0#8 33 =
        readFrameEvents 0x68#7 (some 0#8) 32 ++ .start ::
          [.tx 0xD0#8, .tx 0x20#8, .restart, .tx 0xD1#8, .rx false, .stop] ∧
      [32].length = (readFrameEvents 0x68#7 (some 0#8) 32).count .stop ∧ (∀ c ∈ [32], 32 ≤ c) ∧
      grants (readFrameEvents 0x68#7 (some 0#8) 32) (List.replicate 38 yes) = true ∧
      w.env.blockCounts = [32].map some ++ [] ∧
      w.env.bus = (List.replicate 38 yes).map some ++ some .timeout :: []) ∧
    (block .hardware [ok, nack, none]).env.bus = [yes].map some ++ some (.answer false 0#8) :: none :: [] ∧
    (device (List.replicate 38 ok ++ [none]) [some 32]).env.bus = (List.replicate 38 yes).map some ++ none :: [] := by
  decide

/-- Ids and spans on either side of the bounds. -/
theorem witness_RegisterTransfersAreBoundsChecked :
    ((-1 : Int) < 0 ∨ 19 ≤ (-1 : Int)) ∧ ((19 : Int) < 0 ∨ 19 ≤ (19 : Int)) ∧
    ((1 : Int) < 0 ∨ (19 : Int) < 0 ∨ (19 : Int) < 1 + 19) ∧ ((0x0E : Int) < 0x0F) ∧
    ((0 : Int) ≤ 19 ∧ (19 : Int) ≤ 19) ∧ ((0x0E : Int) ≤ 0x0E) := by decide

theorem witness_SingleReadWritesOneSlot :
    18 < 19 ∧
    (∃ v t, receiveReg (BitVec.ofNat 8 18) (device (readAnswers [0x40#8]) []) = .done v t) ∧
    (∃ st t, receiveReg (BitVec.ofNat 8 18) (device [late] []) = .failed st t) :=
  ⟨by decide, ⟨_, _, rfl⟩, ⟨_, _, rfl⟩⟩

/-- The last two registers, the whole of the range at its end. -/
theorem witness_BlockReadWritesItsRange :
    (0 < 2 ∧ 17 + 2 ≤ 19) ∧
    (∃ t, receiveBlock (BitVec.ofNat 8 17) 2 (device (readAnswers [0x13#8, 0x40#8]) [some 2]) =
      .done [0x13#8, 0x40#8] t) ∧
    (∃ st t, receiveBlock (BitVec.ofNat 8 17) 2 (device [late] []) = .failed st t) ∧
    (∃ st t, receiveBlock (BitVec.ofNat 8 17) 2 (block .bitBanged [late]) = .failed st t) :=
  ⟨by decide, ⟨_, rfl⟩, ⟨_, _, rfl⟩, ⟨_, _, rfl⟩⟩

theorem witness_RegisterWritesSendTheSlots :
    18 < 19 ∧ (0 < 19 ∧ 0 + 19 ≤ 19) ∧
    ((sendForm (.sendReg 0x0F#8 0x08#8)).isSome ∧
      ∃ t, hostExec (.sendReg 0x0F#8 0x08#8) (device (writeAnswers 1) []) = .next t) :=
  ⟨by decide, by decide, by decide, _, rfl⟩

theorem witness_LocalHelpersActOnOneSlot :
    18 < 19 ∧ ((-1 : Int) < 0 ∨ 19 ≤ (-1 : Int)) ∧ ((19 : Int) < 0 ∨ 19 ≤ (19 : Int)) ∧
      (HostOp.regSetBit 18 0x81#8, getReg 18 (block .hardware []) ||| 0x81#8) ∈
        [(HostOp.regSet 18 0x1C#8, 0x1C#8), (.regSetBit 18 0x81#8, getReg 18 (block .hardware []) ||| 0x81#8),
          (.regRemoveBit 18 0x81#8, getReg 18 (block .hardware []) &&& ~~~0x81#8)] := by decide

theorem witness_BcdHelpersUseTheirMasks : 18 < 19 ∧ 255 ≤ 255 := by decide

/-- Each mask at its limit; under `Or` from a slot whose digit bits are clear. -/
theorem witness_BcdRoundTrip :
    0x05 < 19 ∧
    (0xF0#8, 99) ∈ [(0xF0#8, 99), (0x70#8, 79), (0x30#8, 39), (0x10#8, 19)] ∧
    (0x10#8, 19) ∈ [(0xF0#8, 99), (0x70#8, 79), (0x30#8, 39), (0x10#8, 19)] ∧ 19 ≤ 19 ∧
    ((block .hardware []).params.bcdMerge = .replace ∨
      getReg 0x05 (block .hardware []) &&& (0x10#8 ||| 0x0F#8) = 0#8) := by decide

theorem witness_CodecOperationsLeaveTheHostsRegisters :
    isCodec .getTemperature = true ∧
      ∃ t, hostExec .getTemperature (device (readAnswers [0x13#8, 0x40#8]) [some 2]) = .next t := ⟨by decide, _, rfl⟩

theorem witness_TemperatureIsDecoded :
    (∃ t, receiveBlock 0x11#8 2 (clearRegs (device (readAnswers [0x13#8, 0x40#8]) [some 2])) =
      .done [0x13#8, 0x40#8] t) ∧
    (∃ st t, receiveBlock 0x11#8 2 (clearRegs (device [late] [])) = .failed st t) := ⟨⟨_, rfl⟩, ⟨_, _, rfl⟩⟩

theorem witness_ClockStateIsDecoded :
    (∃ t, receiveBlock 0x0E#8 2 (clearRegs (device (readAnswers [0x1C#8, 0x88#8]) [some 2])) =
      .done [0x1C#8, 0x88#8] t) ∧
    (∃ st t, receiveBlock 0x0E#8 2 (clearRegs (device [late] [])) = .failed st t) := ⟨⟨_, rfl⟩, ⟨_, _, rfl⟩⟩

/-- RTC4's registers; the hour byte has its mode bit set, RTC5's has it clear. -/
theorem witness_DateTimeIsDecoded :
    (∃ t, receiveBlock 0x00#8 7
        (clearRegs (device (readAnswers [0x45#8, 0x30#8, 0x72#8, 0x03#8, 0x15#8, 0x86#8, 0x23#8]) [some 7])) =
      .done [0x45#8, 0x30#8, 0x72#8, 0x03#8, 0x15#8, 0x86#8, 0x23#8] t) ∧
    (∃ st t, receiveBlock 0x00#8 7 (clearRegs (device [late] [])) = .failed st t) ∧
    (0x72#8 &&& 0x40#8 = 0x40#8 ∧ 0x23#8 &&& 0x40#8 ≠ 0x40#8) := ⟨⟨_, rfl⟩, ⟨_, _, rfl⟩, by decide⟩

/-- Both hour modes, at the ends of the years. -/
theorem witness_DateTimeRoundTrip :
    fitsDateTime {
      hour := 23, minute := 59, second := 59, mode := .h24, pm := false
      day := 31, weekday := 7, month := 12, year := 1900 } ∧
    fitsDateTime {
      hour := 12, minute := 0, second := 0, mode := .h12, pm := true
      day := 1, weekday := 1, month := 1, year := 2099 } := by
  simp [fitsDateTime, fitsHour]

/-- 1998-01-01, midnight, of P6. -/
abbrev newYear : RtcDateTime where
  hour := 0
  minute := 0
  second := 0
  mode := .h24
  pm := false
  day := 1
  weekday := 4
  month := 1
  year := 1998

/-- A refused write of the time, a read of Control and Status that times out, RTC7 (no bit set: two transfers) and P6
(both set: a third, and the same with its first event timed out). -/
theorem witness_SetDateTimeClearsTheOscillatorBits :
    newYear = { second := (0 : Nat), minute := (0 : Nat), hour := (0 : Nat), mode := newYear.mode, pm := newYear.pm
                weekday := (4 : Nat), day := (1 : Nat), month := (1 : Nat), year := (1998 : Nat) } ∧
    (∃ e t, writeBlock 0 7 (encodeDateTime newYear (clearRegs (device [ok, nack, ok] []))) = .failed e t) ∧
    (∃ t e u, writeBlock 0 7 (encodeDateTime newYear (clearRegs (device (writeAnswers 7 ++ [late]) []))) = .done () t ∧
      receiveBlock 0x0E#8 2 t = .failed e u) ∧
    (∃ t u, writeBlock 0 7 (encodeDateTime newYear
        (clearRegs (device (writeAnswers 7 ++ readAnswers [0x1C#8, 0x00#8]) [some 2]))) = .done () t ∧
      receiveBlock 0x0E#8 2 t = .done [0x1C#8, 0x00#8] u) ∧
    ((0x1C#8).toNat < 128 ∧ (0x00#8).toNat < 128) ∧ (128 ≤ (0x9C#8).toNat ∨ 128 ≤ (0x88#8).toNat) ∧
    (∃ t u w, writeBlock 0 7 (encodeDateTime newYear
        (clearRegs (device (writeAnswers 7 ++ readAnswers [0x9C#8, 0x88#8] ++ writeAnswers 2) [some 2]))) = .done () t ∧
      receiveBlock 0x0E#8 2 t = .done [0x9C#8, 0x88#8] u ∧ sendBlock 0x0E#8 [0x1C#8, 0x08#8] u = .done () w) ∧
    (∃ t u e w, writeBlock 0 7 (encodeDateTime newYear
        (clearRegs (device (writeAnswers 7 ++ readAnswers [0x9C#8, 0x88#8] ++ [late]) [some 2]))) = .done () t ∧
      receiveBlock 0x0E#8 2 t = .done [0x9C#8, 0x88#8] u ∧ sendBlock 0x0E#8 [0x1C#8, 0x08#8] u = .failed e w) :=
  ⟨rfl, ⟨_, _, rfl⟩, ⟨_, _, _, rfl, rfl⟩, ⟨_, _, rfl, rfl⟩, by decide, by decide, ⟨_, _, _, rfl, rfl, rfl⟩,
    ⟨_, _, _, _, rfl, rfl, rfl⟩⟩

/-- The first and the last field of each alarm. -/
theorem witness_ExclusionTable :
    ((0x07, 1) ∈ [(0x07, 1), (0x08, 2), (0x09, 3), (0x0A, 4)]) ∧ ((0x0D, 4) ∈ [(0x0B, 2), (0x0C, 3), (0x0D, 4)]) := by
  decide

/-- R148's example. -/
abbrev morning : RtcAlarm where
  hour := 6
  minute := 30
  second := 15
  mode := .h24
  pm := false
  day := 15
  weekday := 3
  enabled := true
  interval := .hours

theorem witness_AlarmRoundTrip :
    fitsHour morning.toRtcTime ∧ 0 ≤ morning.second ∧ morning.second ≤ 59 ∧ 0 ≤ morning.minute ∧
      morning.minute ≤ 59 ∧ 0 ≤ morning.day ∧ morning.day ≤ 31 ∧ 0 ≤ morning.weekday ∧ morning.weekday ≤ 7 ∧
      morning.second = (15 : Nat) ∧ morning.minute = (30 : Nat) ∧ morning.hour = (6 : Nat) ∧
      morning.weekday = (3 : Nat) ∧ morning.day = (15 : Nat) := by
  simp [fitsHour]

/-- Each transfer of `SetAlarm` and of `GetAlarm` failing in turn, and both whole. -/
theorem witness_AlarmCallsMakeTheirTransfers :
    (∃ e t, writeBlock 0x07 4 (encodeAlarm .first morning (clearRegs (device [ok, nack, ok] []))) = .failed e t) ∧
    (∃ t e u, writeBlock 0x07 4 (encodeAlarm .first morning
        (clearRegs (device (writeAnswers 4 ++ [late]) []))) = .done () t ∧ receiveReg 0x0E#8 t = .failed e u) ∧
    (∃ e t, receiveBlock (BitVec.ofNat 8 0x0B) 3 (clearRegs (device [late] [])) = .failed e t) ∧
    (∃ t e u, receiveBlock (BitVec.ofNat 8 0x07) 4
        (clearRegs (device (readAnswers [0x15#8, 0x30#8, 0x06#8, 0x95#8] ++ [late]) [some 4])) =
          .done [0x15#8, 0x30#8, 0x06#8, 0x95#8] t ∧
      receiveReg 0x0E#8 (putRegs 0x07 [0x15#8, 0x30#8, 0x06#8, 0x95#8] t) = .failed e u) ∧
    (∃ t u w, writeBlock 0x07 4 (encodeAlarm .first morning
        (clearRegs (device (writeAnswers 4 ++ readAnswers [0x1C#8] ++ writeAnswers 1) []))) = .done () t ∧
      receiveReg 0x0E#8 t = .done 0x1C#8 u ∧ sendReg 0x0E#8 0x1D#8 u = .done () w) ∧
    (∃ t u e w, writeBlock 0x07 4 (encodeAlarm .first morning
        (clearRegs (device (writeAnswers 4 ++ readAnswers [0x1C#8] ++ [late]) []))) = .done () t ∧
      receiveReg 0x0E#8 t = .done 0x1C#8 u ∧ sendReg 0x0E#8 0x1D#8 u = .failed e w) ∧
    (∃ t u, receiveBlock (BitVec.ofNat 8 0x0B) 3
        (clearRegs (device (readAnswers [0x05#8, 0x67#8, 0x81#8] ++ readAnswers [0x1E#8]) [some 3])) =
          .done [0x05#8, 0x67#8, 0x81#8] t ∧
      receiveReg 0x0E#8 (putRegs 0x0B [0x05#8, 0x67#8, 0x81#8] t) = .done 0x1E#8 u) :=
  ⟨⟨_, _, rfl⟩, ⟨_, _, _, rfl, rfl⟩, ⟨_, _, rfl⟩, ⟨_, _, _, rfl, rfl⟩, ⟨_, _, _, rfl, rfl, rfl⟩,
    ⟨_, _, _, _, rfl, rfl, rfl⟩, ⟨_, _, rfl, rfl⟩⟩

theorem witness_AlarmEnablesAreReadAndWritten :
    (∃ e t, receiveReg 0x0E#8 (clearRegs (device [ok, nack, ok] [])) = .failed e t) ∧
    (∃ t w, receiveReg 0x0E#8 (clearRegs (device (readAnswers [0x1C#8] ++ writeAnswers 1) [])) = .done 0x1C#8 t ∧
      sendReg 0x0E#8 0x1E#8 t = .done () w) ∧
    (∃ t e w, receiveReg 0x0E#8 (clearRegs (device (readAnswers [0x1C#8] ++ [late]) [])) = .done 0x1C#8 t ∧
      sendReg 0x0E#8 0x1E#8 t = .failed e w) := ⟨⟨_, _, rfl⟩, ⟨_, _, rfl, rfl⟩, ⟨_, _, _, rfl, rfl⟩⟩

/-- RTC19 (the read fails), RTC18 (neither flag) and RTC17 (the second flag, one write; and the write timed out). -/
theorem witness_TriggersAreAcknowledgedOnce :
    (∃ e t, receiveReg 0x0F#8 (clearRegs (device [ok, nack, ok] [])) = .failed e t) ∧
    (∃ t, receiveReg 0x0F#8 (clearRegs (device (readAnswers [0x88#8]) [])) = .done 0x88#8 t) ∧
    (0x88#8 &&& 0x03#8 = 0#8 ∧ 0x8A#8 &&& 0x03#8 ≠ 0#8) ∧
    (∃ t w, receiveReg 0x0F#8 (clearRegs (device (readAnswers [0x8A#8] ++ writeAnswers 1) [])) = .done 0x8A#8 t ∧
      sendReg 0x0F#8 (0x8A#8 &&& 0xFC#8) t = .done () w) ∧
    (∃ t e w, receiveReg 0x0F#8 (clearRegs (device (readAnswers [0x8A#8] ++ [late]) [])) = .done 0x8A#8 t ∧
      sendReg 0x0F#8 (0x8A#8 &&& 0xFC#8) t = .failed e w) :=
  ⟨⟨_, _, rfl⟩, ⟨_, rfl⟩, by decide, ⟨_, _, rfl, rfl⟩, ⟨_, _, _, rfl, rfl⟩⟩

/-- In the middle of an execution, with a transaction open. -/
theorem witness_EveryStepKeepsTheInvariant :
    (at_ [0x03#8, 0x00#8] .writing (some 0x68#7) [ok]).Inv ∧
      ∃ t, step (at_ [0x03#8, 0x00#8] .writing (some 0x68#7) [ok]) = .next t := ⟨by decide, _, rfl⟩

theorem witness_TheConfigurationIsFixed :
    let s := { block .hardware [] with hostOps := [HostOp.close] }
    (∃ t, step s = .next t) ∧ ∀ op rest, s.run ≠ .running → s.hostOps = op :: rest → isConstruction op = false :=
  ⟨⟨_, rfl⟩, fun op rest _ h => by cases h; rfl⟩

theorem witness_TheHostIsServedOneOperationAtATime :
    ((at_ [0x00#8] .idle none []).run = .running ∧ ∃ t, step (at_ [0x00#8] .idle none []) = .next t) ∧
    ((block .hardware []).run ≠ .running ∧ (block .hardware []).hostOps = []) ∧
    ({ block .hardware [] with hostOps := [HostOp.close] } : State).hostOps = HostOp.close :: [] :=
  ⟨⟨rfl, _, rfl⟩, by decide, by decide⟩

end Sys2Proof.Tests
end

section
/-! PROOFS. O24 and O60: what a command does at the first bus event that is refused or never answered, and what the
host port does in a step (00_scope.md R7, R11; 42_sequencer.md R95, R100 to R108; 70_reset_and_hazards.md R182,
R183). -/

namespace Sys2Proof.Machine

/-! ### Events that are never answered -/

/-- `Fail` with a transaction open is stuck when its `P` is never answered (42_sequencer.md R95). -/
theorem abort_silent {q : Reason} {s : State} {rest : List (Option BusReply)} (hq : q ≠ .timeout)
    (hp : s.phase ≠ .idle) (hb : s.env.bus = none :: rest) : abort q s = .fault .environmentSilent := by
  simp [abort, hq, hp, emit_silent hb]

theorem signal_silent (e : BusEvent) {s : State} {rest : List (Option BusReply)} (hb : s.env.bus = none :: rest) :
    signal e s = .fault .environmentSilent := by
  simp [signal, emit_silent hb]

theorem txByte_silent (b : Byte) {s : State} {rest : List (Option BusReply)} (hb : s.env.bus = none :: rest) :
    txByte b s = .fault .environmentSilent := by
  simp [txByte, emit_silent hb]

theorem rxByte_silent (ack : Bool) {s : State} {rest : List (Option BusReply)} (hb : s.env.bus = none :: rest) :
    rxByte ack s = .fault .environmentSilent := by
  simp [rxByte, emit_silent hb]

/-- Bytes stored up to an event that is never answered. -/
theorem rxStore_silent (n : Nat) (s : State) (pre post : List BusEvent) (e : BusEvent) (rs : List BusReply)
    (rest : List (Option BusReply)) (hes : rxEvents n = pre ++ e :: post) (hg : grants pre rs = true)
    (hb : s.env.bus = rs.map some ++ none :: rest) : rxStore n s = .fault .environmentSilent := by
  induction n generalizing s pre rs with
  | zero => simp [rxEvents] at hes
  | succ n ih =>
    cases pre with
    | nil =>
      rw [grants_nil hg] at hb
      rw [rxStore, rxByte_silent _ (by simpa using hb), bind_fault]
    | cons e' pre =>
      obtain ⟨ack, v, rs, rfl, -, hg⟩ := grants_cons hg
      simp only [rxEvents, List.cons_append, List.cons.injEq] at hes
      obtain ⟨rfl, hes⟩ := hes
      rw [rxStore, rxByte_played (by simpa using hb), bind_done, ih _ pre rs hes hg (by simp)]

/-- An address phase opens with at most one event. -/
theorem openEvents_split {p : Phase} {pre post : List BusEvent} {e : BusEvent} (h : openEvents p = pre ++ e :: post) :
    pre = [] := by
  have hlen := congrArg List.length h
  have hle : (openEvents p).length ≤ 1 := by cases p <;> simp [openEvents]
  simp only [List.length_append, List.length_cons] at hlen
  exact List.length_eq_zero_iff.1 (by omega)

theorem openPhase_silent {s : State} {rest : List (Option BusReply)} (he : openEvents s.phase ≠ [])
    (hb : s.env.bus = none :: rest) : openPhase s = .fault .environmentSilent := by
  cases hp : s.phase with
  | idle => simp [openPhase, hp, signal_silent _ hb]
  | writing => simp [openPhase, hp, signal_silent _ hb]
  | readDone => simp [openPhase, hp, signal_silent _ hb]
  | started => simp [hp, openEvents] at he
  | reading => simp [hp, openEvents] at he

/-- An address phase up to an event that is never answered. -/
theorem addrPhase_silent (isRead : Bool) (s : State) (a : Addr7) (pre post : List BusEvent) (e : BusEvent)
    (rs : List BusReply) (rest : List (Option BusReply)) (ha : s.addr = some a)
    (hes : openEvents s.phase ++ [.tx (addrByte a isRead)] = pre ++ e :: post) (hg : grants pre rs = true)
    (hb : s.env.bus = rs.map some ++ none :: rest) : addrPhase isRead s = .fault .environmentSilent := by
  rcases append_eq_split hes with ⟨p, hopen⟩ | ⟨p, rfl, hbyte⟩
  · obtain rfl := openEvents_split hopen
    rw [grants_nil hg] at hb
    simp only [addrPhase, ha, openPhase_silent (by simp [hopen]) hb, bind_fault]
  · obtain rfl : p = [] := by cases p <;> simp at hbyte; rfl
    rw [List.append_nil] at hg
    simp only [addrPhase, ha, openPhase_played s rs (none :: rest) hg hb, bind_done]
    rw [txByte_silent (rest := rest) _ rfl, bind_fault]

/-! ### The events of a transfer -/

/-- Events without an `RX` bring no byte. -/
theorem received_of_no_rx {es : List BusEvent} (rs : List BusReply) (h : ∀ ack, .rx ack ∉ es) :
    received es rs = [] := by
  induction es generalizing rs with
  | nil => cases rs <;> rfl
  | cons e es ih =>
    have hes : ∀ ack, .rx ack ∉ es := fun ack hm => h ack (List.mem_cons_of_mem _ hm)
    cases rs with
    | nil => cases e <;> rfl
    | cons r rs =>
      cases e with
      | rx ack => exact absurd List.mem_cons_self (h ack)
      | start => exact ih rs hes
      | restart => exact ih rs hes
      | stop => exact ih rs hes
      | tx b => exact ih rs hes

/-- An address phase clocks in no byte. -/
theorem addrEvents_no_rx (p : Phase) (b : Byte) (ack : Bool) : .rx ack ∉ openEvents p ++ [.tx b] := by
  cases p <;> simp [openEvents]

@[simp] theorem stored_nil (s : State) : stored [] s = s := rfl

/-- A `Write` that goes on in an open write transaction is its bytes (42_sequencer.md R102). -/
theorem writePayload_of_writing {d : List Byte} {s : State} (hd : d ≠ []) (hp : s.phase = .writing) :
    writePayload d s = finish (txAll d s) .writing := by
  simp [writePayload, hd, hp]

/-- Any other `Write` begins with an address phase (42_sequencer.md R102). -/
theorem writePayload_of_not_writing {d : List Byte} {s : State} (hd : d ≠ []) (hp : s.phase ≠ .writing) :
    writePayload d s = finish ((addrPhase false s).bind fun _ t => txAll d t) .writing := by
  simp [writePayload, hd, hp]

/-- A `Read` that fits in `RSP` is an address phase and its bytes (42_sequencer.md R103). -/
theorem readInto_of_fits {n : Nat} {s : State} (hn : 0 < n) (hfit : n ≤ s.rsp.cap - s.rsp.wr) :
    readInto n s = finish ((addrPhase true s).bind fun _ t => rxStore n t) .readDone := by
  rw [readInto, if_neg (by omega), if_neg (by simpa [ByteBuffer.writeRemaining] using hfit)]

/-- A `Write` is stuck at the first of its events that is never answered (00_scope.md R11). -/
theorem writePayload_silent (d : List Byte) (s : State) (a : Addr7) (pre post : List BusEvent) (e : BusEvent)
    (rs : List BusReply) (rest : List (Option BusReply)) (hd : d ≠ []) (ha : s.addr = some a)
    (hes : writeEvents s.phase a d = pre ++ e :: post) (hg : grants pre rs = true)
    (hb : s.env.bus = rs.map some ++ none :: rest) : writePayload d s = .fault .environmentSilent := by
  by_cases hp : s.phase = .writing
  · simp only [writeEvents, hp, if_true, List.nil_append] at hes
    rw [writePayload_of_writing hd hp, txAll_silent d s pre post e rs rest hes hg hb, finish]
  · simp only [writeEvents, hp, if_false] at hes
    rw [writePayload_of_not_writing hd hp]
    rcases append_eq_split hes with ⟨p, haddr⟩ | ⟨p, rfl, hdata⟩
    · rw [addrPhase_silent false s a pre p e rs rest ha haddr hg hb, bind_fault, finish]
    · obtain ⟨r1, r2, rfl, hg1, hg2, -⟩ := grants_append hg
      rw [addrPhase_played false s a r1 (r2.map some ++ none :: rest) ha hg1 (by simpa using hb), bind_done,
        txAll_silent d _ p post e r2 rest hdata hg2 rfl, finish]

/-- A `Read` that fits is stuck at the first of its events that is never answered (00_scope.md R11). -/
theorem readInto_silent (n : Nat) (s : State) (a : Addr7) (pre post : List BusEvent) (e : BusEvent)
    (rs : List BusReply) (rest : List (Option BusReply)) (hn : 0 < n) (hfit : n ≤ s.rsp.cap - s.rsp.wr)
    (ha : s.addr = some a) (hes : readEvents s.phase a n = pre ++ e :: post) (hg : grants pre rs = true)
    (hb : s.env.bus = rs.map some ++ none :: rest) : readInto n s = .fault .environmentSilent := by
  rw [readInto_of_fits hn hfit]
  rcases append_eq_split hes with ⟨p, haddr⟩ | ⟨p, rfl, hdata⟩
  · rw [addrPhase_silent true s a pre p e rs rest ha haddr hg hb, bind_fault, finish]
  · obtain ⟨r1, r2, rfl, hg1, hg2, -⟩ := grants_append hg
    rw [addrPhase_played true s a r1 (r2.map some ++ none :: rest) ha hg1 (by simpa using hb), bind_done,
      rxStore_silent n _ p post e r2 rest hdata hg2 rfl, finish]

/-- A `Write` whose event is refused fails there, after a refused byte with the transaction still open
(42_sequencer.md R102, R104). -/
theorem writePayload_refused (d : List Byte) (s : State) (a : Addr7) (pre post : List BusEvent) (e : BusEvent)
    (rs : List BusReply) (r : BusReply) (q : Reason) (rest : List (Option BusReply)) (hd : d ≠ [])
    (ha : s.addr = some a) (hes : writeEvents s.phase a d = pre ++ e :: post) (hg : grants pre rs = true)
    (h : refusal e r = some q) (hb : s.env.bus = rs.map some ++ some r :: rest) :
    ∃ ph, writePayload d s = abort q { played (pre ++ [e]) rest s with phase := ph } ∧
      ((∃ b, e = .tx b) → ph ≠ .idle) := by
  by_cases hp : s.phase = .writing
  · simp only [writeEvents, hp, if_true, List.nil_append] at hes
    refine ⟨.writing, ?_, fun _ => by decide⟩
    rw [writePayload_of_writing hd hp, txAll_refused d s pre post e rs r q rest hes hg h hb, finish, ← hp]
    rfl
  · simp only [writeEvents, hp, if_false] at hes
    rw [writePayload_of_not_writing hd hp]
    rcases append_eq_split hes with ⟨p, haddr⟩ | ⟨p, rfl, hdata⟩
    · obtain ⟨ph, hx, hph⟩ := addrPhase_refused false s a pre p e rs r q rest ha haddr hg h hb
      exact ⟨ph, by rw [hx, bind_failed, finish], hph⟩
    · obtain ⟨r1, r2, rfl, hg1, hg2, -⟩ := grants_append hg
      refine ⟨.writing, ?_, fun _ => by decide⟩
      rw [addrPhase_played false s a r1 (r2.map some ++ some r :: rest) ha hg1 (by simpa using hb), bind_done,
        txAll_refused d _ p post e r2 r q rest hdata hg2 h rfl, finish]
      simp [played]

/-- A `Read` that fits and whose event is refused fails there with the bytes received by then stored, after a refused
address byte with the transaction still open (42_sequencer.md R103, R104). -/
theorem readInto_refused (n : Nat) (s : State) (a : Addr7) (pre post : List BusEvent) (e : BusEvent)
    (rs : List BusReply) (r : BusReply) (q : Reason) (rest : List (Option BusReply)) (hn : 0 < n)
    (hfit : n ≤ s.rsp.cap - s.rsp.wr) (ha : s.addr = some a) (hes : readEvents s.phase a n = pre ++ e :: post)
    (hg : grants pre rs = true) (h : refusal e r = some q) (hb : s.env.bus = rs.map some ++ some r :: rest) :
    ∃ ph, readInto n s = abort q { stored (received pre rs) (played (pre ++ [e]) rest s) with phase := ph } ∧
      ((∃ b, e = .tx b) → ph ≠ .idle) := by
  rw [readInto_of_fits hn hfit]
  rcases append_eq_split hes with ⟨p, haddr⟩ | ⟨p, rfl, hdata⟩
  · obtain ⟨ph, hx, hph⟩ := addrPhase_refused true s a pre p e rs r q rest ha haddr hg h hb
    have hrx : ∀ ack, .rx ack ∉ pre := fun ack hm =>
      addrEvents_no_rx s.phase (addrByte a true) ack (haddr ▸ List.mem_append_left _ hm)
    exact ⟨ph, by rw [hx, bind_failed, finish, received_of_no_rx rs hrx, stored_nil], hph⟩
  · obtain ⟨r1, r2, rfl, hg1, hg2, hrec⟩ := grants_append hg
    refine ⟨.reading, ?_, fun _ => by decide⟩
    rw [addrPhase_played true s a r1 (r2.map some ++ some r :: rest) ha hg1 (by simpa using hb), bind_done,
      rxStore_refused n _ p post e r2 r q rest hdata hg2 h rfl, finish, hrec,
      received_of_no_rx r1 (addrEvents_no_rx s.phase _)]
    simp [played, stored]

/-! ### The commands -/

/-- `Write` and ESC `Write` are the payload's transfer (42_sequencer.md R102, R105). -/
theorem exec_of_write {i : Instr} {d : List Byte} (h : i = .write d ∨ i = .escWrite d) (s : State) :
    exec i s = writePayload d s := by
  rcases h with rfl | rfl <;> rfl

/-- `Read` and ESC `Read` are the transfer of as many bytes as their operand says (42_sequencer.md R103, R105). -/
theorem exec_of_read {i : Instr} {n : Nat}
    (h : i = .read (BitVec.ofNat 8 n) ∧ n ≤ 255 ∨ i = .escRead (BitVec.ofNat 16 n) ∧ n ≤ 65535) (s : State) :
    exec i s = readInto n s := by
  rcases h with ⟨rfl, hn⟩ | ⟨rfl, hn⟩
  · rw [exec, execRead, BitVec.toNat_ofNat, Nat.mod_eq_of_lt (by omega)]
  · rw [exec, execEscRead, BitVec.toNat_ofNat, Nat.mod_eq_of_lt (by omega)]

/-- START is stuck when its event is never answered (42_sequencer.md R97). -/
theorem exec_start_silent {s : State} {rest : List (Option BusReply)} (hb : s.env.bus = none :: rest) :
    exec .start s = .fault .environmentSilent := by
  simp [exec, execStart, emit_silent hb]

/-- With a transaction open, a command whose event is a `P` is stuck when it is never answered (42_sequencer.md R95,
R96, R98, R105, R107). -/
theorem exec_closing_silent {i : Instr} {op : Byte} {s : State} {rest : List (Option BusReply)}
    (hi : i ∈ [Instr.stop, .endCmd, .flags, .illegal op, .escape op]) (hp : s.phase ≠ .idle)
    (hb : s.env.bus = none :: rest) : exec i s = .fault .environmentSilent := by
  simp only [List.mem_cons, List.not_mem_nil, or_false] at hi
  rcases hi with rfl | rfl | rfl | rfl | rfl
  · simp [exec, execStop, hp, emit_silent hb]
  · simp [exec, execEnd, hp, emit_silent hb]
  · exact abort_silent (by decide) hp hb
  · exact abort_silent (by decide) hp hb
  · exact abort_silent (by split <;> decide) hp hb

/-- ADDR above 0x7F fails, so it is stuck like every `Fail` (42_sequencer.md R99). -/
theorem exec_addr_silent {a : Byte} {s : State} {rest : List (Option BusReply)} (ha : 0x7F < a.toNat)
    (hp : s.phase ≠ .idle) (hb : s.env.bus = none :: rest) : exec (.addr a) s = .fault .environmentSilent := by
  rw [exec, execAddr, if_pos ha, abort_silent (by decide) hp hb]

/-! ### The host port -/

/-- A command of an execution leaves the register set image, the transport, the parameters, the last result and the
host's operations as they were. -/
theorem stepCommand_same {s t : State} (h : stepCommand s = .next t) : SameImage s t := by
  rcases stepCommand_next h with ⟨i, n, -, hexec⟩ | ⟨w, n, -, habort⟩
  · exact exec_same (s := advance n s) hexec
  · obtain ⟨tr, env, rfl⟩ := abort_next habort
    exact SameImage.refl s

theorem step_of_running {s : State} (h : s.run = .running) : step s = stepCommand s := if_pos h

/-- With no execution in progress a step serves the first operation on the host port (00_scope.md R7). -/
theorem step_serves_first {s : State} {op : HostOp} {rest : List HostOp} (h : s.run ≠ .running)
    (hops : s.hostOps = op :: rest) : step s = hostExec op { s with hostOps := rest } := by
  simp [step, h, stepHost, hops]

theorem launch_of_busy {s : State} (op : HostOp) (h : s.run = .running ∨ s.hostOps ≠ []) :
    launch op s = .refused .overlappingLaunch := if_pos h

theorem launch_of_free {s : State} (op : HostOp) (hr : s.run ≠ .running) (hops : s.hostOps = []) :
    launch op s = .next { s with hostOps := [op] } := by
  simp [launch, hr, hops]

/-! ### The obligations -/

/-- Settles O24: an event of a transfer without an answer is `writePayload_silent` and `readInto_silent`, the `P` after
a `Nack` is the closing `P` of the `Fail` that `writePayload_refused` and `readInto_refused` end in. -/
theorem anEventNeverAnsweredIsStuck : Obligations.AnEventNeverAnsweredIsStuck := by
  intro s rest
  refine ⟨exec_start_silent, fun hb hp op => ⟨fun i hi => exec_closing_silent hi hp hb,
    fun ha => exec_addr_silent ha hp hb, fun reason hq => abort_silent hq hp hb⟩, ?_⟩
  rintro i a es pre post e replies haddr (⟨d, hd, hi, rfl⟩ | ⟨n, hn, hi, hfit, rfl⟩) hes hg
  · rw [exec_of_write hi]
    refine ⟨writePayload_silent d s a pre post e replies rest hd haddr hes hg, ?_⟩
    rintro b v rfl hb
    obtain ⟨ph, hx, hph⟩ := writePayload_refused d s a pre post (.tx b) replies _ .nack _ hd haddr hes hg rfl hb
    rw [hx, abort_silent (by decide) (hph ⟨b, rfl⟩) rfl]
  · rw [exec_of_read hi]
    refine ⟨readInto_silent n s a pre post e replies rest hn hfit haddr hes hg, ?_⟩
    rintro b v rfl hb
    obtain ⟨ph, hx, hph⟩ := readInto_refused n s a pre post (.tx b) replies _ .nack _ hn hfit haddr hes hg rfl hb
    rw [hx, abort_silent (by decide) (hph ⟨b, rfl⟩) rfl]

/-- Settles O60: the launch and the step are read off the port's own equations, and a command of an execution leaves the
host's operations alone (`stepCommand_same`). -/
theorem theHostIsServedOneOperationAtATime : Obligations.TheHostIsServedOneOperationAtATime := by
  intro s op
  refine ⟨launch_of_busy op, fun hr hops => ⟨_, launch_of_free op hr hops, ?_⟩,
    fun hr rest hops => step_serves_first hr hops, fun hr t ht => ?_⟩
  · rw [step_serves_first (s := { s with hostOps := [op] }) (rest := []) hr rfl, ← hops]
  · rw [step_of_running hr] at ht
    obtain ⟨-, -, -, -, hhost⟩ := stepCommand_same ht
    exact hhost

end Sys2Proof.Machine
end

section
/-! PROOFS. O57, O58 and O59: what a step keeps. A command of an execution keeps the invariant, an execution between
two host operations ends in a quiet block, and every host operation but a construction keeps the invariant, the
parameters, the configuration and the capacities (10_state.md R13, R14, R17, R21; 40_byte_buffer.md R78;
42_sequencer.md R95, R96). -/

namespace Sys2Proof.Machine

/-! ### One command of an execution -/

@[simp] theorem unread_length (b : ByteBuffer) : b.unread.length = b.readRemaining := Memory.readList_length _ _ _

theorem sound_advance {b : ByteBuffer} {n : Nat} (h : b.Sound) (hn : n ≤ b.readRemaining) :
    ({ b with rd := b.rd + n } : ByteBuffer).Sound := by
  obtain ⟨hrd, hwr, hstore, hcells⟩ := h
  simp only [ByteBuffer.readRemaining] at hn
  exact ⟨by simp only; omega, hwr, hstore, hcells⟩

/-- A command of an execution has the effect of some command after the bytes fetched; a fetch that runs out of bytes
has the one every `Fail` has, FLAGS' for example (42_sequencer.md R94, R95). -/
theorem stepCommand_effect {s t : State} (h : stepCommand s = .next t) :
    ∃ i n, n ≤ s.cmd.readRemaining ∧ CommandEffect i (advance n s) t := by
  rcases stepCommand_next h with ⟨i, n, hd, hexec⟩ | ⟨w, n, hd, habort⟩
  · exact ⟨i, n, unread_length s.cmd ▸ (decode_length hd).2, exec_effect i _ t hexec⟩
  · exact ⟨.flags, n, unread_length s.cmd ▸ decode_missing_length hd,
      abort_effect (Moved.refl _) (by simp) (.inl rfl) habort⟩

/-- A command leaves `CMD` and, of `RSP`, the capacity and the read cursor. -/
theorem CommandEffect.buffers {i : Instr} {s t : State} (h : CommandEffect i s t) :
    t.cmd = s.cmd ∧ t.rsp.cap = s.rsp.cap ∧ t.rsp.rd = s.rsp.rd := by
  obtain ⟨data, tr, env, ph, ad, run, rfl, -⟩ := h
  exact ⟨rfl, rfl, rfl⟩

theorem CommandEffect.inv {i : Instr} {s t : State} (h : CommandEffect i s t) (hs : s.Inv) (hr : s.run = .running) :
    t.Inv := by
  obtain ⟨data, tr, env, ph, ad, run, rfl, -, hfit, -, hend⟩ := h
  obtain ⟨hcmd, hrsp, hph, -⟩ := hs
  have hroom : data.length ≤ s.rsp.cap - s.rsp.wr := by
    rcases hfit with rfl | hfit
    · simp
    · omega
  refine ⟨hcmd, sound_write data hrsp hroom, ?_⟩
  rcases hend with ⟨q, -, rfl⟩ | ⟨-, -, rfl, -⟩ | ⟨-, rfl, -, hp⟩
  · exact ⟨Phase.noConfusion, .inr rfl⟩
  · exact ⟨Phase.noConfusion, .inr rfl⟩
  · exact ⟨hp.elim (fun e => e ▸ hph) id, .inl hr⟩

theorem stepCommand_inv {s t : State} (hs : s.Inv) (hr : s.run = .running) (h : stepCommand s = .next t) : t.Inv := by
  obtain ⟨i, n, hn, heff⟩ := stepCommand_effect h
  obtain ⟨hcmd, hrest⟩ := hs
  exact heff.inv ⟨sound_advance hcmd hn, hrest⟩ hr

theorem stepCommand_buffers {s t : State} (h : stepCommand s = .next t) :
    t.cmd.cap = s.cmd.cap ∧ t.rsp.cap = s.rsp.cap ∧ t.rsp.rd = s.rsp.rd := by
  obtain ⟨i, n, -, heff⟩ := stepCommand_effect h
  obtain ⟨hcmd, hrsp⟩ := heff.buffers
  exact ⟨by rw [hcmd]; rfl, hrsp⟩

/-- A command that lets the execution go on has consumed a byte (42_sequencer.md R108). -/
theorem stepCommand_consumes {s t : State} (h : stepCommand s = .next t) (hr : t.run = .running) :
    t.cmd.readRemaining < s.cmd.readRemaining := by
  rcases stepCommand_next h with ⟨i, n, hd, hexec⟩ | ⟨w, n, -, habort⟩
  · obtain ⟨hpos, hle⟩ := decode_length hd
    obtain ⟨hcmd, -⟩ := (exec_effect i _ t hexec).buffers
    rw [unread_length] at hle
    simp only [hcmd, advance_cmd, ByteBuffer.readRemaining] at hle ⊢
    omega
  · obtain ⟨tr, env, rfl⟩ := abort_next habort
    cases hr

/-! ### A whole execution -/

/-- What the main loop does: one command, then the rest of the execution unless it has ended. -/
theorem runCommands_succ_next {fuel : Nat} {s t : State} (h : runCommands (fuel + 1) s = .next t) :
    ∃ u, stepCommand s = .next u ∧
      (u.run = .running ∧ runCommands fuel u = .next t ∨ u.run ≠ .running ∧ u = t) := by
  rw [runCommands] at h
  split at h
  · next u hu =>
    split at h
    · next hr => exact ⟨u, hu, .inl ⟨hr, h⟩⟩
    · next hr => cases h; exact ⟨_, hu, .inr ⟨hr, rfl⟩⟩
  · cases h
  · cases h

/-- What every command of an execution keeps holds of the state the main loop leaves. -/
theorem runCommands_induction {P : State → Prop}
    (hstep : ∀ {u v}, P u → u.run = .running → stepCommand u = .next v → P v) {fuel : Nat} {s t : State} (hs : P s)
    (hr : s.run = .running) (h : runCommands fuel s = .next t) : P t := by
  induction fuel generalizing s with
  | zero => cases h; exact hs
  | succ fuel ih =>
    obtain ⟨u, hu, ⟨hru, hrest⟩ | ⟨-, rfl⟩⟩ := runCommands_succ_next h
    · exact ih (hstep hs hr hu) hru hrest
    · exact hstep hs hr hu

/-- The main loop ends the execution when it may run more commands than bytes are unread (42_sequencer.md R108). -/
theorem runCommands_ends {fuel : Nat} {s t : State} (hf : s.cmd.readRemaining < fuel)
    (h : runCommands fuel s = .next t) : t.run ≠ .running := by
  induction fuel generalizing s with
  | zero => omega
  | succ fuel ih =>
    obtain ⟨u, hu, ⟨hru, hrest⟩ | ⟨hru, rfl⟩⟩ := runCommands_succ_next h
    · have := stepCommand_consumes hu hru
      exact ih (by omega) hrest
    · exact hru

theorem runCommands_buffers {fuel : Nat} {s t : State} (hr : s.run = .running) (h : runCommands fuel s = .next t) :
    t.cmd.cap = s.cmd.cap ∧ t.rsp.cap = s.rsp.cap ∧ t.rsp.rd = s.rsp.rd :=
  runCommands_induction (P := fun u => u.cmd.cap = s.cmd.cap ∧ u.rsp.cap = s.rsp.cap ∧ u.rsp.rd = s.rsp.rd)
    (fun ⟨h1, h2, h3⟩ _ hv =>
      let ⟨e1, e2, e3⟩ := stepCommand_buffers hv
      ⟨e1.trans h1, e2.trans h2, e3.trans h3⟩) ⟨rfl, rfl, rfl⟩ hr h

theorem QuietInv.inv {s : State} (h : QuietInv s) : s.Inv := by
  obtain ⟨hcmd, hrsp, hp⟩ := h
  exact ⟨hcmd, hrsp, by simp [hp], .inr hp⟩

theorem State.Inv.quiet {s : State} (h : s.Inv) (hr : s.run ≠ .running) : QuietInv s := by
  obtain ⟨hcmd, hrsp, -, hp⟩ := h
  exact ⟨hcmd, hrsp, hp.resolve_left hr⟩

theorem runCommands_kept {fuel : Nat} {s t : State} (hr : s.run = .running) (hf : s.cmd.readRemaining < fuel)
    (h : runCommands fuel s = .next t) : Kept s t := by
  obtain ⟨-, htransport, hparams, -, -⟩ := runCommands_same fuel s t h
  obtain ⟨hcmd, hrsp, -⟩ := runCommands_buffers hr h
  have hinv : QuietInv s → QuietInv t := fun hq =>
    (runCommands_induction stepCommand_inv hq.inv hr h).quiet (runCommands_ends hf h)
  exact ⟨hinv, hparams, by rw [htransport], by rw [htransport], by rw [htransport], hcmd, hrsp⟩

theorem beginExecution_kept (s : State) : Kept s (beginExecution s) :=
  ⟨fun ⟨⟨_, hwr, hstore⟩, hrsp, _⟩ => ⟨⟨Nat.zero_le _, hwr, hstore⟩, rewind_sound hrsp, rfl⟩,
    rfl, rfl, rfl, rfl, rfl, rfl⟩

theorem executeReference_kept {s t : State} (h : executeReference s = .next t) : Kept s t :=
  (beginExecution_kept s).trans (runCommands_kept rfl (by simp [ByteBuffer.readRemaining]) h)

/-- A draw leaves sound buffers when no byte of `RSP` has been read, as at the start of an execution (42_sequencer.md
R93, R109). -/
theorem applyDraw_kept (d : ExecDraw) {s : State} (h0 : s.rsp.rd = 0) : Kept s (applyDraw d s) := by
  refine ⟨fun ⟨⟨_, hwr, hstore⟩, hrsp, hp⟩ => ⟨⟨Nat.min_le_right _ _, hwr, hstore⟩, ?_, hp⟩,
    rfl, rfl, rfl, rfl, rfl, rfl⟩
  have hlen : (d.bytes.take s.rsp.cap).length ≤ s.rsp.rewind.cap - s.rsp.rewind.wr := by
    simp
  simpa [ByteBuffer.rewind, applyDraw, h0] using sound_write _ (rewind_sound hrsp) hlen

/-- An execution drawn by the environment is a draw on the state at its start (42_sequencer.md R109). -/
theorem executeOracle_next {s t : State} (h : executeOracle s = .next t) :
    ∃ d env, t = applyDraw d { beginExecution s with env := env } := by
  unfold executeOracle askExecution at h
  split at h
  · cases h
  · next d u hu =>
    split at hu
    · cases hu; cases h; exact ⟨d, _, rfl⟩
    · cases hu

theorem kept_env (s : State) (env : Env) : Kept s { s with env := env } := ⟨id, rfl, rfl, rfl, rfl, rfl, rfl⟩

theorem executeOracle_kept {s t : State} (h : executeOracle s = .next t) : Kept s t := by
  obtain ⟨d, env, rfl⟩ := executeOracle_next h
  exact ((beginExecution_kept s).trans (kept_env _ env)).trans (applyDraw_kept d rfl)

theorem execute_kept {s t : State} (h : execute s = .next t) : Kept s t := by
  unfold execute at h
  split at h
  · exact executeReference_kept h
  · exact executeOracle_kept h

/-- An execution reads no byte of `RSP` (42_sequencer.md R93, R103, R109). -/
theorem execute_rsp_rd {s t : State} (h : execute s = .next t) : t.rsp.rd = 0 := by
  unfold execute at h
  split at h
  · obtain ⟨-, -, hrd⟩ := runCommands_buffers rfl h
    exact hrd
  · obtain ⟨d, env, rfl⟩ := executeOracle_next h
    rfl

/-! ### The Byte Buffer operations -/

/-- The second buffer has the first one's capacity and is sound if the first is. -/
def BufferKept (b x : ByteBuffer) : Prop := x.cap = b.cap ∧ (b.Sound → x.Sound)

theorem write_kept {b x : ByteBuffer} {bytes : List Byte} (h : b.write bytes = some x) : BufferKept b x := by
  unfold ByteBuffer.write at h
  split at h <;> cases h
  next hroom => exact ⟨rfl, fun hb => sound_write bytes hb (not_lt.1 hroom)⟩

theorem read8_kept {b x : ByteBuffer} {v : Byte} (h : b.read8 = some (v, x)) : BufferKept b x := by
  unfold ByteBuffer.read8 at h
  split at h <;> cases h
  next hspan => exact ⟨rfl, fun hb => sound_advance hb (not_lt.1 hspan)⟩

theorem read_kept {b x : ByteBuffer} {n : Nat} {l : List Byte} (h : b.read n = some (l, x)) : BufferKept b x := by
  unfold ByteBuffer.read at h
  split at h <;> cases h
  next hspan => exact ⟨rfl, fun hb => sound_advance hb (not_lt.1 hspan)⟩

theorem setWriteLength_kept {b x : ByteBuffer} {n : Nat} (hrd : b.rd ≤ n) (h : b.setWriteLength n = some x) :
    BufferKept b x := by
  unfold ByteBuffer.setWriteLength at h
  split at h <;> cases h
  next hcap => exact ⟨rfl, fun ⟨_, _, hstore⟩ => ⟨hrd, not_lt.1 hcap, hstore⟩⟩

theorem rewind_kept (b : ByteBuffer) : BufferKept b b.rewind := ⟨rfl, rewind_sound⟩

theorem clear_kept (b : ByteBuffer) : BufferKept b b.clear := ⟨rfl, fun _ => clear_sound b⟩

theorem putBuffer_kept {b : BufferId} {x : ByteBuffer} {s : State} (h : BufferKept (getBuffer b s) x) :
    Kept s (putBuffer b x s) := by
  obtain ⟨hcap, hsound⟩ := h
  cases b with
  | cmd => exact ⟨fun ⟨hcmd, hrsp, hp⟩ => ⟨hsound hcmd, hrsp, hp⟩, rfl, rfl, rfl, rfl, hcap, rfl⟩
  | rsp => exact ⟨fun ⟨hcmd, hrsp, hp⟩ => ⟨hcmd, hsound hrsp, hp⟩, rfl, rfl, rfl, rfl, rfl, hcap⟩

theorem storeBuffer_write_keeps (b : BufferId) (bytes : List Byte) (s : State) :
    Keeps (storeBuffer b ((getBuffer b s).write bytes) s) s := by
  unfold storeBuffer
  split
  · exact failed_keeps _ s
  · next x hx => exact putBuffer_kept (write_kept hx)

theorem hostBufWrite_keeps (b : BufferId) (bytes : List Byte) (n : Int) (s : State) :
    Keeps (hostBufWrite b bytes n s) s := by
  unfold hostBufWrite
  split
  · trivial
  split
  · trivial
  · exact storeBuffer_write_keeps b _ s

theorem hostBufRead8_keeps (b : BufferId) (s : State) : Keeps (hostBufRead8 b s) s := by
  unfold hostBufRead8
  split
  · exact failed_keeps _ s
  · next v x hx => exact putBuffer_kept (read8_kept hx)

theorem hostBufRead_keeps (b : BufferId) (n : Int) (s : State) : Keeps (hostBufRead b n s) s := by
  unfold hostBufRead
  split
  · trivial
  split
  · exact failed_keeps _ s
  · next l x hx => exact putBuffer_kept (read_kept hx)

theorem hostSetWriteLength_keeps (b : BufferId) (n : Int) (s : State) : Keeps (hostSetWriteLength b n s) s := by
  unfold hostSetWriteLength
  split
  · trivial
  split
  · exact failed_keeps _ s
  · next x hx =>
    split
    · trivial
    · exact putBuffer_kept (setWriteLength_kept (by omega) hx)

/-! ### The transport -/

/-- A bit-banged execution keeps all that and leaves no byte of `RSP` read. -/
theorem runTransaction_keeps (onFailure : Status) (s : State) :
    (runTransaction onFailure s).Holds (fun _ t => Kept s t ∧ t.rsp.rd = 0) (fun _ t => Kept s t) := by
  unfold runTransaction
  split
  · trivial
  · trivial
  · next t ht =>
    have hkept := execute_kept ht
    split
    · exact ⟨hkept, execute_rsp_rd ht⟩
    · exact hkept
    · exact hkept
    · exact hkept

theorem bitBangedSend_keeps (reg : Option Byte) (payload : List Byte) (s : State) :
    Keeps (bitBangedSend reg payload s) s :=
  (build_keeps _ _ s).bind fun _ t =>
    (runTransaction_keeps _ t).bind (fun _ _ hu => hu.1) fun _ _ hu => hu

theorem takeReceived_keeps (n k : Nat) {s : State} (hrd : s.rsp.rd = 0) : Keeps (takeReceived n k s) s := by
  unfold takeReceived
  split
  · exact failed_keeps _ s
  · next b hb =>
    have hset : Kept s { s with rsp := b } := putBuffer_kept (b := .rsp) (setWriteLength_kept (hrd ▸ Nat.zero_le k) hb)
    simp only
    split
    · exact hset
    split
    · exact hset
    · next data b' hread => exact hset.trans (putBuffer_kept (b := .rsp) (read_kept hread))

/-- A procedure that keeps all that after a change of state that does. -/
theorem Keeps.after {ε α : Type} {x : Res ε α} {s t : State} (h : Keeps x t) (hst : Kept s t) : Keeps x s :=
  Res.Holds.mono h (fun _ _ hu => hst.trans hu) fun _ _ hu => hst.trans hu

theorem bitBangedReceive_keeps (reg : Option Byte) (n : Nat) (s : State) : Keeps (bitBangedReceive reg n s) s :=
  (build_keeps _ _ s).bind fun _ t =>
    (runTransaction_keeps _ t).bind (fun k _ ⟨hu, hrd⟩ => (takeReceived_keeps n k hrd).after hu) fun _ _ hu => hu

theorem sendVia_keeps (reg : Option Byte) (payload : List Byte) {hardware : State → Res Status Unit} {s : State}
    (h : Keeps (hardware s) s) : Keeps (sendVia reg payload hardware s) s := by
  unfold sendVia
  split
  · split
    · exact bitBangedSend_keeps reg payload s
    · exact h
  · exact failed_keeps _ s

theorem receiveVia_keeps (reg : Option Byte) (n : Nat) {hardware : State → Res Status (List Byte)} {s : State}
    (h : Keeps (hardware s) s) : Keeps (receiveVia reg n hardware s) s := by
  unfold receiveVia
  split
  · split
    · exact bitBangedReceive_keeps reg n s
    · exact h
  · exact failed_keeps _ s

theorem sendByte_keeps (v : Byte) (s : State) : Keeps (sendByte v s) s := sendVia_keeps _ _ (hardwareSend_keeps _ s)

theorem sendReg_keeps (r v : Byte) (s : State) : Keeps (sendReg r v s) s := sendVia_keeps _ _ (hardwareSend_keeps _ s)

theorem sendWord_keeps (r : Byte) (w : Word) (s : State) : Keeps (sendWord r w s) s :=
  sendVia_keeps _ _ (hardwareSend_keeps _ s)

theorem sendBlock_keeps (r : Byte) (buf : List Byte) (s : State) : Keeps (sendBlock r buf s) s :=
  sendVia_keeps _ _ (sendChunks_keeps _ r buf s)

theorem receiveByte_keeps (s : State) : Keeps (receiveByte s) s :=
  (receiveVia_keeps _ _ (hardwareReceive_keeps _ _ s)).bind fun _ t => done_keeps _ t

theorem receiveReg_keeps (r : Byte) (s : State) : Keeps (receiveReg r s) s :=
  (receiveVia_keeps _ _ (hardwareReceive_keeps _ _ s)).bind fun _ t => done_keeps _ t

theorem receiveWord_keeps (r : Byte) (s : State) : Keeps (receiveWord r s) s :=
  (receiveVia_keeps _ _ (hardwareReceive_keeps _ _ s)).bind fun _ t => done_keeps _ t

theorem receiveBlock_keeps (r : Byte) (n : Nat) (s : State) : Keeps (receiveBlock r n s) s :=
  receiveVia_keeps _ _ (receiveChunks_keeps n r n s)

theorem kept_handle (s : State) (isOpen : Bool) : Kept s { s with transport := { s.transport with isOpen := isOpen } } :=
  ⟨id, rfl, rfl, rfl, rfl, rfl, rfl⟩

theorem closeTransport_kept (s : State) : Kept s (closeTransport s) := kept_handle s false

theorem initializeTransport_keeps (s : State) : Keeps (initializeTransport s) s := by
  unfold initializeTransport askOpenDevice
  split
  · exact done_keeps _ s
  split
  · trivial
  · next b t ht =>
    have hasked : Kept s t := by
      split at ht
      · cases ht; exact kept_env s _
      · cases ht
    cases b with
    | true => exact hasked.trans (kept_handle t true)
    | false => exact hasked

/-! ### The register set -/

theorem kept_regs (s : State) (regs : RegSet) : Kept s { s with regs := regs } := ⟨id, rfl, rfl, rfl, rfl, rfl, rfl⟩

theorem RegsOnly.kept {f : State → State} (h : RegsOnly f) (s : State) : Kept s (f s) := by
  rw [h s]
  exact kept_regs s _

theorem clearRegs_kept (s : State) : Kept s (clearRegs s) := kept_regs s RegSet.zero

theorem putRegs_kept (i : Nat) (bytes : List Byte) (s : State) : Kept s (putRegs i bytes s) :=
  RegsOnly.kept (putRegs_eq bytes i) s

/-- After a failed block read only slots and the draw counter can have changed (44_register_set.md R127; log 10). -/
theorem afterFailedRead_eq (i n : Nat) (s : State) : ∃ regs draws,
    afterFailedRead i n s = { s with regs := regs, env := { s.env with draws := draws } } := by
  unfold afterFailedRead
  split
  · exact ⟨s.regs, s.env.draws, rfl⟩
  · refine ⟨(forgetRegs i n s).regs, s.env.draws + n, ?_⟩
    simp only [forgetRegs]
    rw [putRegs_eq]

theorem afterFailedRead_kept (i n : Nat) (s : State) : Kept s (afterFailedRead i n s) := by
  obtain ⟨regs, draws, heq⟩ := afterFailedRead_eq i n s
  rw [heq]
  exact (kept_regs s regs).trans (kept_env _ _)

theorem readOne_keeps (id : Int) (s : State) : Keeps (readOne id s) s := by
  unfold readOne
  split
  · exact failed_keeps _ s
  · exact (receiveReg_keeps _ s).bind fun v t => (regsOnly_putReg _ fun _ => v).kept t

theorem readBlock_keeps (start count : Int) (s : State) : Keeps (readBlock start count s) s := by
  unfold readBlock
  split
  · exact failed_keeps _ s
  · next i n _ =>
    split
    · exact done_keeps _ s
    · have hread := receiveBlock_keeps (BitVec.ofNat 8 i) n s
      cases hx : receiveBlock (BitVec.ofNat 8 i) n s with
      | done data t => rw [hx] at hread; exact Kept.trans hread (putRegs_kept i data t)
      | failed e t => rw [hx] at hread; exact Kept.trans hread (afterFailedRead_kept i n t)
      | fault f => trivial
      | refused r => trivial

theorem readRange_keeps (startId endId : Int) (s : State) : Keeps (readRange startId endId s) s := by
  unfold readRange
  split
  · exact failed_keeps _ s
  · exact readBlock_keeps _ _ s

theorem writeOne_keeps (id : Int) (s : State) : Keeps (writeOne id s) s := by
  unfold writeOne
  split
  · exact failed_keeps _ s
  · exact sendReg_keeps _ _ s

theorem writeBlock_keeps (start count : Int) (s : State) : Keeps (writeBlock start count s) s := by
  unfold writeBlock
  split
  · exact failed_keeps _ s
  split
  · exact done_keeps _ s
  · exact sendBlock_keeps _ _ s

theorem writeRange_keeps (startId endId : Int) (s : State) : Keeps (writeRange startId endId s) s := by
  unfold writeRange
  split
  · exact failed_keeps _ s
  · exact writeBlock_keeps _ _ s

theorem helper_keeps {α : Type} (id : Int) {f : Nat → State → α × State} {s : State}
    (h : ∀ i, Kept s (f i s).2) : Keeps (helper id f s) s := by
  unfold helper
  split
  · trivial
  · exact h _

/-! ### The codec -/

theorem withFreshRegs_keeps {α : Type} {op : State → Res Status α} (h : ∀ t, Keeps (op t) t) (s : State) :
    Keeps (withFreshRegs op s) s := by
  have hop := (h (clearRegs s)).after (clearRegs_kept s)
  unfold withFreshRegs
  cases hx : op (clearRegs s) with
  | done a t => rw [hx] at hop; exact Kept.trans hop (kept_regs t s.regs)
  | failed e t => rw [hx] at hop; exact Kept.trans hop (kept_regs t s.regs)
  | fault f => trivial
  | refused r => trivial

theorem getClockState_keeps (s : State) : Keeps (getClockState s) s := by
  refine withFreshRegs_keeps (fun t => ?_) s
  have hread := readRange_keeps regControl regStatus t
  cases hx : readRange regControl regStatus t with
  | done a u => rw [hx] at hread; exact hread
  | failed e u => rw [hx] at hread; exact hread
  | fault f => trivial
  | refused r => trivial

theorem getDateTime_keeps (s : State) : Keeps (getDateTime s) s :=
  withFreshRegs_keeps (fun t => (readBlock_keeps _ _ t).bind fun _ u => done_keeps _ u) s

theorem resumeClock_keeps (s : State) : Keeps (resumeClock s) s := by
  unfold resumeClock
  split
  · exact (writeRange_keeps _ _ _).after
      (((regsOnly_removeBit regControl eosc).comp (regsOnly_removeBit regStatus osf)).kept s)
  · exact done_keeps _ s

theorem setDateTime_keeps (dt : RtcDateTime) (s : State) : Keeps (setDateTime dt s) s :=
  withFreshRegs_keeps (fun t => Keeps.bind ((writeBlock_keeps _ _ _).after ((regsOnly_encodeDateTime dt).kept t))
    fun _ u => (readRange_keeps _ _ u).bind fun _ v => resumeClock_keeps v) s

theorem getTemperature_keeps (s : State) : Keeps (getTemperature s) s :=
  withFreshRegs_keeps (fun t => (readRange_keeps _ _ t).bind fun _ u => done_keeps _ u) s

theorem regsOnly_putEnable (id : AlarmId) (enabled : Bool) : RegsOnly (putEnable id enabled) := by
  intro s
  cases enabled <;> rfl

theorem updateEnable_keeps (id : AlarmId) (enabled : Bool) (s : State) : Keeps (updateEnable id enabled s) s :=
  (readOne_keeps _ s).bind fun _ t => (writeOne_keeps _ _).after ((regsOnly_putEnable id enabled).kept t)

theorem setAlarm_keeps (id : AlarmId) (a : RtcAlarm) (s : State) : Keeps (setAlarm id a s) s :=
  withFreshRegs_keeps (fun t => Keeps.bind ((writeBlock_keeps _ _ _).after ((regsOnly_encodeAlarm id a).kept t))
    fun _ u => updateEnable_keeps id a.enabled u) s

theorem getAlarm_keeps (id : AlarmId) (s : State) : Keeps (getAlarm id s) s :=
  withFreshRegs_keeps (fun t => (readBlock_keeps _ _ t).bind fun _ u =>
    (readOne_keeps _ u).bind fun _ v => done_keeps _ v) s

theorem setAlarmInterruptState_keeps (id : AlarmId) (enabled : Bool) (s : State) :
    Keeps (setAlarmInterruptState id enabled s) s :=
  withFreshRegs_keeps (updateEnable_keeps id enabled) s

theorem getAlarmInterruptStatus_keeps (s : State) : Keeps (getAlarmInterruptStatus s) s :=
  withFreshRegs_keeps (fun t => (readOne_keeps _ t).bind fun _ u => done_keeps _ u) s

theorem acknowledge_keeps (triggers : Bool × Bool) (s : State) : Keeps (acknowledge triggers s) s := by
  unfold acknowledge
  split
  · exact Keeps.bind ((writeOne_keeps _ _).after ((regsOnly_removeBit regStatus (a1f ||| a2f)).kept s))
      fun _ t => done_keeps _ t
  · exact done_keeps _ s

theorem getAlarmTriggerState_keeps (s : State) : Keeps (getAlarmTriggerState s) s :=
  withFreshRegs_keeps (fun t => (readOne_keeps _ t).bind fun _ u => acknowledge_keeps _ u) s

/-! ### The host port -/

theorem kept_result (s : State) (result : Option HostResult) : Kept s { s with result := result } :=
  ⟨id, rfl, rfl, rfl, rfl, rfl, rfl⟩

theorem kept_hostOps (s : State) (ops : List HostOp) : Kept s { s with hostOps := ops } :=
  ⟨id, rfl, rfl, rfl, rfl, rfl, rfl⟩

theorem handBack_kept {α : Type} {f : α → HostResult} {x : Res Status α} {s t : State} (hx : Keeps x s)
    (h : handBack f x = .next t) : Kept s t := by
  cases x with
  | done a u => cases h; exact Kept.trans hx (kept_result u _)
  | failed e u => cases h; exact Kept.trans hx (kept_result u _)
  | fault r => cases h
  | refused r => cases h

theorem handBack_done_kept {α : Type} {f : α → HostResult} {a : α} {s t u : State} (hu : Kept s u)
    (h : handBack f (.done a u) = .next t) : Kept s t := handBack_kept (x := .done a u) hu h

theorem hostExecute_kept {s t : State} (h : hostExecute s = .next t) : Kept s t := by
  unfold hostExecute at h
  split at h
  · cases h; exact beginExecution_kept s
  · exact executeOracle_kept h

/-- Every host operation but a construction keeps the invariant of a quiet block, the parameters, the configuration
and the capacities. -/
theorem hostExec_kept {op : HostOp} {s t : State} (hc : isConstruction op = false) (h : hostExec op s = .next t) :
    Kept s t := by
  cases op with
  | bufConstruct b cap => cases hc
  | construct kind addr7 adapter cmdCap rspCap => cases hc
  | bufWrite8 b v => exact handBack_kept (storeBuffer_write_keeps b [v] s) h
  | bufWrite b bytes n => exact handBack_kept (hostBufWrite_keeps b bytes n s) h
  | bufRead8 b => exact handBack_kept (hostBufRead8_keeps b s) h
  | bufRead b n => exact handBack_kept (hostBufRead_keeps b n s) h
  | bufReset b => exact handBack_done_kept (putBuffer_kept (rewind_kept _)) h
  | bufClear b => exact handBack_done_kept (putBuffer_kept (clear_kept _)) h
  | bufSetWriteLength b n => exact handBack_kept (hostSetWriteLength_keeps b n s) h
  | bufWriteLength b => exact handBack_done_kept (Kept.refl s) h
  | bufReadRemaining b => exact handBack_done_kept (Kept.refl s) h
  | bufWriteRemaining b => exact handBack_done_kept (Kept.refl s) h
  | bufEndOfRead b => exact handBack_done_kept (Kept.refl s) h
  | bufEndOfWrite b => exact handBack_done_kept (Kept.refl s) h
  | encStart => exact handBack_kept (encodeBytes_keeps _ s) h
  | encRestart => exact handBack_kept (encodeBytes_keeps _ s) h
  | encStop => exact handBack_kept (encodeBytes_keeps _ s) h
  | encEnd => exact handBack_kept (encodeBytes_keeps _ s) h
  | encStopAndEnd => exact handBack_kept (encodeBytes_keeps _ s) h
  | encAddress a => exact handBack_kept (encodeBytes_keeps _ s) h
  | encSend n => exact handBack_kept (encLength_keeps _ n s) h
  | encReceive n => exact handBack_kept (encLength_keeps _ n s) h
  | execute => exact hostExecute_kept h
  | initialise => exact handBack_kept (initializeTransport_keeps s) h
  | close => cases h; exact (closeTransport_kept s).trans (kept_result _ _)
  | sendByte v => exact handBack_kept (sendByte_keeps v s) h
  | sendReg r v => exact handBack_kept (sendReg_keeps r v s) h
  | sendWord r w => exact handBack_kept (sendWord_keeps r w s) h
  | sendBlock r buf => exact handBack_kept (sendBlock_keeps r buf s) h
  | receiveByte => exact handBack_kept (receiveByte_keeps s) h
  | receiveReg r => exact handBack_kept (receiveReg_keeps r s) h
  | receiveWord r => exact handBack_kept (receiveWord_keeps r s) h
  | receiveBlock r n => exact handBack_kept (receiveBlock_keeps r n s) h
  | regCreate => cases h; exact (clearRegs_kept s).trans (kept_result _ _)
  | regRead id => exact handBack_kept (readOne_keeps id s) h
  | regReadBlock start count => exact handBack_kept (readBlock_keeps start count s) h
  | regReadRange startId endId => exact handBack_kept (readRange_keeps startId endId s) h
  | regWrite id => exact handBack_kept (writeOne_keeps id s) h
  | regWriteBlock start count => exact handBack_kept (writeBlock_keeps start count s) h
  | regWriteRange startId endId => exact handBack_kept (writeRange_keeps startId endId s) h
  | regGet id => exact handBack_kept (helper_keeps id fun _ => Kept.refl s) h
  | regSet id v => exact handBack_kept (helper_keeps id fun i => (regsOnly_putReg i fun _ => v).kept s) h
  | regSetBit id m => exact handBack_kept (helper_keeps id fun i => (regsOnly_setBit i m).kept s) h
  | regRemoveBit id m => exact handBack_kept (helper_keeps id fun i => (regsOnly_removeBit i m).kept s) h
  | regIsSet id m => exact handBack_kept (helper_keeps id fun _ => Kept.refl s) h
  | regIsClear id m => exact handBack_kept (helper_keeps id fun _ => Kept.refl s) h
  | regClear => cases h; exact (clearRegs_kept s).trans (kept_result _ _)
  | regFromBcd id msb lsb => exact handBack_kept (helper_keeps id fun _ => Kept.refl s) h
  | regToBcd id v msb lsb => exact handBack_kept (helper_keeps id fun i => (regsOnly_toBcd i v msb lsb).kept s) h
  | getClockState => exact handBack_kept (getClockState_keeps s) h
  | getDateTime => exact handBack_kept (getDateTime_keeps s) h
  | setDateTime dt => exact handBack_kept (setDateTime_keeps dt s) h
  | getTemperature => exact handBack_kept (getTemperature_keeps s) h
  | setAlarm id a => exact handBack_kept (setAlarm_keeps id a s) h
  | getAlarm id => exact handBack_kept (getAlarm_keeps id s) h
  | setAlarmInterruptState id enabled => exact handBack_kept (setAlarmInterruptState_keeps id enabled s) h
  | getAlarmInterruptStatus => exact handBack_kept (getAlarmInterruptStatus_keeps s) h
  | getAlarmTriggerState => exact handBack_kept (getAlarmTriggerState_keeps s) h

/-- A construction leaves fresh buffers and the parameters, and the bus position as it was (log 23). -/
theorem hostExec_construction {op : HostOp} {s t : State} (hc : isConstruction op = true)
    (h : hostExec op s = .next t) : (QuietInv s → QuietInv t) ∧ t.params = s.params := by
  cases op with
  | construct kind addr7 adapter cmdCap rspCap =>
    cases h
    exact ⟨fun ⟨_, _, hp⟩ => ⟨fresh_sound cmdCap, fresh_sound rspCap, hp⟩, rfl⟩
  | bufConstruct b cap =>
    cases b with
    | cmd => cases h; exact ⟨fun ⟨_, hrsp, hp⟩ => ⟨fresh_sound cap, hrsp, hp⟩, rfl⟩
    | rsp => cases h; exact ⟨fun ⟨hcmd, _, hp⟩ => ⟨hcmd, fresh_sound cap, hp⟩, rfl⟩
  | _ => cases hc

/-- A step outside an execution waits or serves the first host operation (00_scope.md R7). -/
theorem step_of_not_running {s t : State} (hr : s.run ≠ .running) (h : step s = .next t) :
    t = s ∨ ∃ op rest, s.hostOps = op :: rest ∧ hostExec op { s with hostOps := rest } = .next t := by
  cases hops : s.hostOps with
  | nil =>
    simp only [step, hr, if_false, stepHost, hops] at h
    cases h
    exact .inl rfl
  | cons op rest => exact .inr ⟨op, rest, rfl, step_serves_first hr hops ▸ h⟩

theorem hostExec_quiet_params {op : HostOp} {s t : State} (h : hostExec op s = .next t) :
    (QuietInv s → QuietInv t) ∧ t.params = s.params := by
  cases hc : isConstruction op with
  | true => exact hostExec_construction hc h
  | false => exact ⟨(hostExec_kept hc h).inv, (hostExec_kept hc h).params⟩

/-! ### The obligations -/

/-- Settles O57: a command of an execution keeps the invariant by `stepCommand_inv`; between executions the invariant
is that of a quiet block, which every host operation keeps (`hostExec_quiet_params`). -/
theorem everyStepKeepsTheInvariant : Obligations.EveryStepKeepsTheInvariant := by
  intro s t hs h
  by_cases hr : s.run = .running
  · exact stepCommand_inv hs hr (step_of_running hr ▸ h)
  · rcases step_of_not_running hr h with rfl | ⟨op, rest, -, hexec⟩
    · exact hs
    · exact ((hostExec_quiet_params hexec).1 (hs.quiet hr)).inv

/-- Settles O58: the buffers are fresh, the register set is a cleared one, and the other values are those of
`State.reset`. -/
theorem resetMeetsTheInvariantAndTheSpecValues : Obligations.ResetMeetsTheInvariantAndTheSpecValues :=
  ⟨QuietInv.inv ⟨fresh_sound _, fresh_sound _, rfl⟩, rfl, rfl, rfl, rfl, rfl, rfl,
    fun i => getReg_clearRegs i State.reset, rfl, rfl, rfl⟩

theorem step_params {s t : State} (h : step s = .next t) : t.params = s.params := by
  by_cases hr : s.run = .running
  · obtain ⟨-, -, hparams, -, -⟩ := stepCommand_same (step_of_running hr ▸ h)
    exact hparams
  · rcases step_of_not_running hr h with rfl | ⟨op, rest, -, hexec⟩
    · rfl
    · exact (hostExec_quiet_params hexec).2

/-- A step that serves no construction keeps the transport's kind, address and adapter and the capacities. -/
theorem step_configuration {s t : State} (h : step s = .next t)
    (hc : ∀ op rest, s.run ≠ .running → s.hostOps = op :: rest → isConstruction op = false) :
    t.transport.kind = s.transport.kind ∧ t.transport.addr7 = s.transport.addr7 ∧
      t.transport.adapter = s.transport.adapter ∧ t.cmd.cap = s.cmd.cap ∧ t.rsp.cap = s.rsp.cap := by
  by_cases hr : s.run = .running
  · rw [step_of_running hr] at h
    obtain ⟨-, htransport, -, -, -⟩ := stepCommand_same h
    obtain ⟨hcmd, hrsp, -⟩ := stepCommand_buffers h
    exact ⟨by rw [htransport], by rw [htransport], by rw [htransport], hcmd, hrsp⟩
  · rcases step_of_not_running hr h with rfl | ⟨op, rest, hops, hexec⟩
    · exact ⟨rfl, rfl, rfl, rfl, rfl⟩
    · have hkept := (kept_hostOps s rest).trans (hostExec_kept (hc op rest hr hops) hexec)
      exact ⟨hkept.kind, hkept.addr7, hkept.adapter, hkept.cmd, hkept.rsp⟩

/-- Settles O59: `step_params` and `step_configuration` for the steps; what a construction leaves is its own
definition, with a cleared register set for the last one. -/
theorem theConfigurationIsFixed : Obligations.TheConfigurationIsFixed := by
  refine ⟨fun s t h => ⟨step_params h, step_configuration h⟩, fun s => ⟨fun kind addr7 adapter cmdCap rspCap => ?_,
    fun b cap => ?_, ?_⟩⟩
  · exact ⟨_, rfl, rfl, rfl, rfl, rfl, rfl, rfl, rfl, rfl⟩
  · cases b with
    | cmd => exact ⟨_, rfl, rfl, rfl, rfl, rfl⟩
    | rsp => exact ⟨_, rfl, rfl, rfl, rfl, rfl⟩
  · exact ⟨_, rfl, fun i => getReg_clearRegs i s, rfl⟩

end Sys2Proof.Machine
end

section
/-! PROOFS. O54: the transfers of `SetAlarm` and `GetAlarm`, and the alarm record as the bytes read give it
(10_state.md R27; 45_rtc_codec.md R139 to R141, R146 to R149). -/

namespace Sys2Proof.Machine

/-! ### A codec operation on its own register set -/

/-- A codec operation that succeeds hands back its data and leaves the host's register set (45_rtc_codec.md R139). -/
theorem handBack_withFreshRegs_done {α : Type} {f : α → HostResult} {op : State → Res Status α} {s t : State} {a : α}
    (h : op (clearRegs s) = .done a t) :
    handBack f (withFreshRegs op s) = .next { t with regs := s.regs, result := some (f a) } := by
  rw [withFreshRegs, h, Res.mapState, handBack]

/-- One that fails hands back its status and leaves the host's register set (45_rtc_codec.md R139, R140). -/
theorem handBack_withFreshRegs_failed {α : Type} {f : α → HostResult} {op : State → Res Status α} {s t : State}
    {e : Status} (h : op (clearRegs s) = .failed e t) :
    handBack f (withFreshRegs op s) = .next { t with regs := s.regs, result := some (.status e) } := by
  rw [withFreshRegs, h, Res.mapState, handBack]

/-! ### The transfers of the register set -/

theorem getReg_of_regs_eq {s t : State} (h : t.regs = s.regs) (i : Nat) : getReg i t = getReg i s := by
  rw [getReg, getReg, h]

theorem validSpan_nat {i n : Nat} (h : i + n ≤ 19) : validSpan i n = some (i, n) := by
  have hin : ¬((i : Int) < 0 ∨ (n : Int) < 0 ∨ (Config.regCount : Int) < i + n) := by
    simp only [Config.regCount]
    omega
  rw [validSpan, if_neg hin, Int.toNat_natCast, Int.toNat_natCast]

/-- A block read that succeeds puts its bytes into the slots (44_register_set.md R127). -/
theorem readBlock_done {i n : Nat} {s t : State} {data : List Byte} (hspan : i + n ≤ 19) (hn : n ≠ 0)
    (h : receiveBlock (BitVec.ofNat 8 i) n s = .done data t) : readBlock i n s = .done () (putRegs i data t) := by
  simp [readBlock, validSpan_nat hspan, hn, h]

/-- A block read that fails answers its transfer's status (44_register_set.md R127). -/
theorem readBlock_failed {i n : Nat} {s t : State} {e : Status} (hspan : i + n ≤ 19) (hn : n ≠ 0)
    (h : receiveBlock (BitVec.ofNat 8 i) n s = .failed e t) : readBlock i n s = .failed e (afterFailedRead i n t) := by
  simp [readBlock, validSpan_nat hspan, hn, h]

theorem readOne_control (s : State) :
    readOne regControl s = (receiveReg 0x0E#8 s).bind fun c t => .done () (putReg regControl c t) := rfl

theorem writeOne_control (s : State) : writeOne regControl s = sendReg 0x0E#8 (getReg regControl s) s := rfl

/-! ### The enable bit in Control (45_rtc_codec.md R148, R150) -/

/-- The Control image that `updateEnable` sends back for the byte `c` it has read. -/
def enableImage (id : AlarmId) (enabled : Bool) (c : Byte) (s : State) : State :=
  putEnable id enabled (putReg regControl c s)

/-- The update of an enable bit is a read of Control and a write of the image with the bit changed. -/
theorem updateEnable_eq (id : AlarmId) (enabled : Bool) (s : State) :
    updateEnable id enabled s = (receiveReg 0x0E#8 s).bind fun c t =>
      sendReg 0x0E#8 (getReg regControl (enableImage id enabled c t)) (enableImage id enabled c t) := by
  simp only [updateEnable, readOne_control, writeOne_control, bind_assoc, bind_done, enableImage]

theorem getReg_enableImage (id : AlarmId) (enabled : Bool) (c : Byte) (s : State) :
    getReg regControl (enableImage id enabled c s) = if enabled then c ||| enableBit id else c &&& ~~~enableBit id := by
  have hread : getReg regControl (putReg regControl c s) = c := getReg_putReg_same _ _ _ (by decide)
  cases enabled with
  | true => exact (getReg_putReg_same _ _ _ (by decide)).trans (congrArg (withBits · _) hread)
  | false => exact (getReg_putReg_same _ _ _ (by decide)).trans (congrArg (withoutBits · _) hread)

theorem enableImage_eq (id : AlarmId) (enabled : Bool) (c : Byte) (s : State) :
    enableImage id enabled c s = { s with regs := (enableImage id enabled c s).regs } := by
  rw [enableImage, regsOnly_putEnable]
  rfl

/-! ### `SetAlarm` (45_rtc_codec.md R148) -/

/-- `SetAlarm` stops when its block is not sent. -/
theorem setAlarm_write_failed {id : AlarmId} {a : RtcAlarm} {s t : State} {e : Status}
    (h : writeBlock (alarmBase id) (alarmCount id) (encodeAlarm id a (clearRegs s)) = .failed e t) :
    hostExec (.setAlarm id a) s = .next { t with regs := s.regs, result := some (.status e) } :=
  handBack_withFreshRegs_failed (by simp only [h, bind_failed])

/-- After its block `SetAlarm` updates the enable bit. -/
theorem setAlarm_write_done {id : AlarmId} {a : RtcAlarm} {s t : State}
    (h : writeBlock (alarmBase id) (alarmCount id) (encodeAlarm id a (clearRegs s)) = .done () t) :
    (∀ u, updateEnable id a.enabled t = .done () u →
      hostExec (.setAlarm id a) s = .next { u with regs := s.regs, result := some (.status .ok) }) ∧
    (∀ e u, updateEnable id a.enabled t = .failed e u →
      hostExec (.setAlarm id a) s = .next { u with regs := s.regs, result := some (.status e) }) :=
  ⟨fun _ hu => handBack_withFreshRegs_done (f := okStatus) (a := ()) (by simp only [h, bind_done, hu]),
    fun _ _ hu => handBack_withFreshRegs_failed (by simp only [h, bind_done, hu])⟩

/-! ### `GetAlarm` (45_rtc_codec.md R149) -/

/-- `GetAlarm` stops when its block is not received. -/
theorem getAlarm_block_failed {id : AlarmId} {s t : State} {e : Status}
    (h : readBlock (alarmBase id) (alarmCount id) (clearRegs s) = .failed e t) :
    hostExec (.getAlarm id) s = .next { t with regs := s.regs, result := some (.status e) } :=
  handBack_withFreshRegs_failed (by simp only [h, bind_failed])

/-- After its block `GetAlarm` reads Control and answers what the image says. -/
theorem getAlarm_block_done {id : AlarmId} {s t : State}
    (h : readBlock (alarmBase id) (alarmCount id) (clearRegs s) = .done () t) :
    (∀ e u, receiveReg 0x0E#8 t = .failed e u →
      hostExec (.getAlarm id) s = .next { u with regs := s.regs, result := some (.status e) }) ∧
    (∀ c u, receiveReg 0x0E#8 t = .done c u →
      hostExec (.getAlarm id) s = .next { u with
        regs := s.regs, result := some (.alarm (decodeAlarm id (putReg regControl c u))) }) :=
  ⟨fun _ _ hu => handBack_withFreshRegs_failed (by simp only [h, bind_done, readOne_control, hu, bind_failed]),
    fun c u hu => handBack_withFreshRegs_done (f := .alarm) (t := putReg regControl c u)
      (by simp only [h, bind_done, readOne_control, hu])⟩

/-! ### The alarm record of an image -/

/-- The image holds these bytes in the alarm's registers and Control; the second alarm has no seconds. -/
structure AlarmImage (id : AlarmId) (sec min hrs day c : Byte) (s : State) : Prop where
  sec : id = .first → getReg regAlarm1Seconds s = sec
  min : getReg (minReg id) s = min
  hrs : getReg (hrsReg id) s = hrs
  day : getReg (dayReg id) s = day
  control : getReg regControl s = c

/-- A slot of a block that was read, after Control was read as well. -/
theorem getReg_block_control {base i : Nat} {data : List Byte} {c : Byte} {t u : State}
    (h : u.regs = (putRegs base data t).regs) (hfit : base + data.length ≤ regControl) (hi : i < data.length) :
    getReg (base + i) (putReg regControl c u) = data.getD i 0#8 := by
  have hend : regControl ≤ 19 := by decide
  rw [getReg_putReg_other _ _ _ _ (by omega), getReg_of_regs_eq h, getReg_putRegs _ _ _ _ (by omega),
    if_pos ⟨by omega, by omega⟩, Nat.add_sub_cancel_left]

/-- The image after the first alarm's block and Control were read. -/
theorem alarmImage_first {sec min hrs day c : Byte} {t u : State}
    (h : u.regs = (putRegs regAlarm1Seconds [sec, min, hrs, day] t).regs) :
    AlarmImage .first sec min hrs day c (putReg regControl c u) := by
  have hslot (i : Nat) := getReg_block_control (i := i) (c := c) h (by simp +decide)
  exact ⟨fun _ => hslot 0 (by simp), hslot 1 (by simp), hslot 2 (by simp), hslot 3 (by simp),
    getReg_putReg_same _ _ _ (by decide)⟩

/-- The image after the second alarm's block and Control were read. -/
theorem alarmImage_second {sec min hrs day c : Byte} {t u : State}
    (h : u.regs = (putRegs regAlarm2Minutes [min, hrs, day] t).regs) :
    AlarmImage .second sec min hrs day c (putReg regControl c u) := by
  have hslot (i : Nat) := getReg_block_control (i := i) (c := c) h (by simp +decide)
  exact ⟨nofun, hslot 0 (by simp), hslot 1 (by simp), hslot 2 (by simp), getReg_putReg_same _ _ _ (by decide)⟩

theorem isSet_eq_decide (i : Nat) (m : Byte) (s : State) : isSet i m s = decide (getReg i s &&& m = m) :=
  beq_eq_decide _ _

theorem isClear_eq_decide (i : Nat) (m : Byte) (s : State) : isClear i m s = decide (getReg i s &&& m = 0#8) :=
  beq_eq_decide _ _

/-- In 12-hour mode the hour is one digit pair under 0x10 and the meridiem is bit 0x20 (45_rtc_codec.md R141). -/
theorem decodeHour_h12 {h : Nat} {s : State} {b : Byte} (hb : getReg h s = b) (hm : b &&& 0x40#8 = 0x40#8) :
    decodeHour h s = (bcdValue b 0x10#8 0x0F#8, .h12, decide (b &&& 0x20#8 = 0x20#8)) := by
  have hset : isSet h mode12 s = true := by rw [isSet_eq_decide, hb]; exact decide_eq_true hm
  rw [decodeHour, if_pos hset, isSet_eq_decide, fromBcd, hb]
  rfl

/-- In 24-hour mode it is one under 0x30 (45_rtc_codec.md R141). -/
theorem decodeHour_h24 {h : Nat} {s : State} {b : Byte} (hb : getReg h s = b) (hm : b &&& 0x40#8 ≠ 0x40#8) :
    decodeHour h s = (bcdValue b 0x30#8 0x0F#8, .h24, false) := by
  have hset : ¬isSet h mode12 s = true := by rw [isSet_eq_decide, hb, decide_eq_true_iff]; exact hm
  rw [decodeHour, if_neg hset, fromBcd, hb]
  rfl

section

variable {id : AlarmId} {sec min hrs day c : Byte} {s : State}

/-- The intervals of the clear exclude bits are those of the fields the decoder finds clear. -/
theorem AlarmImage.clearFields_eq (h : AlarmImage id sec min hrs day c s) :
    clearFields id sec min hrs day =
      ((alarmFields id).filter fun f => isClear f.reg exclBit s).map fun f => fieldInterval id f s := by
  have hbytes : clearFields id sec min hrs day =
      (((alarmFields id).map fun f => (getReg f.reg s, fieldInterval id f s)).filter
        fun p => decide (p.1 &&& 0x80#8 = 0#8)).map Prod.snd := by
    obtain ⟨hsec, hmin, hhrs, hday, -⟩ := h
    cases id with
    | first =>
      simp only [minReg, hrsReg, dayReg] at hsec hmin hhrs hday
      simp [clearFields, alarmFields, fieldInterval, isSet_eq_decide, dayReg, dydt, hsec, hmin, hhrs, hday]
    | second =>
      simp only [minReg, hrsReg, dayReg] at hmin hhrs hday
      simp [clearFields, alarmFields, fieldInterval, isSet_eq_decide, dayReg, dydt, hmin, hhrs, hday]
  rw [hbytes, List.filter_map, List.map_map]
  simp only [isClear_eq_decide]
  rfl

/-- Under `Cumulative` the last clear field gives the interval (45_rtc_codec.md R149). -/
theorem AlarmImage.interval_cumulative (h : AlarmImage id sec min hrs day c s)
    (hscheme : s.params.alarmScheme = .cumulative) :
    inferInterval id s = (clearFields id sec min hrs day).getLast?.getD .everySecond := by
  rw [h.clearFields_eq, List.getLast?_map]
  simp only [inferInterval, hscheme]
  cases ((alarmFields id).filter fun f => isClear f.reg exclBit s).getLast? <;> rfl

/-- Under `OneHot` the first clear field gives the interval (45_rtc_codec.md R149). -/
theorem AlarmImage.interval_oneHot (h : AlarmImage id sec min hrs day c s)
    (hscheme : s.params.alarmScheme = .oneHot) :
    inferInterval id s = (clearFields id sec min hrs day).head?.getD .everySecond := by
  rw [h.clearFields_eq, List.head?_map]
  simp only [inferInterval, hscheme]
  cases ((alarmFields id).filter fun f => isClear f.reg exclBit s).head? <;> rfl

theorem AlarmImage.second_eq (h : AlarmImage id sec min hrs day c s) :
    (decodeAlarm id s).second = if id = .first then bcdValue sec 0x70#8 0x0F#8 else 0 := by
  cases id with
  | first => exact congrArg (bcdValue · secMsb lsb4) (h.sec rfl)
  | second => rfl

theorem AlarmImage.minute_eq (h : AlarmImage id sec min hrs day c s) :
    (decodeAlarm id s).minute = bcdValue min 0x70#8 0x0F#8 := congrArg (bcdValue · minMsb lsb4) h.min

/-- The hour, the mode and the meridiem are the hour decoder's. -/
theorem decodeAlarm_hour (id : AlarmId) (s : State) :
    ((decodeAlarm id s).hour, (decodeAlarm id s).mode, (decodeAlarm id s).pm) = decodeHour (hrsReg id) s := rfl

theorem AlarmImage.hour_h12 (h : AlarmImage id sec min hrs day c s) (hm : hrs &&& 0x40#8 = 0x40#8) :
    (decodeAlarm id s).hour = bcdValue hrs 0x10#8 0x0F#8 ∧ (decodeAlarm id s).mode = .h12 ∧
      (decodeAlarm id s).pm = decide (hrs &&& 0x20#8 = 0x20#8) := by
  simpa only [Prod.mk.injEq] using (decodeAlarm_hour id s).trans (decodeHour_h12 h.hrs hm)

theorem AlarmImage.hour_h24 (h : AlarmImage id sec min hrs day c s) (hm : hrs &&& 0x40#8 ≠ 0x40#8) :
    (decodeAlarm id s).hour = bcdValue hrs 0x30#8 0x0F#8 ∧ (decodeAlarm id s).mode = .h24 ∧
      (decodeAlarm id s).pm = false := by
  simpa only [Prod.mk.injEq] using (decodeAlarm_hour id s).trans (decodeHour_h24 h.hrs hm)

/-- With DYDT set the day byte is a day of week (10_state.md R27; 45_rtc_codec.md R149). -/
theorem AlarmImage.day_of_dydt (h : AlarmImage id sec min hrs day c s) (hd : day &&& 0x40#8 = 0x40#8) :
    (decodeAlarm id s).weekday = ((day &&& 0x0F#8).toNat : Nat) ∧ (decodeAlarm id s).day = 0 := by
  have hset : isSet (dayReg id) dydt s = true := by rw [isSet_eq_decide, h.day]; exact decide_eq_true hd
  simp [decodeAlarm, hset, h.day, adayWdayMask]

/-- With DYDT clear it is a day of month (10_state.md R27; 45_rtc_codec.md R149). -/
theorem AlarmImage.day_of_not_dydt (h : AlarmImage id sec min hrs day c s) (hd : day &&& 0x40#8 ≠ 0x40#8) :
    (decodeAlarm id s).weekday = 0 ∧ (decodeAlarm id s).day = bcdValue day 0x30#8 0x0F#8 := by
  have hset : isSet (dayReg id) dydt s = false := by rw [isSet_eq_decide, h.day]; exact decide_eq_false hd
  simp [decodeAlarm, hset, fromBcd, h.day, dateMsb, lsb4]

theorem AlarmImage.enabled_eq (h : AlarmImage id sec min hrs day c s) :
    (decodeAlarm id s).enabled = decide (c &&& enableBit id = enableBit id) := by
  rw [← h.control]
  exact isSet_eq_decide _ _ _

end

/-! ### The obligation -/

/-- Settles O54: the block is the alarm's own; `SetAlarm` is `setAlarm_write_failed` and `setAlarm_write_done` with
`updateEnable_eq`, `GetAlarm` is `getAlarm_block_failed` and `getAlarm_block_done`, and each field of its answer is what
the image of the bytes read says (`AlarmImage`). -/
theorem alarmCallsMakeTheirTransfers : Obligations.AlarmCallsMakeTheirTransfers := by
  intro s t id base count bit hblock
  obtain ⟨hbase, hcount, rfl, hspan, hpos⟩ : alarmBase id = base ∧ alarmCount id = count ∧ enableBit id = bit ∧
      base + count ≤ 19 ∧ count ≠ 0 := by
    cases id <;> cases hblock <;> exact ⟨rfl, rfl, rfl, by decide, by decide⟩
  rw [← hbase, ← hcount]
  refine ⟨fun a => ⟨fun e => setAlarm_write_failed, fun hw => ⟨fun e u hu => ?_, fun c u hu =>
    ⟨enableImage id a.enabled c u, getReg_enableImage _ _ _ _, enableImage_eq _ _ _ _, fun w hs => ?_,
      fun e w hs => ?_⟩⟩⟩, fun e hr => ?_, fun sec min hrs day data hdata hr => ?_⟩
  · exact (setAlarm_write_done hw).2 e u (by rw [updateEnable_eq, hu, bind_failed])
  · exact (setAlarm_write_done hw).1 w (by rw [updateEnable_eq, hu, bind_done, hs])
  · exact (setAlarm_write_done hw).2 e w (by rw [updateEnable_eq, hu, bind_done, hs])
  · obtain ⟨regs, draws, hafter⟩ := afterFailedRead_eq base count t
    have hread := readBlock_failed hspan hpos hr
    rw [hafter, ← hbase, ← hcount] at hread
    exact ⟨draws, getAlarm_block_failed hread⟩
  · have hread := readBlock_done hspan hpos hr
    rw [← hbase, ← hcount] at hread
    obtain ⟨hfailed, hdone⟩ := getAlarm_block_done hread
    refine ⟨hfailed, fun c u hu => ⟨decodeAlarm id (putReg regControl c u), hdone c u hu, ?_⟩⟩
    obtain ⟨hregs, -, hparams, -, -⟩ := (receiveReg_same _ _).done hu
    have himg : AlarmImage id sec min hrs day c (putReg regControl c u) := by
      cases id with
      | first => cases hblock; cases hdata; exact alarmImage_first hregs
      | second => cases hblock; cases hdata; exact alarmImage_second hregs
    have hscheme : (putReg regControl c u).params = s.params := by
      obtain ⟨-, -, hblockParams, -, -⟩ := (receiveBlock_same _ _ _).done hr
      rw [putReg_params, hparams, putRegs_eq]
      exact hblockParams
    refine ⟨himg.second_eq, himg.minute_eq, himg.hour_h12, himg.hour_h24, himg.day_of_dydt, himg.day_of_not_dydt, ?_,
      himg.enabled_eq⟩
    cases hs : s.params.alarmScheme with
    | cumulative => exact himg.interval_cumulative (hscheme ▸ hs)
    | oneHot => exact himg.interval_oneHot (hscheme ▸ hs)

end Sys2Proof.Machine
end

section
/-! PROOFS. O8: a Byte Buffer write that fits and a read of bytes that are there, as host operations, and what a read
takes back after a write (20_memory.md R52; 40_byte_buffer.md R71, R73). -/

namespace Sys2Proof.Machine

/-! ### The buffer of a state -/

@[simp] theorem getBuffer_putBuffer (b : BufferId) (x : ByteBuffer) (s : State) :
    getBuffer b (putBuffer b x s) = x := by
  cases b <;> rfl

@[simp] theorem getBuffer_result (b : BufferId) (s : State) (r : Option HostResult) :
    getBuffer b { s with result := r } = getBuffer b s := by
  cases b <;> rfl

/-! ### The operations that succeed -/

/-- A write that fits stores the first `n` bytes at the write cursor and moves it past them (40_byte_buffer.md R71). -/
theorem hostExec_bufWrite_of_fits {b : BufferId} {s : State} {bytes : List Byte} {n : Nat} (hn : n ≤ bytes.length)
    (hfit : n ≤ (getBuffer b s).cap - (getBuffer b s).wr) :
    hostExec (.bufWrite b bytes n) s =
      .next { putBuffer b { getBuffer b s with
        store := Memory.writeList (getBuffer b s).store (getBuffer b s).wr (bytes.take n)
        wr := (getBuffer b s).wr + n } s with result := some (.status .ok) } := by
  have hlen : (bytes.take n).length = n := List.length_take_of_le hn
  rw [hostExec, hostBufWrite, if_neg (by omega), if_neg (by omega), Int.toNat_natCast, ByteBuffer.write, hlen,
    ByteBuffer.writeRemaining, if_neg (by omega), storeBuffer, handBack, okStatus]

/-- A read of bytes that are there takes them from the read cursor and moves it past them (40_byte_buffer.md R73). -/
theorem hostExec_bufRead_of_unread {b : BufferId} {s : State} {n : Nat}
    (hspan : n ≤ (getBuffer b s).wr - (getBuffer b s).rd) :
    hostExec (.bufRead b n) s =
      .next { putBuffer b { getBuffer b s with rd := (getBuffer b s).rd + n } s with
        result := some (.bytes (Memory.readList (getBuffer b s).store (getBuffer b s).rd n)) } := by
  rw [hostExec, hostBufRead, if_neg (by omega), Int.toNat_natCast, ByteBuffer.read, ByteBuffer.readRemaining,
    if_neg (by omega)]
  rfl

/-! ### The obligation -/

/-- Settles O8: the write leaves the bytes at the old write cursor, which is where the read starts, and the read of that
span of the store is the list written (`Memory.readList_writeList`). -/
theorem writtenBytesAreReadBack : Obligations.WrittenBytesAreReadBack := by
  intro b s bytes hsound hempty hfit
  obtain ⟨-, -, hstore, -⟩ := hsound
  refine ⟨_, _, hostExec_bufWrite_of_fits le_rfl hfit, hostExec_bufRead_of_unread ?_, ?_⟩
  · simp [hempty]
  · simp [hempty, Memory.readList_writeList bytes _ _ hstore]

end Sys2Proof.Machine
end

section
/-! PROOFS. O1, O2 and O3: the decoder and the encoder of the command stream undo each other (30_encoding.md R58 to
R61, R64, R65). -/

namespace Sys2Proof.Machine

/-! ### The 16-bit length operand -/

/-- A word is read back from its low and high byte (30_encoding.md R60). -/
theorem leWord_lo8_hi8 (w : Word) : leWord (lo8 w) (hi8 w) = w := by
  apply BitVec.eq_of_toNat_eq
  simp [leWord_eq, lo8, hi8, Nat.shiftRight_eq_div_pow]
  omega

theorem lo8_leWord (lo hi : Byte) : lo8 (leWord lo hi) = lo := BitVec.setWidth_append_eq_right

theorem hi8_leWord (lo hi : Byte) : hi8 (leWord lo hi) = hi := by
  apply BitVec.eq_of_toNat_eq
  simp [leWord_eq, hi8, Nat.shiftRight_eq_div_pow]
  omega

/-! ### What the decoder does at each opcode byte -/

/-- The opcode bytes are the eight of the opcode map and those above them (30_encoding.md R58, R64). -/
theorem opcode_cases (op : Byte) :
    op = 0x00#8 ∨ op = 0x01#8 ∨ op = 0x02#8 ∨ op = 0x03#8 ∨ op = 0x04#8 ∨ op = 0x05#8 ∨ op = 0x06#8 ∨ op = 0x07#8 ∨
      8 ≤ op.toNat := by
  bv_omega

theorem decode_illegal {op : Byte} (hop : 8 ≤ op.toNat) (rest : List Byte) :
    decode (op :: rest) = .ok (.illegal op) 1 := by
  have hne {k : Byte} (hk : k.toNat < 8) : op ≠ k := by rintro rfl; omega
  simp [decode, hne]

theorem decodeEscaped_other {op : Byte} (h6 : op ≠ 0x06#8) (h7 : op ≠ 0x07#8) (rest : List Byte) :
    decodeEscaped (op :: rest) = .ok (.escape op) 2 := by
  simp [decodeEscaped, h6, h7]

/-- A payload is accepted when all its bytes are there, and then it is those bytes (42_sequencer.md R102). -/
theorem decodePayload_eq_ok_iff {mk : List Byte → Instr} {header k n : Nat} {bytes : List Byte} {i : Instr} :
    decodePayload mk header k bytes = .ok i n ↔ k ≤ bytes.length ∧ mk (bytes.take k) = i ∧ header + k = n := by
  unfold decodePayload
  split <;> simp <;> omega

theorem decodePayload_append (mk : List Byte → Instr) (header : Nat) {k : Nat} {d : List Byte} (hk : k = d.length)
    (tail : List Byte) : decodePayload mk header k (d ++ tail) = .ok (mk d) (header + d.length) :=
  decodePayload_eq_ok_iff.mpr (by simp [hk])

/-! ### Decoding an encoding -/

/-- Settles O1: the opcode bytes select the constructor's format, and its operands fit the bits that format has, so
they are read back whole (R59, R61). -/
theorem decodeOfEncodeIsTheCommand : Obligations.DecodeOfEncodeIsTheCommand := by
  intro i tail hwf
  cases i with
  | endCmd | start | stop | addr | flags | read => rfl
  | escape op =>
    obtain ⟨h6, h7⟩ : op ≠ 0x06#8 ∧ op ≠ 0x07#8 := by simpa [Instr.wf] using hwf
    exact decodeEscaped_other h6 h7 tail
  | write d =>
    have hfits : d.length ≤ 255 := of_decide_eq_true hwf
    exact decodePayload_append .write 2 (Nat.mod_eq_of_lt (by omega)) tail
  | escRead n => exact congrArg (fun w => Decoded.ok (.escRead w) 4) (leWord_lo8_hi8 n)
  | escWrite d =>
    have hfits : d.length ≤ 65535 := of_decide_eq_true hwf
    refine decodePayload_append .escWrite 4 ?_ tail
    rw [leWord_lo8_hi8]
    exact Nat.mod_eq_of_lt (by omega)
  | illegal op => exact decode_illegal (of_decide_eq_true hwf) tail

/-! ### Encoding what was decoded -/

/-- The bytes begin with the encoding of a command that has one. -/
def BeginsWithCommand (bytes : List Byte) : Prop :=
  ∃ (i : Instr) (tail : List Byte), i.wf = true ∧ encode i ++ tail = bytes

/-- A `Write` whose payload is there is encoded by its length operand and those payload bytes (30_encoding.md R59). -/
theorem beginsWithCommand_write {k : Byte} {rest : List Byte} (hk : k.toNat ≤ rest.length) :
    BeginsWithCommand (0x07#8 :: k :: rest) := by
  have hlen : (rest.take k.toNat).length = k.toNat := List.length_take_of_le hk
  refine ⟨.write (rest.take k.toNat), rest.drop k.toNat, ?_, by simp [encode, hlen]⟩
  exact decide_eq_true (hlen.trans_le (Nat.le_of_lt_succ k.isLt))

/-- An escaped `Write` whose payload is there is encoded by its 16-bit length operand and those payload bytes
(30_encoding.md R59, R61). -/
theorem beginsWithCommand_escWrite {lo hi : Byte} {rest : List Byte} (hk : (leWord lo hi).toNat ≤ rest.length) :
    BeginsWithCommand (0x01#8 :: 0x07#8 :: lo :: hi :: rest) := by
  have hlen : (rest.take (leWord lo hi).toNat).length = (leWord lo hi).toNat := List.length_take_of_le hk
  refine ⟨.escWrite (rest.take (leWord lo hi).toNat), rest.drop (leWord lo hi).toNat, ?_, ?_⟩
  · exact decide_eq_true (hlen.trans_le (Nat.le_of_lt_succ (leWord lo hi).isLt))
  · simp [encode, hlen, lo8_leWord, hi8_leWord]

/-- What is accepted after ESCAPE is one of the two 16-bit formats whole, or any other byte (30_encoding.md R61,
R63). -/
theorem beginsWithCommand_of_decodeEscaped {rest : List Byte} {i : Instr} {n : Nat}
    (h : decodeEscaped rest = .ok i n) : BeginsWithCommand (0x01#8 :: rest) := by
  match rest with
  | [] => cases h
  | op :: operands =>
    by_cases h6 : op = 0x06#8
    · subst h6
      match operands with
      | [] | [_] => cases h
      | lo :: hi :: tail => exact ⟨.escRead (leWord lo hi), tail, rfl, by simp [encode, lo8_leWord, hi8_leWord]⟩
    by_cases h7 : op = 0x07#8
    · subst h7
      match operands with
      | [] | [_] => cases h
      | lo :: hi :: tail => exact beginsWithCommand_escWrite (decodePayload_eq_ok_iff.mp h).1
    · exact ⟨.escape op, operands, by simp [Instr.wf, h6, h7], rfl⟩

/-- What the decoder accepts begins with a command, opcode byte by opcode byte; the operand formats break off where a
byte is missing (30_encoding.md R58, R65). -/
theorem beginsWithCommand_of_decode {bytes : List Byte} {i : Instr} {n : Nat} (h : decode bytes = .ok i n) :
    BeginsWithCommand bytes := by
  match bytes with
  | [] => cases h
  | op :: rest =>
    obtain rfl | rfl | rfl | rfl | rfl | rfl | rfl | rfl | hop := opcode_cases op
    · exact ⟨.endCmd, rest, rfl, rfl⟩
    · exact beginsWithCommand_of_decodeEscaped h
    · exact ⟨.start, rest, rfl, rfl⟩
    · exact ⟨.stop, rest, rfl, rfl⟩
    · match rest with
      | [] => cases h
      | a :: tail => exact ⟨.addr a, tail, rfl, rfl⟩
    · exact ⟨.flags, rest, rfl, rfl⟩
    · match rest with
      | [] => cases h
      | k :: tail => exact ⟨.read k, tail, rfl, rfl⟩
    · match rest with
      | [] => cases h
      | k :: tail => exact beginsWithCommand_write (decodePayload_eq_ok_iff.mp h).1
    · exact ⟨.illegal op, rest, decide_eq_true hop, rfl⟩

/-- `Laws.EncodingLength` for every command (30_encoding.md R60). -/
theorem encode_length (i : Instr) : (encode i).length = i.length := by
  cases i with
  | endCmd | escape | start | stop | addr | flags | read | escRead | illegal => rfl
  | write d => exact (Laws.EncodingLength.write d).1
  | escWrite d => exact (Laws.EncodingLength.escWrite d).1

/-- Settles O2: accepted bytes begin with a command's encoding, and the decoder answers that command
(`decodeOfEncodeIsTheCommand`), so its answer is the one reading. -/
theorem encodeOfDecodeIsTheBytes : Obligations.EncodeOfDecodeIsTheBytes := by
  intro bytes i n h
  obtain ⟨i', tail, hwf, rfl⟩ := beginsWithCommand_of_decode h
  rw [decodeOfEncodeIsTheCommand i' tail hwf] at h
  cases h
  exact ⟨hwf, rfl, List.take_left' (encode_length _)⟩

/-! ### The words of the opcode map -/

/-- Settles O3: the eleven words are the encodings of their commands with some bytes after them
(`decodeOfEncodeIsTheCommand`), and the last `Write` declares five payload bytes where three are left. -/
theorem specWordsDecodeToTheirCommands : Obligations.SpecWordsDecodeToTheirCommands :=
  have hword := decodeOfEncodeIsTheCommand
  ⟨hword .endCmd [] rfl, hword .start [0x00#8] rfl, hword .stop [0x00#8] rfl, hword (.addr 0x68#8) [0x00#8] rfl,
    hword .flags [0x00#8] rfl, hword (.read 0x07#8) [0x00#8] rfl, hword (.write [0xAA#8, 0x00#8]) [0x03#8] rfl,
    hword (.escRead 0x012C#16) [0x00#8] rfl, hword (.escWrite [0x55#8]) [0x00#8] rfl,
    hword (.escape 0x04#8) [0x68#8, 0x00#8] rfl, hword (.illegal 0x08#8) [] rfl, rfl⟩

end Sys2Proof.Machine
end

section
/-! PROOFS. O5, O6 and O7: every Byte Buffer operation as a host operation, with its failure and its refusal
(40_byte_buffer.md R70 to R77; 60_exceptions.md R156). -/

namespace Sys2Proof.Machine

/-! ### Writes -/

/-- A write with too few bytes free hands back `WriteOverflow` and stores nothing (40_byte_buffer.md R71). -/
theorem hostExec_bufWrite_overflow {b : BufferId} {s : State} {bytes : List Byte} {n : Nat} (hn : n ≤ bytes.length)
    (hfull : (getBuffer b s).cap - (getBuffer b s).wr < n) :
    hostExec (.bufWrite b bytes n) s = .next { s with result := some (.status .writeOverflow) } := by
  have hlen : (bytes.take n).length = n := List.length_take_of_le hn
  rw [hostExec, hostBufWrite, if_neg (by omega), if_neg (by omega), Int.toNat_natCast, ByteBuffer.write, hlen,
    ByteBuffer.writeRemaining, if_pos hfull, storeBuffer, handBack]

/-- `write(v)` is `write(bytes, n)` of the one byte (40_byte_buffer.md R70). -/
theorem hostExec_bufWrite8 (b : BufferId) (v : Byte) (s : State) :
    hostExec (.bufWrite8 b v) s = hostExec (.bufWrite b [v] 1) s := rfl

theorem hostExec_bufWrite_negative {k : Int} (hk : k < 0) (b : BufferId) (bytes : List Byte) (s : State) :
    hostExec (.bufWrite b bytes k) s = .refused .negativeCount := by
  rw [hostExec, hostBufWrite, if_pos hk, handBack]

/-- Settles O5: `hostExec_bufWrite_overflow` and `hostExec_bufWrite_of_fits`, as the free span is shorter than `n` or
not. -/
theorem bufferWriteIsAllOrNothing : Obligations.BufferWriteIsAllOrNothing := by
  intro b s bytes n hn
  refine ⟨?_, fun v => hostExec_bufWrite8 b v s, fun k hk => hostExec_bufWrite_negative hk b bytes s⟩
  split
  · next hfull => exact hostExec_bufWrite_overflow hn hfull
  · next hfit => exact hostExec_bufWrite_of_fits hn (not_lt.1 hfit)

/-! ### Reads -/

/-- A read past the unread span hands back `ReadUnderflow` and takes nothing (40_byte_buffer.md R73). -/
theorem hostExec_bufRead_underflow {b : BufferId} {s : State} {n : Nat}
    (hshort : (getBuffer b s).wr - (getBuffer b s).rd < n) :
    hostExec (.bufRead b n) s = .next { s with result := some (.status .readUnderflow) } := by
  rw [hostExec, hostBufRead, if_neg (by omega), Int.toNat_natCast, ByteBuffer.read, ByteBuffer.readRemaining,
    if_pos hshort]
  rfl

theorem hostExec_bufRead_negative {k : Int} (hk : k < 0) (b : BufferId) (s : State) :
    hostExec (.bufRead b k) s = .refused .negativeCount := by
  rw [hostExec, hostBufRead, if_pos hk, handBack]

/-- `read8()` with no byte unread hands back `ReadUnderflow` (40_byte_buffer.md R72). -/
theorem hostExec_bufRead8_underflow {b : BufferId} {s : State}
    (hshort : (getBuffer b s).wr - (getBuffer b s).rd < 1) :
    hostExec (.bufRead8 b) s = .next { s with result := some (.status .readUnderflow) } := by
  rw [hostExec, hostBufRead8, ByteBuffer.read8, ByteBuffer.readRemaining, if_pos hshort]
  rfl

/-- `read8()` of a byte that is there takes it from the read cursor (40_byte_buffer.md R72). -/
theorem hostExec_bufRead8_of_unread {b : BufferId} {s : State}
    (hspan : 1 ≤ (getBuffer b s).wr - (getBuffer b s).rd) :
    hostExec (.bufRead8 b) s =
      .next { putBuffer b { getBuffer b s with rd := (getBuffer b s).rd + 1 } s with
        result := some (.byte (Memory.read (getBuffer b s).store (getBuffer b s).rd)) } := by
  rw [hostExec, hostBufRead8, ByteBuffer.read8, ByteBuffer.readRemaining, if_neg (not_lt.2 hspan)]
  rfl

/-- Settles O6: `read` and `read8` each underflow or succeed, as the unread span is shorter than asked or not. -/
theorem bufferReadTakesTheUnreadSpan : Obligations.BufferReadTakesTheUnreadSpan := by
  intro b s n
  refine ⟨?_, ?_, fun k hk => hostExec_bufRead_negative hk b s⟩
  · split
    · next hshort => exact hostExec_bufRead_underflow hshort
    · next hspan => exact hostExec_bufRead_of_unread (not_lt.1 hspan)
  · split
    · next hshort => exact hostExec_bufRead8_underflow hshort
    · next hspan => exact hostExec_bufRead8_of_unread (not_lt.1 hspan)

/-! ### The cursors -/

/-- A cleared buffer reads as zero everywhere (40_byte_buffer.md R75). -/
theorem read_clear (x : ByteBuffer) (i : Nat) : Memory.read x.clear.store i = 0#8 := rfl

/-- `clear()` puts the cleared buffer in the place of the old one (40_byte_buffer.md R75). -/
theorem hostExec_bufClear (b : BufferId) (s : State) :
    hostExec (.bufClear b) s =
      .next { putBuffer b (getBuffer b s).clear s with result := some (.status .ok) } := rfl

/-- `setWriteLength` above the capacity hands back `WriteOverflow`, whatever the read cursor is (40_byte_buffer.md
R76). -/
theorem hostExec_bufSetWriteLength_overflow {b : BufferId} {s : State} {n : Nat} (hcap : (getBuffer b s).cap < n) :
    hostExec (.bufSetWriteLength b n) s = .next { s with result := some (.status .writeOverflow) } := by
  rw [hostExec, hostSetWriteLength, if_neg (by omega), Int.toNat_natCast, ByteBuffer.setWriteLength, if_pos hcap]
  rfl

/-- Within the capacity, `setWriteLength` is decided by the read cursor alone (40_byte_buffer.md R76). -/
theorem hostExec_bufSetWriteLength_within {b : BufferId} {s : State} {n : Nat} (hcap : n ≤ (getBuffer b s).cap) :
    hostExec (.bufSetWriteLength b n) s =
      if n < (getBuffer b s).rd then .refused .setWriteLengthBelowRead
      else .next { putBuffer b { getBuffer b s with wr := n } s with result := some (.status .ok) } := by
  rw [hostExec, hostSetWriteLength, if_neg (by omega), Int.toNat_natCast, ByteBuffer.setWriteLength,
    if_neg (not_lt.2 hcap)]
  simp only [Nat.cast_lt]
  split <;> rfl

theorem hostExec_bufSetWriteLength_negative {k : Int} (hk : k < 0) (b : BufferId) (s : State) :
    hostExec (.bufSetWriteLength b k) s = .refused .negativeCount := by
  rw [hostExec, hostSetWriteLength, if_pos hk, handBack]

/-- Settles O7: `setWriteLength` by its three cases over `n`; `clear()` leaves the cleared buffer, which `read_clear`
reads; `reset()` and the accessors are their own arms. -/
theorem bufferCursorOperations : Obligations.BufferCursorOperations := by
  intro b s
  refine ⟨rfl, ⟨_, hostExec_bufClear b s, rfl, ?_⟩, fun n => ⟨hostExec_bufSetWriteLength_overflow, ?_, ?_⟩,
    fun k hk => hostExec_bufSetWriteLength_negative hk b s, rfl, rfl, rfl, rfl, rfl⟩
  · rw [getBuffer_result, getBuffer_putBuffer]
    exact ⟨rfl, rfl, rfl, read_clear _⟩
  · intro hcap hbelow
    rw [hostExec_bufSetWriteLength_within hcap, if_pos hbelow]
  · intro hcap hrd
    rw [hostExec_bufSetWriteLength_within hcap, if_neg (not_lt.2 hrd)]

end Sys2Proof.Machine
end

section
/-! PROOFS. O9: the encoder's operations as host operations (41_command_encoder.md R79 to R86; 60_exceptions.md R156). -/

namespace Sys2Proof.Machine

/-! ### One encoder write, handed back to the host -/

/-- `encodeBytes_eq` as the host sees it: `WriteOverflow` with `CMD` as it was, or `Ok` with every byte appended. -/
theorem handBack_encodeBytes (bytes : List Byte) (s : State) :
    handBack okStatus (encodeBytes bytes s) =
      if s.cmd.cap - s.cmd.wr < bytes.length then .next { s with result := some (.status .writeOverflow) }
      else .next { s with
        cmd := { s.cmd with
          store := Memory.writeList s.cmd.store s.cmd.wr bytes, wr := s.cmd.wr + bytes.length }
        result := some (.status .ok) } := by
  rw [encodeBytes_eq]
  split <;> rfl

/-! ### The counts that have no encoding -/

theorem encLength_tooLarge {n : Nat} (hn : 65535 < n) (code : Byte) (s : State) :
    encLength code n s = .refused .lengthTooLarge := by
  rw [encLength, if_neg (by omega), if_pos (by exact_mod_cast hn)]

theorem encLength_negative {k : Int} (hk : k < 0) (code : Byte) (s : State) :
    encLength code k s = .refused .negativeCount :=
  if_pos hk

/-! ### The obligation -/

/-- Settles O9: every operation is one encoder write of its bytes, `send` and `receive` by `encLength_nat`, and such a
write is all or nothing (`handBack_encodeBytes`); the other counts are refused before any write. -/
theorem encoderAppendsItsBytes : Obligations.EncoderAppendsItsBytes := by
  intro s a n op bytes
  refine ⟨fun hn hop => ?_, fun hn hop => ?_, fun k hk hop => ?_⟩ <;>
    simp only [List.mem_cons, List.not_mem_nil, or_false, Prod.mk.injEq] at hop
  · rw [← handBack_encodeBytes]
    obtain ⟨rfl, rfl⟩ | ⟨rfl, rfl⟩ | ⟨rfl, rfl⟩ | ⟨rfl, rfl⟩ | ⟨rfl, rfl⟩ | ⟨rfl, rfl⟩ | ⟨rfl, rfl⟩ | ⟨rfl, rfl⟩ := hop
    iterate 6 · rfl
    · exact congrArg (handBack okStatus) (encLength_nat 0x07#8 n hn s)
    · exact congrArg (handBack okStatus) (encLength_nat 0x06#8 n hn s)
  · obtain rfl | rfl := hop
    · exact congrArg (handBack okStatus) (encLength_tooLarge hn 0x07#8 s)
    · exact congrArg (handBack okStatus) (encLength_tooLarge hn 0x06#8 s)
  · obtain rfl | rfl := hop
    · exact congrArg (handBack okStatus) (encLength_negative hk 0x07#8 s)
    · exact congrArg (handBack okStatus) (encLength_negative hk 0x06#8 s)

end Sys2Proof.Machine
end

section
/-! PROOFS. O12 to O16, O19, O22 and O23: `Fail`, the commands that frame a transaction, and the commands and transfers
that end in `Fail` before any event of their own (42_sequencer.md R95 to R100, R103, R105 to R107; 60_exceptions.md
R158). -/

namespace Sys2Proof.Machine

/-! ### `Fail` (42_sequencer.md R95) -/

theorem abort_of_timeout (s : State) :
    abort .timeout s = .next { s with phase := .idle, run := .failed .timeout s.rsp.wr } :=
  if_pos (.inl rfl)

/-- With no transaction open `Fail` changes the result alone. -/
theorem abort_of_idle {s : State} (reason : Reason) (hp : s.phase = .idle) :
    abort reason s = .next { s with run := .failed reason s.rsp.wr } := by
  rw [abort, if_pos (.inr hp), endFailed, ← hp]

/-- With a transaction open it emits a `P`, whatever the answer is. -/
theorem abort_of_open {reason : Reason} {s : State} {r : BusReply} {rest : List (Option BusReply)}
    (hq : reason ≠ .timeout) (hp : s.phase ≠ .idle) (hb : s.env.bus = some r :: rest) :
    abort reason s = .next { played [.stop] rest s with phase := .idle, run := .failed reason s.rsp.wr } := by
  rw [abort, if_neg (not_or.2 ⟨hq, hp⟩), emit_script hb]
  rfl

/-- Settles O12: `abort_of_timeout`, `abort_of_idle` and `abort_of_open` are the three ways `Fail` goes. -/
theorem failClosesAnOpenTransaction : Obligations.FailClosesAnOpenTransaction := by
  refine fun reason s => ⟨?_, fun hq hp r rest hb => abort_of_open hq hp hb⟩
  rintro (rfl | hp)
  · exact abort_of_timeout s
  · rw [abort_of_idle reason hp, ← hp]

/-- The outcome is that of a `Fail` from `s` whose closing `P` is answered: with no transaction open no event, otherwise
the `P`. -/
def FailsAt (s : State) (reason : Reason) (x : Host.Outcome State Fault Refusal) : Prop :=
  (s.phase = .idle → x = .next { s with run := .failed reason s.rsp.wr }) ∧
  (s.phase ≠ .idle → ∀ r rest, s.env.bus = some r :: rest →
    x = .next { played [.stop] rest s with phase := .idle, run := .failed reason s.rsp.wr })

theorem abort_failsAt {reason : Reason} (hq : reason ≠ .timeout) (s : State) : FailsAt s reason (abort reason s) :=
  ⟨abort_of_idle reason, fun hp _ _ hb => abort_of_open hq hp hb⟩

/-! ### END, START, STOP (42_sequencer.md R96 to R98) -/

/-- END with a transaction open: the `P`, and then what its answer says. -/
theorem execEnd_of_open {s : State} {r : BusReply} {rest : List (Option BusReply)} (hp : s.phase ≠ .idle)
    (hb : s.env.bus = some r :: rest) :
    execEnd s = .next (if r = .timeout then endFailed .timeout (played [.stop] rest s)
      else { played [.stop] rest s with phase := .idle, run := .completed s.rsp.wr }) := by
  rw [execEnd, if_neg hp, emit_script hb]
  rfl

/-- START: its event, and then what the answer says. -/
theorem execStart_of_reply {s : State} {r : BusReply} {rest : List (Option BusReply)}
    (hb : s.env.bus = some r :: rest) :
    execStart s = .next (
      if r = .timeout then endFailed .timeout (played [if s.phase = .idle then .start else .restart] rest s)
      else { played [if s.phase = .idle then .start else .restart] rest s with phase := .started }) := by
  rw [execStart, emit_script hb]

/-- STOP with a transaction open: the `P`, and then what its answer says. -/
theorem execStop_of_open {s : State} {r : BusReply} {rest : List (Option BusReply)} (hp : s.phase ≠ .idle)
    (hb : s.env.bus = some r :: rest) :
    execStop s = .next (if r = .timeout then endFailed .timeout (played [.stop] rest s)
      else { played [.stop] rest s with phase := .idle }) := by
  rw [execStop, if_neg hp, emit_script hb]

/-- Settles O13: with a transaction open, `execEnd_of_open` for either answer. -/
theorem endCompletesTheExecution : Obligations.EndCompletesTheExecution :=
  fun _ => ⟨fun hp => if_pos hp, fun hp _ _ _ hb => execEnd_of_open hp hb, fun hp _ hb => execEnd_of_open hp hb⟩

/-- Settles O14: `execStart_of_reply` for either answer. -/
theorem startSignalsStartOrRepeatedStart : Obligations.StartSignalsStartOrRepeatedStart := by
  rintro s e rfl
  exact ⟨fun _ _ _ hb => execStart_of_reply hb, fun _ hb => execStart_of_reply hb⟩

/-- Settles O15: with a transaction open, `execStop_of_open` for either answer. -/
theorem stopReleasesTheBus : Obligations.StopReleasesTheBus :=
  fun _ => ⟨fun hp => if_pos hp, fun hp _ _ _ hb => execStop_of_open hp hb, fun hp _ hb => execStop_of_open hp hb⟩

/-! ### ADDR (42_sequencer.md R99) -/

theorem exec_addr_of_sevenBit (a : Addr7) (s : State) :
    exec (.addr (a.setWidth 8)) s = .next { s with addr := some a } := by
  have hrange : ¬0x7F < (a.setWidth 8).toNat := by
    rw [BitVec.toNat_setWidth_of_le (by decide)]
    omega
  rw [exec, execAddr, if_neg hrange, BitVec.setWidth_setWidth_of_le a (by decide), BitVec.setWidth_eq]

theorem exec_addr_of_illegal {a : Byte} (ha : 0x7F < a.toNat) (s : State) :
    exec (.addr a) s = abort .illegalAddress s :=
  if_pos ha

/-- Settles O16: a 7-bit address is recorded, any other operand is `Fail`'s. -/
theorem addressSetsTheTarget : Obligations.AddressSetsTheTarget := by
  intro s
  obtain ⟨hidle, hopen⟩ := abort_failsAt (reason := .illegalAddress) (by decide) s
  refine ⟨fun a => exec_addr_of_sevenBit a s, fun a ha hp => ?_, fun a ha hp r rest hb => ?_⟩
  · rw [exec_addr_of_illegal ha, hidle hp]
  · rw [exec_addr_of_illegal ha, hopen hp r rest hb]

/-! ### Commands and transfers without an event of their own -/

/-- Settles O19: each of the four is a transfer of no bytes (42_sequencer.md R106). -/
theorem zeroLengthCommandsDoNothing : Obligations.ZeroLengthCommandsDoNothing := by
  intro s i hi
  simp only [List.mem_cons, List.not_mem_nil, or_false] at hi
  obtain rfl | rfl | rfl | rfl := hi <;> rfl

/-- A `Read` that does not fit in `RSP` is `Fail`'s (42_sequencer.md R103). -/
theorem readInto_of_overflow {n : Nat} {s : State} (hn : 0 < n) (hfull : s.rsp.cap - s.rsp.wr < n) :
    readInto n s = abort .writeOverflow s := by
  rw [readInto, if_neg (by omega), ByteBuffer.writeRemaining, if_pos hfull]

/-- An address phase without a target fails before its first event (42_sequencer.md R100). -/
theorem addrPhase_of_no_target {s : State} (ha : s.addr = none) (isRead : Bool) :
    addrPhase isRead s = .failed .noAddress s := by
  simp only [addrPhase, ha]

theorem readInto_of_no_target {n : Nat} {s : State} (hn : 0 < n) (hfit : n ≤ s.rsp.cap - s.rsp.wr)
    (ha : s.addr = none) : readInto n s = abort .noAddress s := by
  rw [readInto_of_fits hn hfit, addrPhase_of_no_target ha, bind_failed, finish]

theorem writePayload_of_no_target {d : List Byte} {s : State} (hd : d ≠ []) (hp : s.phase ≠ .writing)
    (ha : s.addr = none) : writePayload d s = abort .noAddress s := by
  rw [writePayload_of_not_writing hd hp, addrPhase_of_no_target ha, bind_failed, finish]

/-- Settles O22: in each case the command is `Fail` with its reason (`readInto_of_overflow`, `readInto_of_no_target`,
`writePayload_of_no_target`). -/
theorem transfersCheckBeforeAnyEvent : Obligations.TransfersCheckBeforeAnyEvent := by
  intro s i reason h
  suffices hfail : reason ≠ .timeout ∧ exec i s = abort reason s by
    obtain ⟨hq, hx⟩ := hfail
    rw [hx]
    exact abort_failsAt hq s
  obtain ⟨n, hn, hi, ⟨hfull, rfl⟩ | ⟨hfit, ha, rfl⟩⟩ | ⟨d, hd, hi, hp, ha, rfl⟩ := h
  · exact ⟨by decide, by rw [exec_of_read hi, readInto_of_overflow hn hfull]⟩
  · exact ⟨by decide, by rw [exec_of_read hi, readInto_of_no_target hn hfit ha]⟩
  · exact ⟨by decide, by rw [exec_of_write hi, writePayload_of_no_target hd hp ha]⟩

/-- Settles O23: each of them is `Fail` with its reason. -/
theorem illegalCommandsFail : Obligations.IllegalCommandsFail := by
  intro s op i reason h
  simp only [List.mem_cons, List.not_mem_nil, or_false, Prod.mk.injEq] at h
  obtain ⟨rfl, rfl⟩ | ⟨rfl, rfl⟩ | ⟨rfl, rfl⟩ := h
  · exact abort_failsAt (by decide) s
  · exact abort_failsAt (by decide) s
  · exact abort_failsAt (by split <;> decide) s

end Sys2Proof.Machine
end

section
/-! PROOFS. O17, O18, O20 and O21: a transfer whose events are all granted, and one that fails at the first event
that is not (42_sequencer.md R95, R100 to R105). -/

namespace Sys2Proof.Machine

/-! ### A transfer whose events are granted -/

theorem writeEvents_of_writing (a : Addr7) (d : List Byte) : writeEvents .writing a d = d.map .tx := rfl

theorem writeEvents_of_not_writing {p : Phase} (hp : p ≠ .writing) (a : Addr7) (d : List Byte) :
    writeEvents p a d = openEvents p ++ [.tx (addrByte a false)] ++ d.map .tx := by
  rw [writeEvents, if_neg hp]

/-- A `Write` of one or more bytes plays its events (42_sequencer.md R102). -/
theorem writePayload_played {d : List Byte} {s : State} {a : Addr7} {rs : List BusReply}
    {rest : List (Option BusReply)} (hd : d ≠ []) (ha : s.addr = some a)
    (hg : grants (writeEvents s.phase a d) rs = true) (hb : s.env.bus = rs.map some ++ rest) :
    writePayload d s = .next { played (writeEvents s.phase a d) rest s with phase := .writing } := by
  by_cases hp : s.phase = .writing
  · rw [hp, writeEvents_of_writing] at hg ⊢
    rw [writePayload_of_writing hd hp, txAll_played d s rs rest hg hb, finish]
  · rw [writeEvents_of_not_writing hp] at hg ⊢
    obtain ⟨r1, r2, rfl, hg1, hg2, -⟩ := grants_append hg
    rw [writePayload_of_not_writing hd hp,
      addrPhase_played false s a r1 (r2.map some ++ rest) ha hg1 (by simpa using hb), bind_done,
      txAll_played d _ r2 rest hg2 rfl, finish]
    simp [played]

/-- A `Read` that fits plays its events and stores the bytes answered (42_sequencer.md R103). -/
theorem readInto_played {n : Nat} {s : State} {a : Addr7} {rs : List BusReply} {rest : List (Option BusReply)}
    (hn : 0 < n) (hfit : n ≤ s.rsp.cap - s.rsp.wr) (ha : s.addr = some a)
    (hg : grants (readEvents s.phase a n) rs = true) (hb : s.env.bus = rs.map some ++ rest) :
    readInto n s = .next { stored (received (readEvents s.phase a n) rs) (played (readEvents s.phase a n) rest s) with
      phase := .readDone } := by
  rw [readEvents] at hg ⊢
  obtain ⟨r1, r2, rfl, hg1, hg2, hrec⟩ := grants_append hg
  rw [received_of_no_rx r1 (addrEvents_no_rx s.phase _), List.nil_append] at hrec
  rw [readInto_of_fits hn hfit,
    addrPhase_played true s a r1 (r2.map some ++ rest) ha hg1 (by simpa using hb), bind_done,
    rxStore_played n _ r2 rest hg2 rfl, finish, hrec]
  simp [played, stored]

/-- A granted `Read` brings as many bytes as it asks for. -/
theorem received_readEvents_length {p : Phase} {a : Addr7} {n : Nat} {rs : List BusReply}
    (hg : grants (readEvents p a n) rs = true) : (received (readEvents p a n) rs).length = n := by
  rw [readEvents] at hg ⊢
  obtain ⟨r1, r2, -, -, hg2, hrec⟩ := grants_append hg
  rw [hrec, received_of_no_rx r1 (addrEvents_no_rx p _), List.nil_append, received_rx_length n r2 hg2]

/-- Settles O17 by `writePayload_played`. -/
theorem writeSendsItsPayload : Obligations.WriteSendsItsPayload := by
  intro s a d i rs rest hi hd ha hg hb
  rw [exec_of_write hi, writePayload_played hd ha hg hb]

/-- Settles O18 by `readInto_played`; the write cursor moves by `n` (`received_readEvents_length`). -/
theorem readStoresTheReceivedBytes : Obligations.ReadStoresTheReceivedBytes := by
  intro s a n i rs rest hi hn hfit ha hg hb
  rw [exec_of_read hi, readInto_played hn hfit ha hg hb]
  simp only [stored, played_rsp, received_readEvents_length hg]

/-! ### A transfer that fails at an event -/

theorem refusal_timeout (e : BusEvent) : refusal e .timeout = some .timeout := by
  cases e <;> rfl

/-- Clocking bytes in sends none. -/
theorem tx_not_mem_rxEvents (n : Nat) (b : Byte) : .tx b ∉ rxEvents n := by
  induction n with
  | zero => simp [rxEvents]
  | succ n ih => simpa [rxEvents] using ih

/-- Before a byte that a `Read` sends, which is its address byte, no byte comes in (42_sequencer.md R100, R103). -/
theorem received_before_tx {p : Phase} {a : Addr7} {n : Nat} {pre post : List BusEvent} {b : Byte}
    (h : readEvents p a n = pre ++ .tx b :: post) (rs : List BusReply) : received pre rs = [] := by
  refine received_of_no_rx rs fun ack hm => ?_
  obtain ⟨q, haddr⟩ | ⟨q, -, hdata⟩ := append_eq_split h
  · exact addrEvents_no_rx p (addrByte a true) ack (haddr ▸ List.mem_append_left _ hm)
  · exact tx_not_mem_rxEvents n b (hdata ▸ List.mem_append_right q List.mem_cons_self)

/-- Settles O20: the `Write` ends in the `Fail` of the refused event (`writePayload_refused`), which closes the
transaction after a `Nack` only (`abort_played`). -/
theorem writeFailsAtTheFirstRefusal : Obligations.WriteFailsAtTheFirstRefusal := by
  intro s a d i pre post e rs rest hi hd ha hes hg
  rw [exec_of_write hi]
  refine ⟨fun hb => ?_, ?_⟩
  · obtain ⟨ph, hx, -⟩ := writePayload_refused d s a pre post e rs _ _ _ hd ha hes hg (refusal_timeout e) hb
    rw [hx, (abort_played pre e rest ph).1 rfl]
  · rintro b v p rfl hb
    obtain ⟨ph, hx, hph⟩ := writePayload_refused d s a pre post _ rs _ .nack _ hd ha hes hg rfl hb
    rw [hx, (abort_played pre _ _ ph).2 p rest (by decide) (hph ⟨b, rfl⟩) rfl]

/-- Settles O21: the `Read` ends in the `Fail` of the refused event with the bytes received by then stored
(`readInto_refused`); before a `Nack` there are none (`received_before_tx`). -/
theorem readFailsAtTheFirstRefusal : Obligations.ReadFailsAtTheFirstRefusal := by
  rintro s a n i pre post e rs rest data hi hn hfit ha hes hg rfl
  rw [exec_of_read hi]
  refine ⟨fun hb => ?_, ?_⟩
  · obtain ⟨ph, hx, -⟩ := readInto_refused n s a pre post e rs _ _ _ hn hfit ha hes hg (refusal_timeout e) hb
    rw [hx, abort_of_timeout]
    rfl
  · rintro b v p rfl hb
    obtain ⟨ph, hx, hph⟩ := readInto_refused n s a pre post _ rs _ .nack _ hn hfit ha hes hg rfl hb
    rw [hx, received_before_tx hes, stored_nil, (abort_played pre _ _ ph).2 p rest (by decide) (hph ⟨b, rfl⟩) rfl]

end Sys2Proof.Machine
end

section
/-! PROOFS. O4, O10, O11 and O25 to O29: how an execution begins and goes on, what every command of it answers and
changes, and that it ends (42_sequencer.md R92 to R110; 10_state.md R19, R20; 20_memory.md R55). -/

namespace Sys2Proof.Machine

/-! ### The start of an execution (42_sequencer.md R93, R109) -/

/-- The draw of an execution, when it is scripted. -/
theorem askExecution_script {s : State} {d : ExecDraw} {rest : List (Option ExecDraw)}
    (h : s.env.executions = some d :: rest) :
    askExecution s = some (d, { s with env := { s.env with executions := rest } }) := by
  simp only [askExecution, h, nextAnswer]

theorem askExecution_silent {s : State} {rest : List (Option ExecDraw)} (h : s.env.executions = none :: rest) :
    askExecution s = none := by
  simp only [askExecution, h, nextAnswer]

theorem hostExec_execute_of_reference {s : State} (h : s.params.executor = .reference) :
    hostExec .execute s = .next (beginExecution s) := by
  simp only [hostExec, hostExecute, h]

theorem hostExec_execute_of_oracle {s : State} (h : s.params.executor = .oracle) :
    hostExec .execute s = executeOracle s := by
  simp only [hostExec, hostExecute, h]

/-- A scripted draw whose bytes fit in `RSP`: it holds them from its start on, the trace is the draw's and the result
counts the bytes (42_sequencer.md R109). -/
theorem executeOracle_of_fits {s : State} {d : ExecDraw} {rest : List (Option ExecDraw)}
    (h : s.env.executions = some d :: rest) (hfit : d.bytes.length ≤ s.rsp.cap) :
    executeOracle s = .next { beginExecution s with
      cmd := { s.cmd with rd := min d.consumed s.cmd.wr }
      rsp := { s.rsp with store := Memory.writeList s.rsp.store 0 d.bytes, rd := 0, wr := d.bytes.length }
      trace := d.trace
      run := d.failure.elim (.completed d.bytes.length) (.failed · d.bytes.length)
      env := { s.env with executions := rest } } := by
  rw [executeOracle, askExecution_script (s := beginExecution s) h]
  simp only [applyDraw, beginExecution_rsp, List.take_of_length_le hfit]
  cases d.failure <;> rfl

theorem executeOracle_silent {s : State} {rest : List (Option ExecDraw)} (h : s.env.executions = none :: rest) :
    executeOracle s = .fault .environmentSilent := by
  rw [executeOracle, askExecution_silent (s := beginExecution s) h]

/-- Settles O10: the execution begins, or is the draw on the state at its start (`executeOracle_of_fits`), whose bytes
are read back (`Memory.readList_writeList`). -/
theorem executeBeginsOrIsDrawn : Obligations.ExecuteBeginsOrIsDrawn := by
  intro s
  refine ⟨hostExec_execute_of_reference, fun d rest hor hwf hscript hfit => ?_, fun rest hor hscript => ?_⟩
  · refine ⟨_, (hostExec_execute_of_oracle hor).trans (executeOracle_of_fits hscript hfit), rfl, rfl, rfl,
      Memory.readList_writeList d.bytes _ 0 hwf, rfl, ?_⟩
    cases d.failure <;> rfl
  · rw [hostExec_execute_of_oracle hor, executeOracle_silent hscript]

/-! ### A step of an execution (42_sequencer.md R94) -/

theorem stepCommand_of_ok {s : State} {i : Instr} {n : Nat} (h : decode s.cmd.unread = .ok i n) :
    stepCommand s = exec i (advance n s) := by
  simp only [stepCommand, h]

theorem stepCommand_of_missing {s : State} {w : Missing} {n : Nat} (h : decode s.cmd.unread = .missing w n) :
    stepCommand s = abort .readUnderflow (advance n s) := by
  simp only [stepCommand, h]

/-- Settles O11: the command after its bytes, or the `Fail` of a fetch that ran out. -/
theorem stepRunsTheCommandAtTheStreamPosition : Obligations.StepRunsTheCommandAtTheStreamPosition := by
  intro s hr
  rw [step_of_running hr]
  refine ⟨fun i n hd => stepCommand_of_ok hd, fun w n hd => ?_⟩
  rw [stepCommand_of_missing hd]
  exact abort_failsAt (by decide) (advance n s)

/-- The bytes of a placed program are the unread ones. -/
theorem unread_placeProgram (bytes : List Byte) {s : State} (h : s.cmd.store.wf) :
    (placeProgram bytes s).cmd.unread = bytes := by
  simp only [placeProgram, ByteBuffer.unread, ByteBuffer.readRemaining, Nat.add_sub_cancel_left,
    Memory.readList_writeList bytes _ _ h]

/-- A table word that is accepted decodes to a command of its own length (30_encoding.md R60). -/
theorem decode_tableBytes {nbits w : Nat} {i : Instr} (h : decodeTableWord nbits w = some i) :
    decode (tableBytes nbits w) = .ok i i.length := by
  unfold decodeTableWord at h
  split at h
  · next j n hd =>
    cases h
    obtain ⟨-, rfl, -⟩ := encodeOfDecodeIsTheBytes _ _ _ hd
    exact hd
  · cases h

/-- Settles O4: the placed bytes are what the step decodes. -/
theorem fetchWordRunsTheDecodedCommand : Obligations.FetchWordRunsTheDecodedCommand := by
  intro s nbits w i hwf hword
  have hdecode : decode (s.withFetchWord nbits w).cmd.unread = .ok i i.length := by
    rw [State.withFetchWord, unread_placeProgram _ hwf, decode_tableBytes hword]
  rw [step_of_running rfl, stepCommand_of_ok hdecode]

/-! ### Every command answers (42_sequencer.md R94 to R107) -/

section

variable {s : State}

theorem execEnd_answered (h : none ∉ s.env.bus) : ∃ t, execEnd s = .next t := by
  obtain ⟨r, t, hemit, -⟩ := emit_answered .stop s h
  unfold execEnd
  split
  · exact ⟨_, rfl⟩
  · rw [hemit]
    exact ⟨_, rfl⟩

theorem execStart_answered (h : none ∉ s.env.bus) : ∃ t, execStart s = .next t := by
  obtain ⟨r, t, hemit, -⟩ := emit_answered (if s.phase = .idle then .start else .restart) s h
  rw [execStart, hemit]
  exact ⟨_, rfl⟩

theorem execStop_answered (h : none ∉ s.env.bus) : ∃ t, execStop s = .next t := by
  obtain ⟨r, t, hemit, -⟩ := emit_answered .stop s h
  unfold execStop
  split
  · exact ⟨_, rfl⟩
  · rw [hemit]
    exact ⟨_, rfl⟩

theorem execAddr_answered (a : Byte) (h : none ∉ s.env.bus) : ∃ t, execAddr a s = .next t := by
  unfold execAddr
  split
  · exact abort_answered _ s h
  · exact ⟨_, rfl⟩

end

/-- Settles O25: each command's events are answered, and so is the `P` of a `Fail`. -/
theorem everyCommandAnswersWhenTheEnvironmentDoes : Obligations.EveryCommandAnswersWhenTheEnvironmentDoes := by
  intro i s h
  cases i with
  | endCmd => exact execEnd_answered h
  | start => exact execStart_answered h
  | stop => exact execStop_answered h
  | addr a => exact execAddr_answered a h
  | read n => exact readInto_answered _ s h
  | escRead n => exact readInto_answered _ s h
  | write d => exact writePayload_answered d s h
  | escWrite d => exact writePayload_answered d s h
  | escape | flags | illegal => exact abort_answered _ s h

/-! ### What a command changes and stores -/

/-- Settles O26: the effect of a command names all it can change (`exec_effect`), and the bytes it stores lie in a span
no longer than it reads. -/
theorem commandsChangeOnlyTheirOwnState : Obligations.CommandsChangeOnlyTheirOwnState := by
  intro i s t hwf h
  obtain ⟨data, tr, env, ph, addr, run, rfl, hlen, -, haddr, -⟩ := exec_effect i s t h
  refine ⟨rfl, rfl, rfl, rfl, rfl, rfl, List.prefix_append _ _, fun hi => ?_, rfl, rfl, Nat.le_add_right _ _,
    Nat.add_le_add_left hlen _, fun b hb => ?_⟩
  · obtain hsame | ⟨a, rfl, -⟩ := haddr
    · exact hsame
    · exact absurd rfl (hi a)
  · exact Memory.read_writeList_outside data _ _ b hwf (by omega)

/-- Settles O27 by the three ways a command ends (`CommandEnd`). -/
theorem successfulCommandsStoreWhatTheyRead : Obligations.SuccessfulCommandsStoreWhatTheyRead := by
  intro i s t h
  obtain ⟨data, tr, env, ph, addr, run, rfl, -, -, -, hend⟩ := exec_effect i s t h
  obtain ⟨reason, rfl, -⟩ | ⟨rfl, rfl, -, hnone⟩ | ⟨hi, -, hall, -⟩ := hend
  · exact .inl ⟨reason, _, rfl⟩
  · refine .inr ⟨congrArg (s.rsp.wr + ·) hnone, fun k _ hk => ?_⟩
    cases hk
    rfl
  · exact .inr ⟨congrArg (s.rsp.wr + ·) hall, fun _ he => absurd he hi⟩

/-! ### The whole execution -/

/-- A command of an execution never leaves it as if none had begun. -/
theorem CommandEffect.run_ne_idle {i : Instr} {s t : State} (h : CommandEffect i s t) (hs : s.run ≠ .idle) :
    t.run ≠ .idle := by
  obtain ⟨data, tr, env, ph, addr, run, rfl, -, -, -, hend⟩ := h
  obtain ⟨reason, rfl, -⟩ | ⟨-, rfl, -⟩ | ⟨-, rfl, -⟩ := hend
  · exact RunState.noConfusion
  · exact RunState.noConfusion
  · exact hs

theorem stepCommand_run_ne_idle {s t : State} (hs : s.run ≠ .idle) (h : stepCommand s = .next t) :
    t.run ≠ .idle := by
  obtain ⟨i, n, -, heff⟩ := stepCommand_effect h
  exact heff.run_ne_idle hs

/-- Settles O28: the loop may run more commands than there are bytes, so the execution is not in progress
(`runCommands_ends`), and it has begun (`stepCommand_run_ne_idle`). -/
theorem everyExecutionEnds : Obligations.EveryExecutionEnds := by
  intro s t h
  have hended : t.run ≠ .running := runCommands_ends (by simp [ByteBuffer.readRemaining]) h
  have hbegun : t.run ≠ .idle :=
    runCommands_induction (P := fun u => u.run ≠ .idle) (fun hu _ hv => stepCommand_run_ne_idle hu hv)
      RunState.noConfusion rfl h
  cases hrun : t.run with
  | idle => exact absurd hrun hbegun
  | running => exact absurd hrun hended
  | completed k => exact .inl ⟨k, rfl⟩
  | failed reason k => exact .inr ⟨reason, k, rfl⟩

/-- A run of a machine goes on from the state its first step answers. -/
theorem coreRun_succ_of_step {M : Host.Core} {k : Nat} {s t : M.State} (h : M.step s = .next t) :
    M.run (k + 1) s = M.run k t := by
  rw [Host.Core.run, h]

/-- The main loop takes as many machine steps as it runs commands. -/
theorem run_of_runCommands {fuel : Nat} {s t : State} (hr : s.run = .running) (h : runCommands fuel s = .next t) :
    ∃ k, k ≤ fuel ∧ Host.Core.run Sys2Proof.core k s = .next t := by
  induction fuel generalizing s with
  | zero => exact ⟨0, le_rfl, h⟩
  | succ fuel ih =>
    obtain ⟨u, hu, hrest⟩ := runCommands_succ_next h
    have hstep : Sys2Proof.core.step s = .next u := (step_of_running hr).trans hu
    obtain ⟨hru, hrest⟩ | ⟨-, rfl⟩ := hrest
    · obtain ⟨k, hk, hrun⟩ := ih hru hrest
      exact ⟨k + 1, by omega, (coreRun_succ_of_step hstep).trans hrun⟩
    · exact ⟨1, by omega, coreRun_succ_of_step hstep⟩

/-- Settles O29: the whole execution is the main loop from the begun execution (`run_of_runCommands`). -/
theorem stepwiseAndAtomicExecutionAgree : Obligations.StepwiseAndAtomicExecutionAgree :=
  fun _ _ h => run_of_runCommands rfl h

end Sys2Proof.Machine
end

section
/-! PROOFS. O30: the sends and receives as one procedure for each direction and kind, and what a closed transport
answers (43_transport.md R111 to R114, R119). -/

namespace Sys2Proof.Machine

/-! ### Procedures handed back to the host -/

/-- An answer made of a procedure's data is handed back as that procedure's. -/
theorem handBack_bind_done {α β : Type} (f : β → HostResult) (g : α → β) (x : Res Status α) :
    handBack f (x.bind fun a t => .done (g a) t) = handBack (fun a => f (g a)) x := by
  cases x <;> rfl

theorem bind_done_right {ε α : Type} (x : Res ε α) : (x.bind fun a t => .done a t) = x := by
  cases x <;> rfl

/-! ### The hardware transport's procedure of an operation (43_transport.md R119) -/

/-- A hardware send: one primitive without a register, the chunks of a block with one. -/
def hardwareSendOf (reg : Option Byte) (d : List Byte) (s : State) : Res Status Unit :=
  match reg with
  | none => hardwareSend d s
  | some r => sendChunks d.length r d s

/-- A block send of one chunk is one primitive. -/
theorem sendChunks_of_one_chunk {r : Byte} {d : List Byte} (hpos : d ≠ []) (hle : d.length ≤ 32) (s : State) :
    sendChunks d.length r d s = hardwareSend (r :: d) s := by
  obtain ⟨k, hk⟩ := Nat.exists_eq_succ_of_ne_zero (List.length_eq_zero_iff.not.2 hpos)
  have hdone (t : State) : sendChunks k (r + 32#8) [] t = .done () t := by cases k <;> rfl
  rw [hk, sendChunks, if_neg (by omega), List.take_of_length_le hle, List.drop_of_length_le hle]
  simp only [hdone]
  exact bind_done_right _

/-! ### The operations (43_transport.md R111) -/

/-- The two bytes of a word (20_memory.md R44). -/
theorem lo8_eq_mod (w : Word) : lo8 w = BitVec.ofNat 8 (w.toNat % 256) := by
  rw [← lo8_ofNat, BitVec.ofNat_toNat, BitVec.setWidth_eq]

theorem hi8_eq_div (w : Word) : hi8 w = BitVec.ofNat 8 (w.toNat / 256) := by
  rw [← hi8_ofNat _ (Nat.le_of_lt_succ w.isLt), BitVec.ofNat_toNat, BitVec.setWidth_eq]

/-- Every send operation is the send of its register and payload. -/
theorem hostExec_of_sendForm {op : HostOp} {reg : Option Byte} {d : List Byte} (h : sendForm op = some (reg, d))
    (s : State) : hostExec op s = handBack okStatus (sendVia reg d (hardwareSendOf reg d) s) := by
  cases op <;> simp only [sendForm, reduceCtorEq, Option.some.injEq, Prod.mk.injEq] at h <;> obtain ⟨rfl, rfl⟩ := h
  case sendByte v => rfl
  case sendBlock r buf => rfl
  case sendReg r v =>
    have hhw : hardwareSendOf (some r) [v] = hardwareSend [r, v] := funext (sendChunks_of_one_chunk (by simp) (by simp))
    rw [hhw]
    rfl
  case sendWord r w =>
    rw [← lo8_eq_mod, ← hi8_eq_div]
    have hhw : hardwareSendOf (some r) [lo8 w, hi8 w] = hardwareSend [r, lo8 w, hi8 w] :=
      funext (sendChunks_of_one_chunk (by simp) (by simp))
    rw [hhw]
    rfl

/-- A hardware receive: the chunks of a block, one primitive otherwise. -/
def hardwareReceiveOf (op : HostOp) (reg : Option Byte) (n : Nat) (s : State) : Res Status (List Byte) :=
  match op with
  | .receiveBlock r m => receiveChunks m r m s
  | _ => hardwareReceive reg n s

theorem hardwareReceiveOf_of_not_block {op : HostOp} (h : ∀ r m, op ≠ .receiveBlock r m) (reg : Option Byte)
    (n : Nat) (s : State) : hardwareReceiveOf op reg n s = hardwareReceive reg n s := by
  cases op
  case receiveBlock r m => exact absurd rfl (h r m)
  all_goals rfl

/-- Every receive operation is the receive of its register and count, and answers from the bytes it brings. -/
theorem hostExec_of_receiveForm {op : HostOp} {reg : Option Byte} {n : Nat} (h : receiveForm op = some (reg, n))
    (s : State) :
    hostExec op s = handBack (receiveAnswer op) (receiveVia reg n (hardwareReceiveOf op reg n) s) := by
  have hhead (data : List Byte) : data.headD 0#8 = data.getD 0 0#8 := by cases data <;> rfl
  cases op <;> simp only [receiveForm, reduceCtorEq, Option.some.injEq, Prod.mk.injEq] at h <;> obtain ⟨rfl, rfl⟩ := h
  case receiveBlock r n => rfl
  case receiveByte => simp only [hostExec, receiveByte, handBack_bind_done, hhead]; rfl
  case receiveReg r => simp only [hostExec, receiveReg, handBack_bind_done, hhead]; rfl
  case receiveWord r => simp only [hostExec, receiveWord, handBack_bind_done, leWord_eq]; rfl

/-! ### The kind's own realisation, or the refusal of a closed transport (43_transport.md R114) -/

section

variable {reg : Option Byte} {s : State}

theorem sendVia_of_closed (d : List Byte) (hw : State → Res Status Unit) (h : s.transport.isOpen = false) :
    sendVia reg d hw s = .failed .sendFail s := by
  simp [sendVia, h]

theorem receiveVia_of_closed (n : Nat) (hw : State → Res Status (List Byte)) (h : s.transport.isOpen = false) :
    receiveVia reg n hw s = .failed .receiveFail s := by
  simp [receiveVia, h]

variable {op : HostOp} (hopen : s.transport.isOpen = true)

include hopen

theorem hostExec_send_bitBanged {d : List Byte} (h : sendForm op = some (reg, d))
    (hkind : s.transport.kind = .bitBanged) : hostExec op s = handBack okStatus (bitBangedSend reg d s) := by
  rw [hostExec_of_sendForm h, sendVia, if_pos hopen, hkind]

theorem hostExec_send_hardware {d : List Byte} (h : sendForm op = some (reg, d))
    (hkind : s.transport.kind = .hardware) : hostExec op s = handBack okStatus (hardwareSendOf reg d s) := by
  rw [hostExec_of_sendForm h, sendVia, if_pos hopen, hkind]

theorem hostExec_receive_bitBanged {n : Nat} (h : receiveForm op = some (reg, n))
    (hkind : s.transport.kind = .bitBanged) :
    hostExec op s = handBack (receiveAnswer op) (bitBangedReceive reg n s) := by
  rw [hostExec_of_receiveForm h, receiveVia, if_pos hopen, hkind]

theorem hostExec_receive_hardware {n : Nat} (h : receiveForm op = some (reg, n))
    (hkind : s.transport.kind = .hardware) :
    hostExec op s = handBack (receiveAnswer op) (hardwareReceiveOf op reg n s) := by
  rw [hostExec_of_receiveForm h, receiveVia, if_pos hopen, hkind]

end

/-! ### The obligation -/

theorem hostExec_initialise_of_open {s : State} (h : s.transport.isOpen = true) :
    hostExec .initialise s = .next { s with result := some (.bool true) } := by
  rw [hostExec, initializeTransport, if_pos h, handBack]

/-- A closed transport is open afterwards exactly when the environment says yes (43_transport.md R112). -/
theorem hostExec_initialise_of_closed {s : State} {ok : Bool} {rest : List (Option Bool)}
    (h : s.transport.isOpen = false) (hask : s.env.openDevice = some ok :: rest) :
    hostExec .initialise s = .next { s with
      transport := { s.transport with isOpen := ok }, env := { s.env with openDevice := rest }
      result := some (.bool ok) } := by
  rw [hostExec, initializeTransport, if_neg (ne_true_of_eq_false h)]
  simp only [askOpenDevice, hask, nextAnswer, handBack]
  cases ok with
  | true => rfl
  | false =>
    have hsame : s.transport = { s.transport with isOpen := false } := by rw [← h]
    rw [← hsame]
    rfl

theorem hostExec_initialise_silent {s : State} {rest : List (Option Bool)} (h : s.transport.isOpen = false)
    (hask : s.env.openDevice = none :: rest) : hostExec .initialise s = .fault .environmentSilent := by
  rw [hostExec, initializeTransport, if_neg (ne_true_of_eq_false h)]
  simp only [askOpenDevice, hask, nextAnswer, handBack]

/-- Settles O30: the opening goes by the state of the handle, and every transfer is one `sendVia` or `receiveVia`, which
a closed transport refuses. -/
theorem transportOpensCloses : Obligations.TransportOpensCloses := by
  refine fun s => ⟨hostExec_initialise_of_open, fun ok rest h hask => hostExec_initialise_of_closed h hask,
    fun rest h hask => hostExec_initialise_silent h hask, rfl, fun op h => ⟨fun hop => ?_, fun hop => ?_⟩⟩
  · obtain ⟨⟨reg, d⟩, hform⟩ := Option.isSome_iff_exists.1 hop
    rw [hostExec_of_sendForm hform, sendVia_of_closed d _ h, handBack]
  · obtain ⟨⟨reg, n⟩, hform⟩ := Option.isSome_iff_exists.1 hop
    rw [hostExec_of_receiveForm hform, receiveVia_of_closed n _ h, handBack]

end Sys2Proof.Machine
end

section
/-! PROOFS. O31 and O34: the stream `Build` leaves in `CMD`, and what a bit-banged transfer answers for each end of its
execution (43_transport.md R115 to R118; 60_exceptions.md R154). -/

namespace Sys2Proof.Machine

/-! ### `Build` (43_transport.md R115, R116) -/

/-- The state with the stream as the whole contents of a fresh `CMD`. -/
def loaded (stream : List Byte) (s : State) : State :=
  { s with cmd := { s.cmd with store := Memory.writeList [] 0 stream, rd := 0, wr := stream.length } }

theorem unread_loaded (stream : List Byte) (s : State) : (loaded stream s).cmd.unread = stream :=
  Memory.readList_writeList stream [] 0 Memory.nil_wf

theorem appended_clear (stream : List Byte) (s : State) :
    appended stream { s with cmd := s.cmd.clear } = loaded stream s := by
  simp [appended, loaded, ByteBuffer.clear]

theorem build_of_fits {reg : Option Byte} {body : Body} {s : State} (hlen : bodyLength body ≤ 65535)
    (hfit : (opStream s.transport.addr7 reg body).length ≤ s.cmd.cap) :
    build reg body s = .done () (loaded (opStream s.transport.addr7 reg body) s) := by
  rw [← appended_clear]
  exact (build_appends reg body s.transport.addr7 hlen { s with cmd := s.cmd.clear } (Nat.zero_le _)).1 hfit

/-- Settles O31 by `build_appends` on the cleared `CMD`. -/
theorem buildProducesTheTableStream : Obligations.BuildProducesTheTableStream := by
  rintro s reg body stream hlen rfl
  refine ⟨fun hfit => ⟨_, build_of_fits hlen hfit, rfl, rfl, unread_loaded _ s⟩, fun hover => ?_⟩
  exact (build_appends reg body s.transport.addr7 hlen { s with cmd := s.cmd.clear } (Nat.zero_le _)).2 hover

/-! ### The end of the execution (43_transport.md R117, R118) -/

section

variable {q : Status} {t u : State} {k : Nat}

theorem runTransaction_of_completed (hx : execute t = .next u) (hr : u.run = .completed k) :
    runTransaction q t = .done k u := by
  simp only [runTransaction, hx, hr]

theorem runTransaction_of_failed {reason : Reason} (hx : execute t = .next u) (hr : u.run = .failed reason k) :
    runTransaction q t = .failed q u := by
  simp only [runTransaction, hx, hr]

theorem runTransaction_of_fault {f : Fault} (hx : execute t = .fault f) : runTransaction q t = .fault f := by
  simp only [runTransaction, hx]

/-- A count below the one asked is set as the write length, and no byte is handed back (43_transport.md R118). -/
theorem takeReceived_of_short {n : Nat} (hk : k < n) (hcap : k ≤ u.rsp.cap) :
    takeReceived n k u = .failed .receivedLessThanExpected { u with rsp := { u.rsp with wr := k } } := by
  simp only [takeReceived, ByteBuffer.setWriteLength, if_neg (not_lt.2 hcap), if_pos hk]

/-- Of a count that is not below the one asked, the first `n` bytes are handed back (43_transport.md R118). -/
theorem takeReceived_of_enough {n : Nat} (hk : n ≤ k) (hcap : k ≤ u.rsp.cap) (hrd : u.rsp.rd = 0) :
    takeReceived n k u =
      .done (Memory.readList u.rsp.store 0 n) { u with rsp := { u.rsp with rd := n, wr := k } } := by
  simp only [takeReceived, ByteBuffer.setWriteLength, if_neg (not_lt.2 hcap), if_neg (not_lt.2 hk), ByteBuffer.read,
    ByteBuffer.readRemaining, hrd, Nat.sub_zero, Nat.zero_add]

end

/-- What a bit-banged send does after its `Build`. -/
theorem bitBangedSend_of_build {reg : Option Byte} {d : List Byte} {s t : State}
    (hb : build reg (.send d) s = .done () t) :
    bitBangedSend reg d s = (runTransaction .sendFail t).bind fun _ u => .done () u := by
  rw [bitBangedSend, hb, bind_done]

/-- What a bit-banged receive does after its `Build`. -/
theorem bitBangedReceive_of_build {reg : Option Byte} {n : Nat} {s t : State}
    (hb : build reg (.receive n) s = .done () t) :
    bitBangedReceive reg n s = (runTransaction .receiveFail t).bind fun k u => takeReceived n k u := by
  rw [bitBangedReceive, hb, bind_done]

/-- Settles O34: the operation is a bit-banged transfer, which ends with its `Build`, with its execution
(`runTransaction_of_failed`, `runTransaction_of_fault`) or with the count check (`takeReceived_of_short`). -/
theorem bitBangedFailuresReturnTheirStatus : Obligations.BitBangedFailuresReturnTheirStatus := by
  intro s t u op reg hopen hkind
  refine ⟨fun d st hop hb => ?_, fun n st hop hb => ?_, fun d reason k hop hb hx hr => ?_,
    fun n reason k hop hb hx hr => ?_, fun n k hop hb hx hr hk hcap => ?_, ?_⟩
  · rw [hostExec_send_bitBanged hopen hop hkind, bitBangedSend, hb, bind_failed, handBack]
  · rw [hostExec_receive_bitBanged hopen hop hkind, bitBangedReceive, hb, bind_failed, handBack]
  · rw [hostExec_send_bitBanged hopen hop hkind, bitBangedSend_of_build hb, runTransaction_of_failed hx hr, bind_failed,
      handBack]
  · rw [hostExec_receive_bitBanged hopen hop hkind, bitBangedReceive_of_build hb, runTransaction_of_failed hx hr,
      bind_failed, handBack]
  · rw [hostExec_receive_bitBanged hopen hop hkind, bitBangedReceive_of_build hb, runTransaction_of_completed hx hr,
      bind_done, takeReceived_of_short hk hcap, handBack]
  · rintro body f (⟨d, hop, rfl⟩ | ⟨n, hop, rfl⟩) hb hx
    · rw [hostExec_send_bitBanged hopen hop hkind, bitBangedSend_of_build hb, runTransaction_of_fault hx, bind_fault,
        handBack]
    · rw [hostExec_receive_bitBanged hopen hop hkind, bitBangedReceive_of_build hb, runTransaction_of_fault hx,
        bind_fault, handBack]

end Sys2Proof.Machine
end

section
/-! PROOFS. O32 and O33: the execution of a bit-banged stream whose events are granted, command by command
(42_sequencer.md R94 to R106; 43_transport.md R115 to R118). -/

namespace Sys2Proof.Machine

/-! ### The stream as commands (43_transport.md R116) -/

/-- The command that moves the bytes of a body. -/
def bodyCommand : Body → Instr
  | .send d => if d.length ≤ 255 then .write d else .escWrite d
  | .receive n => if n ≤ 255 then .read (BitVec.ofNat 8 n) else .escRead (BitVec.ofNat 16 n)

/-- The command that sends the register byte, if there is one. -/
def regCommands : Option Byte → List Instr
  | none => []
  | some r => [.write [r]]

/-- The commands of a logical operation, up to its STOP. -/
def opCommands (a : Addr7) (reg : Option Byte) (body : Body) : List Instr :=
  .addr (a.setWidth 8) :: (regCommands reg ++ [.start]) ++ [bodyCommand body, .stop]

theorem encode_bodyCommand {body : Body} (h : bodyLength body ≤ 65535) :
    encode (bodyCommand body) = bodyStream body := by
  cases body with
  | send d =>
    simp only [bodyCommand, bodyStream]
    split
    · rfl
    · simp only [encode, lo8_ofNat, hi8_ofNat d.length h]
  | receive n =>
    simp only [bodyCommand, bodyStream]
    split
    · rfl
    · simp only [encode, lo8_ofNat, hi8_ofNat n h]

theorem bodyCommand_wf {body : Body} (h : bodyLength body ≤ 65535) : (bodyCommand body).wf = true := by
  cases body with
  | send d =>
    simp only [bodyCommand]
    split
    · next hshort => exact decide_eq_true hshort
    · exact decide_eq_true h
  | receive n =>
    simp only [bodyCommand]
    split <;> rfl

theorem opCommands_wf (a : Addr7) (reg : Option Byte) {body : Body} (h : bodyLength body ≤ 65535) :
    ∀ i ∈ opCommands a reg body, i.wf = true := by
  have hreg : ∀ i ∈ regCommands reg, i.wf = true := by cases reg <;> simp [regCommands, Instr.wf, Config.escThreshold]
  simp only [opCommands, List.forall_mem_append, List.forall_mem_cons, List.cons_append]
  exact ⟨rfl, ⟨hreg, rfl, nofun⟩, bodyCommand_wf h, rfl, nofun⟩

/-- The stream of R116 is the encoding of its commands and END. -/
theorem opStream_eq_encode (a : Addr7) (reg : Option Byte) {body : Body} (h : bodyLength body ≤ 65535) :
    opStream a reg body = (opCommands a reg body).flatMap encode ++ encode .endCmd := by
  have hreg : (regCommands reg).flatMap encode = regStream reg := by cases reg <;> rfl
  rw [opStream, ← hreg, ← encode_bodyCommand h]
  simp only [opCommands, List.flatMap_cons, List.flatMap_append, List.flatMap_nil, List.append_assoc, List.cons_append,
    List.append_nil, List.nil_append]
  rfl

/-! ### Commands that let the execution go on (42_sequencer.md R94) -/

/-- The commands, run one after the other from the first state, let the execution go on and leave the second. -/
inductive Passes : List Instr → State → State → Prop
  | nil (s : State) : Passes [] s s
  | cons {i : Instr} {is : List Instr} {s u t : State} (hexec : exec i (advance i.length s) = .next u)
      (hrun : u.run = .running) (hrest : Passes is u t) : Passes (i :: is) s t

theorem Passes.one {i : Instr} {s u : State} (hexec : exec i (advance i.length s) = .next u)
    (hrun : u.run = .running) : Passes [i] s u :=
  .cons hexec hrun (.nil u)

theorem Passes.append {is js : List Instr} {s t u : State} (h1 : Passes is s t) (h2 : Passes js t u) :
    Passes (is ++ js) s u := by
  induction h1 with
  | nil => exact h2
  | cons hexec hrun _ ih => exact .cons hexec hrun (ih h2)

/-- A step runs the command whose encoding is at the stream position, past that encoding. -/
theorem stepCommand_of_encode {i : Instr} {tail : List Byte} {s : State} (hwf : i.wf = true)
    (h : s.cmd.unread = encode i ++ tail) : stepCommand s = exec i (advance i.length s) :=
  stepCommand_of_ok (h ▸ decodeOfEncodeIsTheCommand i tail hwf)

theorem unread_advance_encode {i : Instr} {tail : List Byte} {s : State} (h : s.cmd.unread = encode i ++ tail) :
    (advance i.length s).cmd.unread = tail := by
  have hlen : s.cmd.readRemaining = i.length + tail.length := by
    rw [← unread_length, h, List.length_append, encode_length]
  have hrest : (advance i.length s).cmd.readRemaining = tail.length := by
    simp only [ByteBuffer.readRemaining, advance_cmd] at hlen ⊢
    omega
  rw [ByteBuffer.unread, hlen, Memory.readList_append] at h
  rw [ByteBuffer.unread, hrest]
  exact (List.append_inj h (by rw [Memory.readList_length, encode_length])).2

theorem unread_of_exec {i : Instr} {s t : State} (h : exec i s = .next t) : t.cmd.unread = s.cmd.unread := by
  rw [(exec_effect i s t h).buffers.1]

/-- The main loop runs the commands whose encodings are at the stream position. -/
theorem Passes.runCommands_eq {is : List Instr} {s t : State} (h : Passes is s t) (hwf : ∀ i ∈ is, i.wf = true)
    {tail : List Byte} (hs : s.cmd.unread = is.flatMap encode ++ tail) (fuel : Nat) :
    runCommands (fuel + is.length) s = runCommands fuel t ∧ t.cmd.unread = tail := by
  induction h with
  | nil => exact ⟨rfl, hs⟩
  | cons hexec hrun _ ih =>
    rw [List.flatMap_cons, List.append_assoc] at hs
    have hstep := stepCommand_of_encode (hwf _ List.mem_cons_self) hs
    obtain ⟨hloop, htail⟩ := ih (fun i hi => hwf i (List.mem_cons_of_mem _ hi))
      ((unread_of_exec hexec).trans (unread_advance_encode hs))
    rw [List.length_cons, ← Nat.add_assoc, runCommands, hstep, hexec]
    simp only [hrun, if_true]
    exact ⟨hloop, htail⟩

theorem runCommands_of_ended {fuel : Nat} {s t : State} (h : stepCommand s = .next t) (hr : t.run ≠ .running) :
    runCommands (fuel + 1) s = .next t := by
  simp only [runCommands, h, if_neg hr]

/-- Every command has a byte at least (42_sequencer.md R108). -/
theorem length_le_encoding {is : List Instr} (hwf : ∀ i ∈ is, i.wf = true) :
    is.length ≤ (is.flatMap encode).length := by
  induction is with
  | nil => exact Nat.zero_le _
  | cons i is ih =>
    have hpos := (decode_length (decodeOfEncodeIsTheCommand i [] (hwf i List.mem_cons_self))).1
    have hrest := ih fun j hj => hwf j (List.mem_cons_of_mem _ hj)
    rw [List.flatMap_cons, List.length_append, List.length_cons, encode_length]
    omega

/-! ### An execution in progress whose events were granted -/

/-- The state in the middle of an execution begun in `s`: the target, the stream position, the bus position, the events
so far, the answers left and the bytes received so far. -/
def midway (s : State) (a : Addr7) (pos : Nat) (ph : Phase) (es : List BusEvent) (left : List (Option BusReply))
    (data : List Byte) : State :=
  { s with
    cmd := { s.cmd with rd := pos }
    rsp := { s.rsp with store := Memory.writeList s.rsp.store 0 data, rd := 0, wr := data.length }
    phase := ph
    addr := some a
    run := .running
    trace := es
    env := { s.env with bus := left } }

/-- The events of a body (43_transport.md R117, R118; 42_sequencer.md R106). -/
def bodyEvents (a : Addr7) : Body → List BusEvent
  | .send d => if d.length = 0 then [] else .tx (addrByte a false) :: d.map .tx
  | .receive n => if n = 0 then [] else .tx (addrByte a true) :: rxEvents n

section

variable {s : State} {a : Addr7} {pos : Nat} {ph : Phase} {es : List BusEvent} {left : List (Option BusReply)}
  {rs : List BusReply}

theorem passes_addr :
    Passes [.addr (a.setWidth 8)] (beginExecution s) (midway s a 2 .idle [] s.env.bus []) :=
  .one (exec_addr_of_sevenBit a _) rfl

theorem passes_start {ack : Bool} {v : Byte} {data : List Byte} :
    Passes [.start] (midway s a pos ph es (some (.answer ack v) :: left) data)
      (midway s a (pos + 1) .started (es ++ [if ph = .idle then .start else .restart]) left data) :=
  .one (execStart_of_reply (s := midway s a (pos + 1) ph es _ data) rfl) rfl

theorem passes_stop {ack : Bool} {v : Byte} {data : List Byte} (hp : ph ≠ .idle) :
    Passes [.stop] (midway s a pos ph es (some (.answer ack v) :: left) data)
      (midway s a (pos + 1) .idle (es ++ [.stop]) left data) :=
  .one (execStop_of_open (s := midway s a (pos + 1) ph es _ data) hp rfl) rfl

theorem writePayload_midway {d : List Byte} {data : List Byte} (hd : d ≠ [])
    (hg : grants (writeEvents ph a d) rs = true) :
    writePayload d (midway s a pos ph es (rs.map some ++ left) data) =
      .next (midway s a pos .writing (es ++ writeEvents ph a d) left data) :=
  writePayload_played (s := midway s a pos ph es (rs.map some ++ left) data) hd rfl hg rfl

theorem passes_write {d : List Byte} {data : List Byte} (hd : d ≠ []) (hg : grants (writeEvents ph a d) rs = true) :
    Passes [.write d] (midway s a pos ph es (rs.map some ++ left) data)
      (midway s a (pos + (Instr.write d).length) .writing (es ++ writeEvents ph a d) left data) :=
  .one (writePayload_midway hd hg) rfl

theorem readInto_midway {n : Nat} (hn : 0 < n) (hroom : n ≤ s.rsp.cap) (hg : grants (readEvents ph a n) rs = true) :
    readInto n (midway s a pos ph es (rs.map some ++ left) []) =
      .next (midway s a pos .readDone (es ++ readEvents ph a n) left (received (readEvents ph a n) rs)) := by
  rw [readInto_played (s := midway s a pos ph es (rs.map some ++ left) []) hn hroom rfl hg rfl]
  simp [stored, played, midway, Memory.writeList]

/-- The register-pointer phase and the START after it (43_transport.md R115). -/
theorem passes_pointer {reg : Option Byte} (hg : grants (pointerEvents a reg) rs = true) :
    ∃ pos', Passes (regCommands reg ++ [.start]) (midway s a pos .idle [] (rs.map some ++ left) [])
      (midway s a pos' .started (pointerEvents a reg) left []) := by
  cases reg with
  | none =>
    obtain ⟨ack, v, rs, rfl, -, hg⟩ := grants_cons hg
    obtain rfl := grants_nil hg
    exact ⟨_, passes_start⟩
  | some r =>
    obtain ⟨r1, r2, rfl, hg1, hg2, -⟩ := grants_append (es := writeEvents .idle a [r]) (es' := [.restart]) hg
    obtain ⟨ack, v, r2, rfl, -, hg2⟩ := grants_cons hg2
    obtain rfl := grants_nil hg2
    rw [List.map_append, List.append_assoc]
    exact ⟨_, (passes_write (List.cons_ne_nil r []) hg1).append passes_start⟩

/-- The payload of a send or of no bytes at all, after the START. -/
theorem passes_send {i : Instr} {d : List Byte} (hi : i = .write d ∨ i = .escWrite d)
    (hg : grants (bodyEvents a (.send d)) rs = true) :
    ∃ ph, ph ≠ .idle ∧ Passes [i] (midway s a pos .started es (rs.map some ++ left) [])
      (midway s a (pos + i.length) ph (es ++ bodyEvents a (.send d)) left []) := by
  by_cases hd : d = []
  · subst hd
    obtain rfl := grants_nil hg
    refine ⟨.started, by decide, .one ?_ rfl⟩
    rw [exec_of_write hi, bodyEvents, List.length_nil, if_pos rfl, List.append_nil]
    rfl
  · rw [bodyEvents, if_neg (mt List.length_eq_zero_iff.1 hd)] at hg ⊢
    refine ⟨.writing, by decide, .one ?_ rfl⟩
    rw [exec_of_write hi]
    exact writePayload_midway (ph := .started) hd hg

/-- The bytes of a receive, or none at all, after the START. -/
theorem passes_receive {i : Instr} {n : Nat}
    (hi : i = .read (BitVec.ofNat 8 n) ∧ n ≤ 255 ∨ i = .escRead (BitVec.ofNat 16 n) ∧ n ≤ 65535)
    (hroom : n ≤ s.rsp.cap) (hg : grants (bodyEvents a (.receive n)) rs = true) :
    ∃ ph, ph ≠ .idle ∧ Passes [i] (midway s a pos .started es (rs.map some ++ left) [])
      (midway s a (pos + i.length) ph (es ++ bodyEvents a (.receive n)) left
        (received (bodyEvents a (.receive n)) rs)) := by
  by_cases hn : n = 0
  · subst hn
    obtain rfl := grants_nil hg
    refine ⟨.started, by decide, .one ?_ rfl⟩
    rw [exec_of_read hi, bodyEvents, if_pos rfl, List.append_nil]
    rfl
  · rw [bodyEvents, if_neg hn] at hg ⊢
    refine ⟨.readDone, by decide, .one ?_ rfl⟩
    rw [exec_of_read hi]
    exact readInto_midway (ph := .started) (Nat.pos_of_ne_zero hn) hroom hg

/-- The body's command after the START: its events, and the bytes that come in. -/
theorem passes_body {body : Body} (hlen : bodyLength body ≤ 65535) (hroom : ∀ n, body = .receive n → n ≤ s.rsp.cap)
    (hg : grants (bodyEvents a body) rs = true) :
    ∃ pos' ph, ph ≠ .idle ∧ Passes [bodyCommand body] (midway s a pos .started es (rs.map some ++ left) [])
      (midway s a pos' ph (es ++ bodyEvents a body) left (received (bodyEvents a body) rs)) := by
  cases body with
  | send d =>
    have hi : bodyCommand (.send d) = .write d ∨ bodyCommand (.send d) = .escWrite d := by
      simp only [bodyCommand]
      split <;> simp
    have hnone : received (bodyEvents a (.send d)) rs = [] := received_of_no_rx rs fun ack => by
      simp only [bodyEvents]
      split <;> simp
    rw [hnone]
    exact ⟨_, passes_send hi hg⟩
  | receive n =>
    refine ⟨_, passes_receive ?_ (hroom n rfl) hg⟩
    simp only [bodyCommand]
    split
    · next hshort => exact .inl ⟨rfl, hshort⟩
    · exact .inr ⟨rfl, hlen⟩

end

/-! ### The whole execution -/

/-- The trace of a bit-banged operation: `bitBangedSendEvents` of a send, `bitBangedReceiveEvents` of a receive. -/
def bitBangedEvents (a : Addr7) (reg : Option Byte) (body : Body) : List BusEvent :=
  pointerEvents a reg ++ bodyEvents a body ++ [.stop]

section

variable {s : State} {a : Addr7} {reg : Option Byte} {body : Body} {rs : List BusReply}
  {rest : List (Option BusReply)}

/-- The commands of an operation up to its STOP emit its trace and store the bytes that come in. -/
theorem passes_opCommands (hlen : bodyLength body ≤ 65535) (hroom : ∀ n, body = .receive n → n ≤ s.rsp.cap)
    (hg : grants (bitBangedEvents a reg body) rs = true) (hb : s.env.bus = rs.map some ++ rest) :
    ∃ pos, Passes (opCommands a reg body) (beginExecution s)
      (midway s a pos .idle (bitBangedEvents a reg body) rest (received (bitBangedEvents a reg body) rs)) := by
  have hpointer (r : List BusReply) : received (pointerEvents a reg) r = [] :=
    received_of_no_rx r fun ack => by cases reg <;> simp [pointerEvents]
  obtain ⟨r12, r3, rfl, hg12, hg3, hrec⟩ := grants_append hg
  obtain ⟨r1, r2, rfl, hg1, hg2, hrec12⟩ := grants_append hg12
  obtain ⟨ack, v, r3, rfl, -, hg3⟩ := grants_cons hg3
  obtain rfl := grants_nil hg3
  obtain ⟨pos1, h1⟩ := passes_pointer (s := s) (pos := 2)
    (left := r2.map some ++ some (.answer ack v) :: rest) hg1
  obtain ⟨pos2, ph, hp, h2⟩ := passes_body (s := s) (pos := pos1) (es := pointerEvents a reg)
    (left := some (.answer ack v) :: rest) hlen hroom hg2
  have hdata : received (bitBangedEvents a reg body) (r1 ++ r2 ++ [.answer ack v]) =
      received (bodyEvents a body) r2 := by
    rw [bitBangedEvents, hrec, hrec12, hpointer, received_of_no_rx (es := [.stop]) _ (by simp), List.nil_append,
      List.append_nil]
  have hbus : s.env.bus = r1.map some ++ (r2.map some ++ some (.answer ack v) :: rest) := by simp [hb]
  rw [hdata]
  exact ⟨_, ((passes_addr.append (hbus ▸ h1)).append (h2.append (passes_stop hp)))⟩

/-- Under Reference the stream of a granted operation completes with the bytes that came in (42_sequencer.md R92 to
R96). -/
theorem execute_of_granted (hlen : bodyLength body ≤ 65535) (hroom : ∀ n, body = .receive n → n ≤ s.rsp.cap)
    (href : s.params.executor = .reference) (hg : grants (bitBangedEvents a reg body) rs = true)
    (hb : s.env.bus = rs.map some ++ rest) :
    ∃ pos, execute (loaded (opStream a reg body) s) = .next
      { midway (loaded (opStream a reg body) s) a pos .idle (bitBangedEvents a reg body) rest
          (received (bitBangedEvents a reg body) rs) with
        run := .completed (received (bitBangedEvents a reg body) rs).length } := by
  have hwf := opCommands_wf a reg hlen
  have hstream := opStream_eq_encode a reg hlen
  obtain ⟨k, hk⟩ := Nat.exists_eq_add_of_le (length_le_encoding hwf)
  obtain ⟨pos, hpass⟩ := passes_opCommands (s := loaded (opStream a reg body) s) hlen hroom hg hb
  obtain ⟨hloop, htail⟩ := hpass.runCommands_eq hwf ((unread_loaded _ s).trans hstream) (k + 1 + 1)
  have hfuel : (loaded (opStream a reg body) s).cmd.wr + 1 = k + 1 + 1 + (opCommands a reg body).length := by
    simp only [loaded, hstream, List.length_append, hk, encode, List.length_singleton]
    omega
  refine ⟨pos + 1, ?_⟩
  simp only [execute, show (loaded (opStream a reg body) s).params.executor = .reference from href, executeReference]
  rw [hfuel, hloop]
  exact runCommands_of_ended (stepCommand_of_encode (tail := []) rfl (by simpa using htail)) RunState.noConfusion

end

/-! ### How many bytes come in -/

/-- The event clocks in a byte. -/
def isRx : BusEvent → Bool
  | .rx _ => true
  | .start | .restart | .stop | .tx _ => false

/-- Granted events bring one byte for each `RX`. -/
theorem received_length {es : List BusEvent} {rs : List BusReply} (hg : grants es rs = true) :
    (received es rs).length = es.countP isRx := by
  induction es generalizing rs with
  | nil => rfl
  | cons e es ih =>
    obtain ⟨ack, v, rs, rfl, -, hgs⟩ := grants_cons hg
    cases e <;> simp [received, isRx, List.countP_cons, ih hgs]

theorem countP_isRx_rxEvents (n : Nat) : (rxEvents n).countP isRx = n := by
  induction n with
  | zero => rfl
  | succ n ih => simp [rxEvents, isRx, List.countP_cons, ih]

theorem countP_isRx_pointerEvents (a : Addr7) (reg : Option Byte) : (pointerEvents a reg).countP isRx = 0 := by
  cases reg <;> rfl

theorem countP_isRx_bitBangedSend (a : Addr7) (reg : Option Byte) (d : List Byte) :
    (bitBangedSendEvents a reg d).countP isRx = 0 := by
  rw [bitBangedSendEvents, List.countP_append, List.countP_append, countP_isRx_pointerEvents]
  split <;> simp [isRx]

theorem countP_isRx_bitBangedReceive (a : Addr7) (reg : Option Byte) (n : Nat) :
    (bitBangedReceiveEvents a reg n).countP isRx = n := by
  rw [bitBangedReceiveEvents, List.countP_append, List.countP_append, countP_isRx_pointerEvents]
  split
  · next hn => simp [isRx, hn]
  · simp [isRx, countP_isRx_rxEvents]

/-! ### The obligations -/

/-- A send whose execution completes answers `Ok`, under either executor (43_transport.md R117). -/
theorem hostExec_send_completed {s t u : State} {op : HostOp} {reg : Option Byte} {d : List Byte} {k : Nat}
    (hop : sendForm op = some (reg, d)) (hopen : s.transport.isOpen = true) (hkind : s.transport.kind = .bitBanged)
    (hb : build reg (.send d) s = .done () t) (hx : execute t = .next u) (hr : u.run = .completed k) :
    hostExec op s = .next { u with result := some (.status .ok) } := by
  rw [hostExec_send_bitBanged hopen hop hkind, bitBangedSend_of_build hb, runTransaction_of_completed hx hr, bind_done,
    handBack, okStatus]

/-- A receive whose execution completes with enough bytes answers the first ones of `RSP`, under either executor
(43_transport.md R118). -/
theorem hostExec_receive_completed {s t u : State} {op : HostOp} {reg : Option Byte} {n k : Nat}
    (hop : receiveForm op = some (reg, n)) (hopen : s.transport.isOpen = true)
    (hkind : s.transport.kind = .bitBanged) (hb : build reg (.receive n) s = .done () t) (hx : execute t = .next u)
    (hr : u.run = .completed k) (hk : n ≤ k) (hcap : k ≤ u.rsp.cap) :
    hostExec op s = .next { u with
      rsp := { u.rsp with rd := n, wr := k }
      result := some (receiveAnswer op (Memory.readList u.rsp.store 0 n)) } := by
  rw [hostExec_receive_bitBanged hopen hop hkind, bitBangedReceive_of_build hb, runTransaction_of_completed hx hr,
    bind_done, takeReceived_of_enough hk hcap (execute_rsp_rd hx), handBack]

/-- Settles O32: `Build` fits, its stream completes with no byte received (`execute_of_granted`), and a completed send
answers `Ok`. -/
theorem bitBangedSendEmitsItsTrace : Obligations.BitBangedSendEmitsItsTrace := by
  intro s op reg d hop hopen hkind
  refine ⟨?_, fun t u k hb hx hr => hostExec_send_completed hop hopen hkind hb hx hr⟩
  rintro replies rest es hlen href hfit rfl hg hb
  have hcount := (received_length hg).trans (countP_isRx_bitBangedSend s.transport.addr7 reg d)
  obtain ⟨pos, hx⟩ := execute_of_granted (body := .send d) hlen nofun href hg hb
  exact ⟨_, hostExec_send_completed hop hopen hkind (build_of_fits hlen hfit) hx rfl, rfl, rfl, rfl,
    congrArg RunState.completed hcount, rfl, rfl, rfl⟩

/-- Settles O33: `Build` fits, its stream completes with `n` bytes (`execute_of_granted`), and these are the first `n`
of `RSP`. -/
theorem bitBangedReceiveReturnsTheBytes : Obligations.BitBangedReceiveReturnsTheBytes := by
  intro s op reg n hop hopen hkind
  refine ⟨?_, fun t u k hb hx hr hk hcap => hostExec_receive_completed hop hopen hkind hb hx hr hk hcap⟩
  rintro replies rest es hlen hcap hwf href hfit rfl hg hb
  have hcount := (received_length hg).trans (countP_isRx_bitBangedReceive s.transport.addr7 reg n)
  have hdata := Memory.readList_writeList (received (bitBangedReceiveEvents s.transport.addr7 reg n) replies) _ 0 hwf
  rw [hcount] at hdata
  obtain ⟨pos, hx⟩ := execute_of_granted (body := .receive n) hlen (fun m hm => by cases hm; exact hcap) href hg hb
  exact ⟨_, hostExec_receive_completed hop hopen hkind (build_of_fits hlen hfit) hx rfl hcount.ge
    (hcount.trans_le hcap), congrArg (some ∘ receiveAnswer op) hdata, rfl, rfl, congrArg RunState.completed hcount, rfl,
    rfl⟩

end Sys2Proof.Machine
end

section
/-! PROOFS. O35, O36 and O37: hardware transfers whose events are granted, and what the counts of a block receive say
(43_transport.md R119 to R122). -/

namespace Sys2Proof.Machine

/-! ### One primitive, and a send -/

section

variable {s : State} {reg : Option Byte} {rs : List BusReply} {rest : List (Option BusReply)}

theorem hardwareReceive_played {n : Nat} (hg : grants (readFrameEvents s.transport.addr7 reg n) rs = true)
    (hb : s.env.bus = rs.map some ++ rest) :
    hardwareReceive reg n s = .done (received (readFrameEvents s.transport.addr7 reg n) rs)
      (played (readFrameEvents s.transport.addr7 reg n) rest s) := by
  rw [hardwareReceive, readFrame_played reg n s rs rest hg hb, Res.mapError]

/-- A granted send emits its frame, or its chunks' frames (43_transport.md R120, R121). -/
theorem hardwareSendOf_played {d : List Byte} (hg : grants (hardwareSendEvents s.transport.addr7 reg d) rs = true)
    (hb : s.env.bus = rs.map some ++ rest) :
    hardwareSendOf reg d s = .done () (played (hardwareSendEvents s.transport.addr7 reg d) rest s) := by
  cases reg with
  | none => exact hardwareSend_played d s rs rest hg hb
  | some r => exact sendChunks_played d.length r d s rs rest hg hb

end

/-- Settles O35 by `hardwareSendOf_played`. -/
theorem hardwareSendEmitsItsFrames : Obligations.HardwareSendEmitsItsFrames := by
  rintro s op reg d replies rest es hop hopen hkind rfl hg hb
  rw [hostExec_send_hardware hopen hop hkind, hardwareSendOf_played hg hb, handBack, okStatus]

/-- Settles O36 by `hardwareReceive_played`. -/
theorem hardwareReceiveEmitsItsFrame : Obligations.HardwareReceiveEmitsItsFrame := by
  rintro s op reg n replies rest es hop hone hopen hkind rfl hg hb
  rw [hostExec_receive_hardware hopen hop hkind, hardwareReceiveOf_of_not_block hone, hardwareReceive_played hg hb,
    handBack]

/-! ### The frames of a block receive (43_transport.md R121) -/

/-- The register of the chunk number `k` of a block, modulo 256. -/
def chunkReg (r : Byte) (k : Nat) : Byte := r + BitVec.ofNat 8 (32 * k)

theorem chunkReg_zero (r : Byte) : chunkReg r 0 = r := BitVec.add_zero r

theorem chunkReg_succ (r : Byte) (k : Nat) : chunkReg (r + 32#8) k = chunkReg r (k + 1) := by
  rw [chunkReg, chunkReg, Nat.mul_succ, BitVec.ofNat_add, BitVec.add_assoc, BitVec.add_comm (32#8)]

theorem receiveFrames_of_none (a : Addr7) (fuel : Nat) (r : Byte) : receiveFrames a fuel r 0 = [] := by
  cases fuel <;> rfl

theorem receiveFrames_succ (a : Addr7) (fuel : Nat) (r : Byte) {n : Nat} (hn : n ≠ 0) :
    receiveFrames a (fuel + 1) r n =
      readFrameEvents a (some r) (min 32 n) ++ receiveFrames a fuel (r + 32#8) (n - 32) :=
  if_neg hn

/-- The frames of a block are those of its first chunks and of the chunks after them. -/
theorem receiveFrames_add (a : Addr7) (k fuel : Nat) (r : Byte) (n : Nat) :
    receiveFrames a (k + fuel) r n =
      receiveFrames a k r n ++ receiveFrames a fuel (chunkReg r k) (n - 32 * k) := by
  induction k generalizing r n with
  | zero => rw [Nat.zero_add, chunkReg_zero]; rfl
  | succ k ih =>
    by_cases hn : n = 0
    · subst hn
      simp only [Nat.zero_sub, receiveFrames_of_none, List.append_nil]
    · rw [Nat.add_right_comm, receiveFrames_succ a _ r hn, receiveFrames_succ a k r hn, ih, chunkReg_succ,
        List.append_assoc, Nat.sub_sub, Nat.mul_succ, Nat.add_comm 32]

/-- The frames up to the chunk number `k`. -/
theorem receiveFrames_snoc (a : Addr7) {k n : Nat} (r : Byte) (hn : 32 * k < n) :
    receiveFrames a (k + 1) r n =
      receiveFrames a k r n ++ readFrameEvents a (some (chunkReg r k)) (min 32 (n - 32 * k)) := by
  rw [receiveFrames_add a k 1 r n, receiveFrames_succ a 0 _ (by omega), receiveFrames, List.append_nil]

/-- More rounds than there are chunks add no frame. -/
theorem receiveFrames_of_enough (a : Addr7) {k fuel n : Nat} (r : Byte) (hk : n ≤ 32 * k) (hf : k ≤ fuel) :
    receiveFrames a fuel r n = receiveFrames a k r n := by
  obtain ⟨f, rfl⟩ := Nat.exists_eq_add_of_le hf
  rw [receiveFrames_add, Nat.sub_eq_zero_of_le hk, receiveFrames_of_none, List.append_nil]

/-! ### The counts of a block receive (43_transport.md R122) -/

/-- The counts are those of the first chunks of `n` bytes, none of them short. -/
def WholeChunks : Nat → List Nat → Prop
  | _, [] => True
  | n, c :: counts => n ≠ 0 ∧ min 32 n ≤ c ∧ WholeChunks (n - 32) counts

/-- Counts of 32 and more are those of whole chunks while there are bytes. -/
theorem wholeChunks_of_full {n : Nat} {counts : List Nat} (hfull : ∀ c ∈ counts, 32 ≤ c)
    (hn : 32 * counts.length ≤ n) : WholeChunks n counts := by
  induction counts generalizing n with
  | nil => trivial
  | cons c counts ih =>
    rw [List.length_cons] at hn
    have hc : 32 ≤ c := hfull c List.mem_cons_self
    exact ⟨by omega, (Nat.min_le_left 32 n).trans hc, ih (fun x hx => hfull x (List.mem_cons_of_mem c hx)) (by omega)⟩

/-- One count for every chunk, none of them short. -/
theorem wholeChunks_of_all {n : Nat} {counts : List Nat} (hlen : counts.length = (n + 31) / 32)
    (hc : ∀ k, k < counts.length → min 32 (n - 32 * k) ≤ counts.getD k 0) : WholeChunks n counts := by
  induction counts generalizing n with
  | nil => trivial
  | cons c counts ih =>
    rw [List.length_cons] at hlen hc
    refine ⟨by omega, hc 0 (Nat.succ_pos _), ih (by omega) fun k hk => ?_⟩
    have hnext := hc (k + 1) (Nat.succ_lt_succ hk)
    rwa [List.getD_cons_succ, Nat.mul_succ, Nat.add_comm, ← Nat.sub_sub] at hnext

/-- The state after the events were emitted and answered and the counts were given. -/
def counted (es : List BusEvent) (left : List (Option BusReply)) (crest : List (Option Nat)) (s : State) : State :=
  { s with trace := s.trace ++ es, env := { s.env with bus := left, blockCounts := crest } }

theorem counted_counted (es es' : List BusEvent) (l l' : List (Option BusReply)) (c c' : List (Option Nat))
    (s : State) : counted es' l' c' (counted es l c s) = counted (es ++ es') l' c' s := by
  simp [counted]

theorem counted_nil (s : State) : counted [] s.env.bus s.env.blockCounts s = s := by
  simp [counted]

theorem receiveChunks_of_none (fuel : Nat) (r : Byte) (s : State) : receiveChunks fuel r 0 s = .done [] s := by
  cases fuel <;> rfl

theorem receiveChunks_succ (fuel : Nat) (r : Byte) {n : Nat} (hn : n ≠ 0) (s : State) :
    receiveChunks (fuel + 1) r n s = (blockRead r (min 32 n) s).bind fun data t =>
      (receiveChunks fuel (r + 32#8) (n - 32) t).bind fun rest u => .done (data ++ rest) u :=
  if_neg hn

/-- A block receive goes on after its first chunks when they are granted and none is short. -/
theorem receiveChunks_of_whole {n : Nat} {counts : List Nat} (hw : WholeChunks n counts) (fuel : Nat) (r : Byte)
    {s : State} {rs : List BusReply} {left : List (Option BusReply)} {crest : List (Option Nat)}
    (hg : grants (receiveFrames s.transport.addr7 counts.length r n) rs = true) (hb : s.env.bus = rs.map some ++ left)
    (hc : s.env.blockCounts = counts.map some ++ crest) :
    receiveChunks (counts.length + fuel) r n s =
      (receiveChunks fuel (chunkReg r counts.length) (n - 32 * counts.length)
        (counted (receiveFrames s.transport.addr7 counts.length r n) left crest s)).bind fun rest u =>
          .done (received (receiveFrames s.transport.addr7 counts.length r n) rs ++ rest) u := by
  induction counts generalizing n r s rs with
  | nil =>
    obtain rfl := grants_nil hg
    obtain rfl : s.env.bus = left := hb
    obtain rfl : s.env.blockCounts = crest := hc
    rw [List.length_nil, Nat.zero_add, chunkReg_zero, receiveFrames, counted_nil]
    exact (bind_done_right _).symm
  | cons c counts ih =>
    obtain ⟨hn, hle, hw⟩ := hw
    rw [List.length_cons, receiveFrames_succ _ _ r hn] at hg ⊢
    obtain ⟨r1, r2, rfl, hg1, hg2, hrec⟩ := grants_append hg
    have hread := blockRead_played r (min 32 n) c s r1 (r2.map some ++ left) (counts.map some ++ crest) hg1
      (by simpa using hb) hc hle
    have hrest := ih hw (r + 32#8)
      (s := counted (readFrameEvents s.transport.addr7 (some r) (min 32 n)) (r2.map some ++ left)
        (counts.map some ++ crest) s) hg2 rfl rfl
    rw [Nat.add_right_comm, receiveChunks_succ _ r hn, hread, bind_done]
    refine (congrArg (Res.bind · _) hrest).trans ?_
    simp only [bind_assoc, bind_done, counted_counted, hrec, List.append_assoc, chunkReg_succ, Nat.sub_sub,
      Nat.mul_succ, Nat.add_comm 32]
    rfl

/-! ### A block receive that stops -/

/-- A transfer that stopped: stuck, or failed after the events given, with the answers left. -/
def stopped {α : Type} (st : Status) (crest : List (Option Nat)) (s : State)
    (x : Option (List BusEvent × List (Option BusReply))) : Res Status α :=
  match x with
  | none => .fault .environmentSilent
  | some (es, left) => .failed st (counted es left crest s)

/-- The same end with events emitted before. -/
def after (pre : List BusEvent) (x : Option (List BusEvent × List (Option BusReply))) :
    Option (List BusEvent × List (Option BusReply)) :=
  x.map fun p => (pre ++ p.1, p.2)

theorem after_after (pre pre' : List BusEvent) (x : Option (List BusEvent × List (Option BusReply))) :
    after pre (after pre' x) = after (pre ++ pre') x := by
  cases x <;> simp [after]

theorem stopped_counted {α : Type} (st : Status) (es : List BusEvent) (l : List (Option BusReply))
    (c crest : List (Option Nat)) (s : State) (x : Option (List BusEvent × List (Option BusReply))) :
    (stopped st crest (counted es l c s) x : Res Status α) = stopped st crest s (after es x) := by
  cases x with
  | none => rfl
  | some p => simp only [stopped, counted_counted, after, Option.map_some]

theorem stopped_bind {α β : Type} (st : Status) (crest : List (Option Nat)) (s : State)
    (x : Option (List BusEvent × List (Option BusReply))) (f : α → State → Res Status β) :
    (stopped st crest s x).bind f = stopped st crest s x := by
  cases x <;> rfl

/-- A block receive stops with the chunk that stops, the first or a later one (43_transport.md R121). -/
theorem receiveChunks_stopped {n fuel : Nat} {counts : List Nat} (hw : WholeChunks n counts)
    (hn : 32 * counts.length < n) (hfuel : counts.length < fuel) (r : Byte) {s : State} {rs : List BusReply}
    {left : List (Option BusReply)} {crest crest' : List (Option Nat)} {st : Status}
    {x : Option (List BusEvent × List (Option BusReply))}
    (hg : grants (receiveFrames s.transport.addr7 counts.length r n) rs = true) (hb : s.env.bus = rs.map some ++ left)
    (hc : s.env.blockCounts = counts.map some ++ crest)
    (hchunk : blockRead (chunkReg r counts.length) (min 32 (n - 32 * counts.length))
        (counted (receiveFrames s.transport.addr7 counts.length r n) left crest s) =
      stopped st crest' (counted (receiveFrames s.transport.addr7 counts.length r n) left crest s) x) :
    receiveChunks fuel r n s =
      stopped st crest' s (after (receiveFrames s.transport.addr7 counts.length r n) x) := by
  obtain ⟨f, rfl⟩ : ∃ f, fuel = counts.length + (f + 1) := ⟨fuel - counts.length - 1, by omega⟩
  rw [receiveChunks_of_whole hw (f + 1) r hg hb hc, receiveChunks_succ _ _ (by omega), hchunk, stopped_bind,
    stopped_bind, stopped_counted]

/-- A granted chunk whose count is short, or never comes (43_transport.md R122; log 15). -/
theorem blockRead_of_short {r : Byte} {m : Nat} {s : State} {rs : List BusReply} {rest : List (Option BusReply)}
    {last : Option Nat} {crest : List (Option Nat)}
    (hg : grants (readFrameEvents s.transport.addr7 (some r) m) rs = true) (hb : s.env.bus = rs.map some ++ rest)
    (hc : s.env.blockCounts = last :: crest) (hlast : ∀ c, last = some c → c < m) :
    blockRead r m s = stopped .receivedLessThanExpected crest s
      (last.map fun _ => (readFrameEvents s.transport.addr7 (some r) m, rest)) := by
  rw [blockRead, hardwareReceive_played hg hb, bind_done]
  cases last with
  | none => simp only [askBlockCount, played_env, hc, nextAnswer, Option.map_none, stopped]
  | some c =>
    simp only [askBlockCount, played_env, hc, nextAnswer, if_pos (hlast c rfl), Option.map_some, stopped]
    rfl

/-- A granted block receive whose chunk after some whole ones has a short count, or one that never comes. -/
theorem receiveChunks_of_short {n : Nat} {full : List Nat} {last : Option Nat} {r : Byte} {s : State}
    {rs : List BusReply} {rest : List (Option BusReply)} {crest : List (Option Nat)} (hfull : ∀ c ∈ full, 32 ≤ c)
    (hn : 32 * full.length < n) (hlast : ∀ c, last = some c → c < min 32 (n - 32 * full.length))
    (hg : grants (receiveFrames s.transport.addr7 (full.length + 1) r n) rs = true)
    (hb : s.env.bus = rs.map some ++ rest) (hc : s.env.blockCounts = full.map some ++ last :: crest) :
    receiveChunks n r n s = stopped .receivedLessThanExpected crest s
      (last.map fun _ => (receiveFrames s.transport.addr7 (full.length + 1) r n, rest)) := by
  rw [receiveFrames_snoc _ r hn] at hg ⊢
  obtain ⟨r1, r2, rfl, hg1, hg2, -⟩ := grants_append hg
  rw [receiveChunks_stopped (wholeChunks_of_full hfull hn.le) hn (by omega) r hg1
    (by simpa using hb : s.env.bus = r1.map some ++ (r2.map some ++ rest)) hc (blockRead_of_short hg2 rfl rfl hlast),
    after, Option.map_map]
  rfl

/-- Settles O37: whole chunks by `receiveChunks_of_whole`, a short count or none by `receiveChunks_of_short`. -/
theorem hardwareBlockReceiveJoinsItsChunks : Obligations.HardwareBlockReceiveJoinsItsChunks := by
  intro s r n replies rest es counts crest hopen hkind hg hb hc
  rw [hostExec_receive_hardware (op := .receiveBlock r n) hopen rfl hkind, hardwareReceiveOf]
  refine ⟨?_, ?_, ?_⟩
  · rintro rfl hlen hcounts
    have hframes := receiveFrames_of_enough s.transport.addr7 (k := counts.length) (fuel := n) (n := n) r
      (by omega) (by omega)
    obtain ⟨f, hf⟩ := Nat.exists_eq_add_of_le (show counts.length ≤ n by omega)
    have hwhole := receiveChunks_of_whole (wholeChunks_of_all hlen hcounts) f r (hframes ▸ hg) hb hc
    rw [Nat.sub_eq_zero_of_le (by omega), receiveChunks_of_none, bind_done, List.append_nil, ← hframes, ← hf] at hwhole
    rw [hwhole, handBack]
    rfl
  · rintro full c rfl hfull hn hshort rfl
    rw [List.map_append, List.append_assoc] at hc
    rw [receiveChunks_of_short (last := some c) hfull hn (fun _ hx => by cases hx; exact hshort) hg hb hc]
    rfl
  · rintro left rfl hfull hn rfl
    rw [receiveChunks_of_short (last := none) hfull hn nofun hg hb hc]
    rfl

end Sys2Proof.Machine
end

section
/-! PROOFS. O38: a hardware transfer at the first of its events that is refused or never answered (43_transport.md R120
to R122; 00_scope.md R11). -/

namespace Sys2Proof.Machine

/-! ### A procedure as the list of its bus events -/

/-- With the transport at the address the procedure has these events, one after the other: it succeeds when all are
granted, fails with the first that is refused and is stuck at one that is never answered. -/
structure Plays {α : Type} (f : State → Res Reason α) (a : Addr7) (es : List BusEvent) : Prop where
  granted : ∀ {s : State} {rs : List BusReply} {left : List (Option BusReply)}, s.transport.addr7 = a →
    grants es rs = true → s.env.bus = rs.map some ++ left → ∃ v, f s = .done v (played es left s)
  refused : ∀ {s : State} {pre post : List BusEvent} {e : BusEvent} {rs : List BusReply} {r : BusReply} {q : Reason}
    {left : List (Option BusReply)}, s.transport.addr7 = a → es = pre ++ e :: post → grants pre rs = true →
    refusal e r = some q → s.env.bus = rs.map some ++ some r :: left → f s = .failed q (played (pre ++ [e]) left s)
  silent : ∀ {s : State} {pre post : List BusEvent} {e : BusEvent} {rs : List BusReply}
    {left : List (Option BusReply)}, s.transport.addr7 = a → es = pre ++ e :: post → grants pre rs = true →
    s.env.bus = rs.map some ++ none :: left → f s = .fault .environmentSilent

section

variable {α β : Type} {a : Addr7}

/-- One procedure after another has the events of both. -/
theorem Plays.bind {f : State → Res Reason α} {g : α → State → Res Reason β} {es es' : List BusEvent}
    (hf : Plays f a es) (hg : ∀ v, Plays (g v) a es') : Plays (fun s => (f s).bind g) a (es ++ es') where
  granted := by
    intro s rs left ha hgr hb
    obtain ⟨r1, r2, rfl, hg1, hg2, -⟩ := grants_append hgr
    obtain ⟨v, hfs⟩ := hf.granted (left := r2.map some ++ left) ha hg1 (by simpa using hb)
    obtain ⟨w, hgs⟩ := (hg v).granted (s := played es (r2.map some ++ left) s) ha hg2 rfl
    exact ⟨w, by rw [hfs, bind_done, hgs, played_played]⟩
  refused := by
    intro s pre post e rs r q left ha hes hgr hr hb
    rcases append_eq_split hes with ⟨p, hpre⟩ | ⟨p, rfl, hpost⟩
    · rw [hf.refused ha hpre hgr hr hb, bind_failed]
    · obtain ⟨r1, r2, rfl, hg1, hg2, -⟩ := grants_append hgr
      obtain ⟨v, hfs⟩ := hf.granted (left := r2.map some ++ some r :: left) ha hg1 (by simpa using hb)
      rw [hfs, bind_done, (hg v).refused (s := played es _ s) ha hpost hg2 hr rfl, played_played, List.append_assoc]
  silent := by
    intro s pre post e rs left ha hes hgr hb
    rcases append_eq_split hes with ⟨p, hpre⟩ | ⟨p, rfl, hpost⟩
    · rw [hf.silent ha hpre hgr hb, bind_fault]
    · obtain ⟨r1, r2, rfl, hg1, hg2, -⟩ := grants_append hgr
      obtain ⟨v, hfs⟩ := hf.granted (left := r2.map some ++ none :: left) ha hg1 (by simpa using hb)
      rw [hfs, bind_done, (hg v).silent (s := played es _ s) ha hpost hg2 rfl]

theorem Plays.congr {f g : State → Res Reason α} {es : List BusEvent} (hg : Plays g a es)
    (h : ∀ s, s.transport.addr7 = a → f s = g s) : Plays f a es where
  granted ha := h _ ha ▸ hg.granted ha
  refused ha := h _ ha ▸ hg.refused ha
  silent ha := h _ ha ▸ hg.silent ha

theorem plays_done (v : α) : Plays (.done v) a [] where
  granted := by
    rintro s rs left - hgr hb
    obtain rfl := grants_nil hgr
    obtain rfl : s.env.bus = left := hb
    exact ⟨v, by rw [played_nil]⟩
  refused _ hes := by simp at hes
  silent _ hes := by simp at hes

theorem plays_txAll (d : List Byte) : Plays (txAll d) a (d.map .tx) where
  granted _ hgr hb := ⟨(), txAll_played d _ _ _ hgr hb⟩
  refused _ hes hgr hr hb := txAll_refused d _ _ _ _ _ _ _ _ hes hgr hr hb
  silent _ hes hgr hb := txAll_silent d _ _ _ _ _ _ hes hgr hb

theorem plays_txByte (b : Byte) : Plays (txByte b) a [.tx b] :=
  (plays_txAll [b]).congr fun _ _ => (bind_done_right _).symm

theorem plays_rxAll (n : Nat) : Plays (rxAll n) a (rxEvents n) where
  granted _ hgr hb := ⟨_, rxAll_played n _ _ _ hgr hb⟩
  refused _ hes hgr hr hb := rxAll_refused n _ _ _ _ _ _ _ _ hes hgr hr hb
  silent _ hes hgr hb := rxAll_silent n _ _ _ _ _ _ hes hgr hb

theorem singleton_eq_split {e e' : BusEvent} {pre post : List BusEvent} (h : [e'] = pre ++ e :: post) :
    pre = [] ∧ e = e' := by
  cases pre with
  | nil => exact ⟨rfl, (List.cons.inj h).1.symm⟩
  | cons x pre => simp at h

theorem plays_signal {e : BusEvent} (he : ∀ b, e ≠ .tx b) : Plays (signal e) a [e] where
  granted := by
    rintro s rs left - hgr hb
    obtain ⟨ack, v, rs, rfl, -, hnil⟩ := grants_cons hgr
    obtain rfl := grants_nil hnil
    exact ⟨(), signal_played hb⟩
  refused := by
    rintro s pre post e' rs r q left - hes hgr hr hb
    obtain ⟨rfl, rfl⟩ := singleton_eq_split hes
    obtain rfl := grants_nil hgr
    exact signal_refused he hr hb
  silent := by
    rintro s pre post e' rs left - hes hgr hb
    obtain ⟨rfl, rfl⟩ := singleton_eq_split hes
    obtain rfl := grants_nil hgr
    exact signal_silent _ hb

/-! ### The frames (43_transport.md R120) -/

/-- A frame without what follows a `Nack`. -/
def openFrame (body : State → Res Reason α) (s : State) : Res Reason α :=
  (signal .start s).bind fun _ t => (body t).bind fun v u => (signal .stop u).bind fun _ w => .done v w

theorem signal_failed {e : BusEvent} {q : Reason} {s t : State} (h : signal e s = .failed q t) : q = .timeout := by
  unfold signal at h
  split at h <;> cases h
  rfl

/-- The START fails by a `Timeout` only, so the `P` after a `Nack` may be said of the whole frame. -/
theorem frame_eq_closeFrame (body : State → Res Reason α) (s : State) :
    frame body s = closeFrame (openFrame body s) := by
  rw [frame, openFrame]
  cases h : signal .start s with
  | failed q t =>
    obtain rfl := signal_failed h
    rfl
  | done | fault | refused => rfl

theorem Plays.openFrame {body : State → Res Reason α} {es : List BusEvent} (h : Plays body a es) :
    Plays (openFrame body) a ([.start] ++ (es ++ [.stop])) :=
  (plays_signal fun _ => BusEvent.noConfusion).bind fun _ => h.bind fun v =>
    (plays_signal (e := .stop) fun _ => BusEvent.noConfusion).bind fun _ => plays_done v

theorem plays_pointAt (reg : Option Byte) : Plays (pointAt reg) a (pointerEvents a reg).tail := by
  cases reg with
  | none => exact plays_done ()
  | some r =>
    have hpoint := (plays_txAll (a := a) [addrByte a false, r]).bind fun _ =>
      plays_signal (e := .restart) fun _ => BusEvent.noConfusion
    exact hpoint.congr fun _ ha => ha ▸ rfl

theorem readFrameEvents_eq (reg : Option Byte) (n : Nat) :
    readFrameEvents a reg n =
      [.start] ++ ((pointerEvents a reg).tail ++ ([.tx (addrByte a true)] ++ rxEvents n) ++ [.stop]) := by
  cases reg <;> simp [readFrameEvents, pointerEvents]

theorem writeFrameEvents_eq (bytes : List Byte) :
    writeFrameEvents a bytes = [.start] ++ ((addrByte a false :: bytes).map .tx ++ [.stop]) := by
  simp [writeFrameEvents]

/-! ### The answers that end a transfer (43_transport.md R120; 00_scope.md R11) -/

/-- The answers from the event on end the transfer there: with the events it adds and the answers left, or stuck. -/
inductive Ends (e : BusEvent) : List (Option BusReply) → Option (List BusEvent × List (Option BusReply)) → Prop
  | timeout (left : List (Option BusReply)) : Ends e (some .timeout :: left) (some ([e], left))
  | nack {b : Byte} (he : e = .tx b) (w : Byte) (p : BusReply) (left : List (Option BusReply)) :
    Ends e (some (.answer false w) :: some p :: left) (some ([e, .stop], left))
  | silent (left : List (Option BusReply)) : Ends e (none :: left) none
  | nackSilent {b : Byte} (he : e = .tx b) (w : Byte) (left : List (Option BusReply)) :
    Ends e (some (.answer false w) :: none :: left) none

variable {s : State} {pre post : List BusEvent} {e : BusEvent} {rs : List BusReply} {tail : List (Option BusReply)}
  {x : Option (List BusEvent × List (Option BusReply))} {st : Status}

/-- A frame ends with `P` after a `Nack`, with no further event after a `Timeout`, and is stuck without an answer. -/
theorem Plays.frame_ends {body : State → Res Reason α} {es : List BusEvent} (hbody : Plays body s.transport.addr7 es)
    (hes : [.start] ++ (es ++ [.stop]) = pre ++ e :: post) (hg : grants pre rs = true)
    (hb : s.env.bus = rs.map some ++ tail) (hx : Ends e tail x) :
    (frame body s).mapError (fun _ => st) = stopped st s.env.blockCounts s (after pre x) := by
  have hplays := hbody.openFrame
  rw [frame_eq_closeFrame]
  cases hx with
  | timeout left =>
    rw [hplays.refused rfl hes hg (refusal_timeout e) hb]
    rfl
  | nack he w p left =>
    subst he
    rw [hplays.refused rfl hes hg (q := .nack) rfl hb, closeFrame, emit_script (r := p) (rest := left) rfl]
    simp only [Res.mapError, after, Option.map_some, played_played, List.append_assoc]
    rfl
  | silent left =>
    rw [hplays.silent rfl hes hg hb]
    rfl
  | nackSilent he w left =>
    subst he
    rw [hplays.refused rfl hes hg (q := .nack) rfl hb, closeFrame, emit_silent (rest := left) rfl]
    rfl

theorem hardwareSend_ends {bytes : List Byte} (hes : writeFrameEvents s.transport.addr7 bytes = pre ++ e :: post)
    (hg : grants pre rs = true) (hb : s.env.bus = rs.map some ++ tail) (hx : Ends e tail x) :
    hardwareSend bytes s = stopped .sendFail s.env.blockCounts s (after pre x) := by
  rw [hardwareSend, writeFrame]
  exact (plays_txAll (addrByte s.transport.addr7 false :: bytes)).frame_ends (writeFrameEvents_eq bytes ▸ hes) hg hb hx

theorem hardwareReceive_ends {reg : Option Byte} {n : Nat}
    (hes : readFrameEvents s.transport.addr7 reg n = pre ++ e :: post) (hg : grants pre rs = true)
    (hb : s.env.bus = rs.map some ++ tail) (hx : Ends e tail x) :
    hardwareReceive reg n s = stopped .receiveFail s.env.blockCounts s (after pre x) := by
  have hbody := (plays_pointAt (a := s.transport.addr7) reg).bind fun _ =>
    (plays_txByte (addrByte s.transport.addr7 true)).bind fun _ => plays_rxAll n
  rw [hardwareReceive, readFrame]
  exact hbody.frame_ends (readFrameEvents_eq reg n ▸ hes) hg hb hx

/-! ### Blocks (43_transport.md R121) -/

/-- A block send ends with the chunk that ends, the first or a later one. -/
theorem sendChunks_ends {fuel : Nat} {r : Byte} {buf : List Byte}
    (hes : sendFrames s.transport.addr7 fuel r buf = pre ++ e :: post) (hg : grants pre rs = true)
    (hb : s.env.bus = rs.map some ++ tail) (hx : Ends e tail x) :
    sendChunks fuel r buf s = stopped .sendFail s.env.blockCounts s (after pre x) := by
  induction fuel generalizing r buf s pre rs with
  | zero => simp [sendFrames] at hes
  | succ fuel ih =>
    by_cases hn : buf.length = 0
    · simp [sendFrames, hn] at hes
    · rw [sendFrames, if_neg hn] at hes
      rw [sendChunks, if_neg hn]
      rcases append_eq_split hes with ⟨p, hfirst⟩ | ⟨p, rfl, hlater⟩
      · rw [hardwareSend_ends hfirst hg hb hx, stopped_bind]
      · obtain ⟨r1, r2, rfl, hg1, hg2, -⟩ := grants_append hg
        rw [hardwareSend_played _ s r1 (r2.map some ++ tail) hg1 (by simpa using hb), bind_done,
          ih (s := played _ (r2.map some ++ tail) s) hlater hg2 rfl, ← after_after]
        exact stopped_counted .sendFail _ (r2.map some ++ tail) s.env.blockCounts s.env.blockCounts s (after p x)

/-- A hardware send ends with its frame, or with a chunk's. -/
theorem hardwareSendOf_ends {reg : Option Byte} {d : List Byte}
    (hes : hardwareSendEvents s.transport.addr7 reg d = pre ++ e :: post) (hg : grants pre rs = true)
    (hb : s.env.bus = rs.map some ++ tail) (hx : Ends e tail x) :
    hardwareSendOf reg d s = stopped .sendFail s.env.blockCounts s (after pre x) := by
  cases reg with
  | none => exact hardwareSend_ends hes hg hb hx
  | some r => exact sendChunks_ends hes hg hb hx

/-- A frame has its `P` last and nowhere else. -/
theorem readFrameEvents_stop (a : Addr7) (reg : Option Byte) (n : Nat) :
    ∃ es : List BusEvent, .stop ∉ es ∧ readFrameEvents a reg n = es ++ [.stop] := by
  have hrx : .stop ∉ rxEvents n := by
    induction n with
    | zero => simp [rxEvents]
    | succ n ih => simpa [rxEvents] using ih
  exact ⟨_, by cases reg <;> simp [pointerEvents, hrx], rfl⟩

theorem count_stop_readFrameEvents (a : Addr7) (reg : Option Byte) (n : Nat) :
    (readFrameEvents a reg n).count .stop = 1 := by
  obtain ⟨es, hes, heq⟩ := readFrameEvents_stop a reg n
  rw [heq, List.count_append, List.count_eq_zero.2 hes]
  rfl

/-- In a frame no `P` comes before another event. -/
theorem count_stop_before {reg : Option Byte} {n : Nat} (h : readFrameEvents a reg n = pre ++ e :: post) :
    pre.count .stop = 0 := by
  obtain ⟨es, hes, heq⟩ := readFrameEvents_stop a reg n
  refine List.count_eq_zero.2 fun hmem => hes ?_
  obtain ⟨p, rfl⟩ | ⟨p, rfl, hlast⟩ := append_eq_split (heq.symm.trans h)
  · exact List.mem_append_left _ hmem
  · obtain ⟨rfl, -⟩ := singleton_eq_split hlast
    rwa [List.append_nil] at hmem

/-- An event of a block receive is one of a chunk, and the `P`s before it are those of the chunks before. -/
theorem receiveFrames_split {fuel : Nat} {r : Byte} {n : Nat} (h : receiveFrames a fuel r n = pre ++ e :: post) :
    ∃ k p p', k < fuel ∧ 32 * k < n ∧ pre.count .stop = k ∧ pre = receiveFrames a k r n ++ p ∧
      readFrameEvents a (some (chunkReg r k)) (min 32 (n - 32 * k)) = p ++ e :: p' := by
  induction fuel generalizing r n pre with
  | zero => simp [receiveFrames] at h
  | succ fuel ih =>
    by_cases hn : n = 0
    · simp [hn, receiveFrames_of_none] at h
    · rw [receiveFrames_succ a fuel r hn] at h
      rcases append_eq_split h with ⟨p, hfirst⟩ | ⟨q, rfl, hlater⟩
      · exact ⟨0, pre, p, by omega, by omega, count_stop_before hfirst, rfl, by simpa [chunkReg_zero] using hfirst⟩
      · obtain ⟨k, p, p', hk, hkn, hcount, rfl, hchunk⟩ := ih hlater
        refine ⟨k + 1, p, p', by omega, by omega, ?_, ?_, ?_⟩
        · rw [List.count_append, count_stop_readFrameEvents, hcount, Nat.add_comm]
        · rw [receiveFrames_succ a k r hn, List.append_assoc]
        · rwa [← chunkReg_succ, Nat.mul_succ, Nat.add_comm, ← Nat.sub_sub]

theorem blockRead_ends {r : Byte} {m : Nat} (hes : readFrameEvents s.transport.addr7 (some r) m = pre ++ e :: post)
    (hg : grants pre rs = true) (hb : s.env.bus = rs.map some ++ tail) (hx : Ends e tail x) :
    blockRead r m s = stopped .receiveFail s.env.blockCounts s (after pre x) := by
  rw [blockRead, hardwareReceive_ends hes hg hb hx, stopped_bind]

/-- A block receive ends with the chunk that ends, when the counts of the earlier ones are whole. -/
theorem receiveChunks_ends {fuel n : Nat} {r : Byte} {counts : List Nat} {crest : List (Option Nat)}
    (hes : receiveFrames s.transport.addr7 fuel r n = pre ++ e :: post) (hcount : counts.length = pre.count .stop)
    (hfull : ∀ c ∈ counts, 32 ≤ c) (hc : s.env.blockCounts = counts.map some ++ crest) (hg : grants pre rs = true)
    (hb : s.env.bus = rs.map some ++ tail) (hx : Ends e tail x) :
    receiveChunks fuel r n s = stopped .receiveFail crest s (after pre x) := by
  obtain ⟨k, p, p', hk, hkn, hpre, rfl, hchunk⟩ := receiveFrames_split hes
  obtain rfl : counts.length = k := hcount.trans hpre
  obtain ⟨r1, r2, rfl, hg1, hg2, -⟩ := grants_append hg
  rw [receiveChunks_stopped (wholeChunks_of_full hfull hkn.le) hkn hk r hg1
    (by simpa using hb : s.env.bus = r1.map some ++ (r2.map some ++ tail)) hc
    (blockRead_ends hchunk hg2 rfl hx), after_after]
  rfl

end

/-! ### The obligation -/

/-- A transfer that stopped is handed back by its status, whatever the data of a success. -/
theorem handBack_stopped {α β : Type} (f : α → HostResult) (g : β → HostResult) (st : Status)
    (crest : List (Option Nat)) (s : State) (x : Option (List BusEvent × List (Option BusReply))) :
    handBack f (stopped st crest s x) = handBack g (stopped st crest s x) := by
  cases x <;> rfl

/-- Settles O38: each transfer stops at the event, after what the answers there add (`hardwareSendOf_ends`,
`hardwareReceive_ends`, `receiveChunks_ends`). -/
theorem hardwareTransfersFailAtTheFirstRefusal : Obligations.HardwareTransfersFailAtTheFirstRefusal := by
  intro s op reg es pre post e replies rest st counts crest hopen hkind hop hes hg hfull hc
  have hends {tail x} (hb : s.env.bus = replies.map some ++ tail) (hx : Ends e tail x) :
      hostExec op s = handBack okStatus (stopped st crest s (after pre x)) := by
    obtain ⟨d, hop, rfl, rfl, rfl⟩ | ⟨n, hop, hone, rfl, rfl, rfl⟩ | ⟨r, n, rfl, rfl, rfl, hcount⟩ := hop
    · obtain rfl : s.env.blockCounts = crest := hc
      rw [hostExec_send_hardware hopen hop hkind, hardwareSendOf_ends hes hg hb hx]
    · obtain rfl : s.env.blockCounts = crest := hc
      rw [hostExec_receive_hardware hopen hop hkind, hardwareReceiveOf_of_not_block hone,
        hardwareReceive_ends hes hg hb hx, handBack_stopped]
    · rw [hostExec_receive_hardware (op := .receiveBlock r n) hopen rfl hkind, hardwareReceiveOf,
        receiveChunks_ends hes hcount hfull hc hg hb hx, handBack_stopped]
  exact ⟨fun hb => hends hb (.timeout rest), fun b w p he hb => hends hb (.nack he w p rest),
    fun hb => hends hb (.silent rest), fun b w he hb => hends hb (.nackSilent he w rest)⟩

end Sys2Proof.Machine
end

section
/-! PROOFS. O39 to O42: the register set's transfers, with the slots a read writes and the slots a write sends
(20_memory.md R45; 44_register_set.md R125 to R131). -/

namespace Sys2Proof.Machine

/-! ### Ids and spans (44_register_set.md R125) -/

theorem validId_nat {id : Nat} (h : id < 19) : validId id = some id := by
  have hin : 0 ≤ (id : Int) ∧ (id : Int) < Config.regCount := by
    simp only [Config.regCount]
    omega
  rw [validId, if_pos hin, Int.toNat_natCast]

theorem validId_outside {id : Int} (h : id < 0 ∨ 19 ≤ id) : validId id = none := by
  have hout : ¬(0 ≤ id ∧ id < Config.regCount) := by
    simp only [Config.regCount]
    omega
  rw [validId, if_neg hout]

theorem validSpan_outside {start count : Int} (h : start < 0 ∨ count < 0 ∨ 19 < start + count) :
    validSpan start count = none :=
  if_pos h

theorem validSpan_empty {start : Int} (h0 : 0 ≤ start) (h19 : start ≤ 19) :
    validSpan start 0 = some (start.toNat, 0) := by
  lift start to Nat using h0
  exact validSpan_nat (n := 0) (by omega)

/-! ### The slots of the image -/

theorem getReg_putRegs_outside {bytes : List Byte} {i j : Nat} (h : i + bytes.length ≤ 19)
    (hj : j < i ∨ i + bytes.length ≤ j) (s : State) : getReg j (putRegs i bytes s) = getReg j s := by
  rw [getReg_putRegs _ _ _ _ h, if_neg (by omega)]

theorem getReg_putRegs_inside {bytes : List Byte} {i k : Nat} (h : i + bytes.length ≤ 19) (hk : k < bytes.length)
    (s : State) : getReg (i + k) (putRegs i bytes s) = bytes.getD k 0#8 := by
  rw [getReg_putRegs _ _ _ _ h, if_pos (by omega), Nat.add_sub_cancel_left]

theorem putRegs_trace (bytes : List Byte) (i : Nat) (s : State) : (putRegs i bytes s).trace = s.trace := by
  rw [putRegs_eq]

/-- The bytes of a block write are the slots of the range, in rising order (20_memory.md R45). -/
theorem getRegs_eq_map (s : State) (i n : Nat) : getRegs s i n = (List.range n).map fun k => getReg (i + k) s := by
  induction n generalizing i with
  | zero => rfl
  | succ n ih =>
    rw [getRegs, ih, List.range_succ_eq_map, List.map_cons, List.map_map]
    simp [Function.comp_def, Nat.add_assoc, Nat.add_comm 1]

/-! ### The slots after a failed block read (44_register_set.md R127; log 10) -/

theorem afterFailedRead_of_bitBanged {s : State} (h : s.transport.kind = .bitBanged) (i n : Nat) :
    afterFailedRead i n s = s := by
  rw [afterFailedRead, h]

theorem afterFailedRead_of_hardware {s : State} (h : s.transport.kind = .hardware) (i n : Nat) :
    afterFailedRead i n s = forgetRegs i n s := by
  rw [afterFailedRead, h]

/-- Forgetting a range writes as many free bytes as it has slots. -/
theorem getReg_forgetRegs_outside {i n j : Nat} (h : i + n ≤ 19) (hj : j < i ∨ i + n ≤ j) (s : State) :
    getReg j (forgetRegs i n s) = getReg j s :=
  getReg_putRegs_outside (by simpa using h) (by simpa using hj) s

theorem getReg_afterFailedRead_outside {i n j : Nat} (h : i + n ≤ 19) (hj : j < i ∨ i + n ≤ j) (s : State) :
    getReg j (afterFailedRead i n s) = getReg j s := by
  cases hkind : s.transport.kind with
  | bitBanged => rw [afterFailedRead_of_bitBanged hkind]
  | hardware => rw [afterFailedRead_of_hardware hkind, getReg_forgetRegs_outside h hj]

theorem afterFailedRead_trace (i n : Nat) (s : State) : (afterFailedRead i n s).trace = s.trace := by
  obtain ⟨regs, draws, hafter⟩ := afterFailedRead_eq i n s
  rw [hafter]

/-! ### Reads (44_register_set.md R126, R127, R128) -/

theorem readOne_done {id : Nat} {s t : State} {v : Byte} (hid : id < 19)
    (h : receiveReg (BitVec.ofNat 8 id) s = .done v t) : readOne id s = .done () (putReg id v t) := by
  simp only [readOne, validId_nat hid, h, bind_done]

theorem readOne_failed {id : Nat} {s t : State} {e : Status} (hid : id < 19)
    (h : receiveReg (BitVec.ofNat 8 id) s = .failed e t) : readOne id s = .failed e t := by
  simp only [readOne, validId_nat hid, h, bind_failed]

theorem readOne_outside {id : Int} (h : id < 0 ∨ 19 ≤ id) (s : State) : readOne id s = .failed .receiveFail s := by
  rw [readOne, validId_outside h]

theorem readBlock_outside {start count : Int} (h : start < 0 ∨ count < 0 ∨ 19 < start + count) (s : State) :
    readBlock start count s = .failed .receiveFail s := by
  rw [readBlock, validSpan_outside h]

theorem readBlock_empty {start : Int} (h0 : 0 ≤ start) (h19 : start ≤ 19) (s : State) :
    readBlock start 0 s = .done () s := by
  simp only [readBlock, validSpan_empty h0 h19, if_true]

theorem readRange_reversed {startId endId : Int} (h : endId < startId) (s : State) :
    readRange startId endId s = .failed .receiveFail s :=
  if_pos h

theorem readRange_ordered {startId endId : Int} (h : startId ≤ endId) (s : State) :
    readRange startId endId s = readBlock startId (endId - startId + 1) s :=
  if_neg (not_lt.2 h)

/-! ### Writes (44_register_set.md R129, R130, R131) -/

theorem writeOne_of_valid {id : Nat} (hid : id < 19) (s : State) :
    writeOne id s = sendReg (BitVec.ofNat 8 id) (getReg id s) s := by
  rw [writeOne, validId_nat hid]

theorem writeBlock_of_valid {i n : Nat} (hspan : i + n ≤ 19) (hn : n ≠ 0) (s : State) :
    writeBlock i n s = sendBlock (BitVec.ofNat 8 i) ((List.range n).map fun k => getReg (i + k) s) s := by
  simp only [writeBlock, validSpan_nat hspan, hn, if_false, getRegs_eq_map]

theorem writeOne_outside {id : Int} (h : id < 0 ∨ 19 ≤ id) (s : State) : writeOne id s = .failed .sendFail s := by
  rw [writeOne, validId_outside h]

theorem writeBlock_outside {start count : Int} (h : start < 0 ∨ count < 0 ∨ 19 < start + count) (s : State) :
    writeBlock start count s = .failed .sendFail s := by
  rw [writeBlock, validSpan_outside h]

theorem writeBlock_empty {start : Int} (h0 : 0 ≤ start) (h19 : start ≤ 19) (s : State) :
    writeBlock start 0 s = .done () s := by
  simp only [writeBlock, validSpan_empty h0 h19, if_true]

theorem writeRange_reversed {startId endId : Int} (h : endId < startId) (s : State) :
    writeRange startId endId s = .failed .sendFail s :=
  if_pos h

theorem writeRange_ordered {startId endId : Int} (h : startId ≤ endId) (s : State) :
    writeRange startId endId s = writeBlock startId (endId - startId + 1) s :=
  if_neg (not_lt.2 h)

/-! ### What the host gets back -/

theorem handBack_of_failed {α : Type} {f : α → HostResult} {x : Res Status α} {e : Status} {t : State}
    (h : x = .failed e t) : handBack f x = .next { t with result := some (.status e) } := by
  rw [h, handBack]

theorem handBack_okStatus_of_done {x : Res Status Unit} {t : State} (h : x = .done () t) :
    handBack okStatus x = .next { t with result := some (.status .ok) } := by
  rw [h, handBack, okStatus]

/-- A procedure that leaves the register set leaves it in the state handed back. -/
theorem handBack_same_regs {α : Type} {f : α → HostResult} {x : Res Status α} {s t : State} (hx : Res.Same x s)
    (h : handBack f x = .next t) : t.regs = s.regs := by
  cases x with
  | done a u => cases h; exact hx.1
  | failed e u => cases h; exact hx.1
  | fault r => cases h
  | refused r => cases h

theorem hardwareSendOf_same (reg : Option Byte) (d : List Byte) (s : State) : Res.Same (hardwareSendOf reg d s) s := by
  cases reg with
  | none => exact hardwareSend_same d s
  | some r => exact sendChunks_same _ r d s

/-- Every send leaves the register set (43_transport.md R111). -/
theorem hostExec_send_regs {op : HostOp} {s t : State} (hop : (sendForm op).isSome) (h : hostExec op s = .next t) :
    t.regs = s.regs := by
  obtain ⟨⟨reg, d⟩, hform⟩ := Option.isSome_iff_exists.1 hop
  rw [hostExec_of_sendForm hform] at h
  exact handBack_same_regs (sendVia_same _ _ _ s (hardwareSendOf_same reg d s)) h

/-! ### The obligations -/

/-- Settles O40: the transport leaves the register set (`receiveReg_same`), and a success puts its byte into the slot
(`readOne_done`). -/
theorem singleReadWritesOneSlot : Obligations.SingleReadWritesOneSlot := by
  intro s id hid
  refine ⟨fun v t h => ?_, fun st t h => ?_⟩
  · obtain ⟨hregs, -⟩ := (receiveReg_same _ s).done h
    refine ⟨_, handBack_okStatus_of_done (readOne_done hid h), rfl, getReg_putReg_same id v t hid, fun j hj => ?_, rfl⟩
    exact (getReg_putReg_other id j v t hj.symm).trans (getReg_of_regs_eq hregs j)
  · obtain ⟨hregs, -⟩ := (receiveReg_same _ s).failed h
    exact ⟨_, handBack_of_failed (readOne_failed hid h), rfl, hregs, rfl⟩

/-- Settles O41: the transport leaves the register set (`receiveBlock_same`); a success puts its bytes into the range
(`readBlock_done`), and after a failure `afterFailedRead` changes the range at most, and only with a hardware
transport. -/
theorem blockReadWritesItsRange : Obligations.BlockReadWritesItsRange := by
  intro s start count hpos hspan
  refine ⟨fun data t hlen h => ?_, fun st t h => ?_⟩
  · subst hlen
    obtain ⟨hregs, -⟩ := (receiveBlock_same _ _ s).done h
    refine ⟨_, handBack_okStatus_of_done (readBlock_done hspan hpos.ne' h), rfl,
      fun k hk => getReg_putRegs_inside hspan hk t, fun j hj => ?_, putRegs_trace data start t⟩
    exact (getReg_putRegs_outside hspan hj t).trans (getReg_of_regs_eq hregs j)
  · obtain ⟨hregs, htransport, -⟩ := (receiveBlock_same _ _ s).failed h
    refine ⟨_, handBack_of_failed (readBlock_failed hspan hpos.ne' h), rfl, fun j hj => ?_, fun hkind => ?_,
      afterFailedRead_trace start count t⟩
    · exact (getReg_afterFailedRead_outside hspan hj t).trans (getReg_of_regs_eq hregs j)
    · exact (congrArg State.regs (afterFailedRead_of_bitBanged (htransport ▸ hkind) start count)).trans hregs

/-- Settles O39: each transfer stops at its own check of the id, the span or the order of the ids; a range in order is
a block. -/
theorem registerTransfersAreBoundsChecked : Obligations.RegisterTransfersAreBoundsChecked := by
  intro s id start count startId endId
  refine ⟨fun h => ⟨?_, ?_⟩, fun h => ⟨?_, ?_⟩, fun h => ⟨?_, ?_⟩, fun h0 h19 => ⟨?_, ?_⟩, fun h => ⟨?_, ?_⟩⟩
  · exact handBack_of_failed (readOne_outside h s)
  · exact handBack_of_failed (writeOne_outside h s)
  · exact handBack_of_failed (readBlock_outside h s)
  · exact handBack_of_failed (writeBlock_outside h s)
  · exact handBack_of_failed (readRange_reversed h s)
  · exact handBack_of_failed (writeRange_reversed h s)
  · exact handBack_okStatus_of_done (readBlock_empty h0 h19 s)
  · exact handBack_okStatus_of_done (writeBlock_empty h0 h19 s)
  · exact congrArg (handBack okStatus) (readRange_ordered h s)
  · exact congrArg (handBack okStatus) (writeRange_ordered h s)

/-- Settles O42: `writeOne_of_valid` and `writeBlock_of_valid` are the sends of the slots, and no send changes one
(`hostExec_send_regs`). -/
theorem registerWritesSendTheSlots : Obligations.RegisterWritesSendTheSlots := fun s =>
  ⟨fun _ hid => congrArg (handBack okStatus) (writeOne_of_valid hid s),
    fun _ _ hpos hspan => congrArg (handBack okStatus) (writeBlock_of_valid hspan hpos.ne' s),
    fun _ _ => hostExec_send_regs⟩

end Sys2Proof.Machine
end

section
/-! PROOFS. O43 to O45: the local helpers of the register set and its BCD codec (44_register_set.md R132 to R138). -/

namespace Sys2Proof.Machine

/-! ### A helper on its slot, and outside the set (44_register_set.md R125) -/

theorem helper_of_valid {α : Type} {id : Nat} (hid : id < 19) (f : Nat → State → α × State) (s : State) :
    helper id f s = .done (f id s).1 (f id s).2 := by
  rw [helper, validId_nat hid]

theorem helper_outside {α : Type} {id : Int} (h : id < 0 ∨ 19 ≤ id) (f : Nat → State → α × State) (s : State) :
    helper id f s = .refused .registerIdOutOfRange := by
  rw [helper, validId_outside h]

/-- A helper that answers from the slot leaves the rest of the state (R132, R134, R136). -/
theorem handBack_helper_answer {α : Type} {id : Nat} (hid : id < 19) (f : α → HostResult) (g : Nat → State → α)
    (s : State) : handBack f (helper id (fun i t => (g i t, t)) s) = .next { s with result := some (f (g id s)) } := by
  rw [helper_of_valid hid, handBack]

theorem handBack_helper_outside {α : Type} {id : Int} (h : id < 0 ∨ 19 ≤ id) (f : α → HostResult)
    (g : Nat → State → α × State) (s : State) :
    handBack f (helper id g s) = .refused .registerIdOutOfRange := by
  rw [helper_outside h, handBack]

/-- The operation writes the byte to that slot and changes nothing else but the answer. -/
def WritesSlot (op : HostOp) (id : Nat) (w : Byte) (s : State) : Prop :=
  ∃ t, hostExec op s = .next t ∧ getReg id t = w ∧ (∀ j, j ≠ id → getReg j t = getReg j s) ∧
    t = { s with regs := t.regs, result := some .done }

/-- A helper that replaces its slot writes that slot and no other (R132, R133, R137). -/
theorem writesSlot_of_helper {op : HostOp} {id : Nat} {w : Nat → State → Byte} {s : State} (hid : id < 19)
    (hop : hostExec op s = handBack (fun _ => .done) (helper id (fun i t => ((), putReg i (w i t) t)) s)) :
    WritesSlot op id (w id s) s :=
  ⟨{ putReg id (w id s) s with result := some .done }, by rw [hop, helper_of_valid hid, handBack],
    getReg_putReg_same id _ s hid, fun j hj => getReg_putReg_other id j _ s hj.symm, rfl⟩

theorem regSet_writesSlot {id : Nat} (hid : id < 19) (v : Byte) (s : State) : WritesSlot (.regSet id v) id v s :=
  writesSlot_of_helper (w := fun _ _ => v) hid rfl

theorem regSetBit_writesSlot {id : Nat} (hid : id < 19) (m : Byte) (s : State) :
    WritesSlot (.regSetBit id m) id (getReg id s ||| m) s :=
  writesSlot_of_helper (w := fun i t => withBits (getReg i t) m) hid rfl

theorem regRemoveBit_writesSlot {id : Nat} (hid : id < 19) (m : Byte) (s : State) :
    WritesSlot (.regRemoveBit id m) id (getReg id s &&& ~~~m) s :=
  writesSlot_of_helper (w := fun i t => withoutBits (getReg i t) m) hid rfl

theorem regToBcd_writesSlot {id : Nat} (hid : id < 19) (v : Int) (msb lsb : Byte) (s : State) :
    WritesSlot (.regToBcd id v msb lsb) id (bcdMerge s.params.bcdMerge (getReg id s) v msb lsb) s :=
  writesSlot_of_helper (w := fun i t => bcdMerge t.params.bcdMerge (getReg i t) v msb lsb) hid rfl

theorem hostExec_regFromBcd {id : Nat} (hid : id < 19) (msb lsb : Byte) (s : State) :
    hostExec (.regFromBcd id msb lsb) s = .next { s with result := some (.int (bcdValue (getReg id s) msb lsb)) } :=
  handBack_helper_answer hid .int (fun i t => fromBcd i msb lsb t) s

/-! ### The digits of a byte (44_register_set.md R136, R137) -/

/-- The tens are the bits under the tens mask, shifted down by division. -/
theorem bcdValue_eq_div (r msb lsb : Byte) :
    bcdValue r msb lsb = ((r &&& lsb).toNat + (r &&& msb).toNat / 16 * 10 : Nat) := by
  rw [bcdValue, BitVec.toNat_ushiftRight, Nat.shiftRight_eq_div_pow]

/-- Only the bits under the two masks count. -/
theorem bcdValue_congr {r r' msb lsb : Byte} (hmsb : r &&& msb = r' &&& msb) (hlsb : r &&& lsb = r' &&& lsb) :
    bcdValue r msb lsb = bcdValue r' msb lsb := by
  rw [bcdValue, bcdValue, hmsb, hlsb]

/-- After a merge the byte's digits are the encoded ones, under `Replace` always, under `Or` from clear digit bits. -/
theorem bcdValue_bcdMerge {mg : BcdMerge} {r msb lsb : Byte} (v : Int) (h : mg = .replace ∨ r &&& (msb ||| lsb) = 0#8) :
    bcdValue (bcdMerge mg r v msb lsb) msb lsb = bcdValue (bcdDigits v msb lsb) msb lsb := by
  cases mg with
  | replace =>
    obtain ⟨hmsb, hlsb⟩ := and_replace_masks r (bcdDigits v msb lsb) msb lsb
    exact bcdValue_congr hmsb hlsb
  | or =>
    obtain ⟨hmsb, hlsb⟩ := and_or_masks r (bcdDigits v msb lsb) msb lsb (h.resolve_left nofun)
    exact bcdValue_congr hmsb hlsb

/-- Each mask reads back its own digit when the masks are disjoint. -/
theorem and_disjoint_masks {m l : Byte} (h : m &&& l = 0#8) (x y : Byte) :
    ((x &&& m) ||| (y &&& l)) &&& m = x &&& m ∧ ((x &&& m) ||| (y &&& l)) &&& l = y &&& l := by
  have hl : l &&& m = 0#8 := BitVec.and_comm l m ▸ h
  constructor
  · rw [BitVec.and_or_distrib_right, BitVec.and_assoc, BitVec.and_self, BitVec.and_assoc, hl,
      BitVec.and_zero, BitVec.or_zero]
  · rw [BitVec.and_or_distrib_right, BitVec.and_assoc, BitVec.and_assoc, h, BitVec.and_self,
      BitVec.and_zero, BitVec.zero_or]

/-- A decimal digit fits the units mask. -/
theorem unitsDigit_fits : ∀ d < 10, (BitVec.ofNat 8 d &&& 0x0F#8).toNat = d := by decide

/-- The tens digits of the values that R138 gives a tens mask fit it, and the mask is clear of the units. -/
theorem tensDigit_fits : ∀ p ∈ [(0xF0#8, 99), (0x70#8, 79), (0x30#8, 39), (0x10#8, 19)],
    p.1 &&& 0x0F#8 = 0#8 ∧ ∀ d ≤ p.2 / 10, ((BitVec.ofNat 8 d <<< 4) &&& p.1).toNat / 16 = d := by decide

/-- The encoded digits of a value that the masks carry are that value (44_register_set.md R138). -/
theorem bcdValue_bcdDigits {msb : Byte} {limit v : Nat}
    (hmask : (msb, limit) ∈ [(0xF0#8, 99), (0x70#8, 79), (0x30#8, 39), (0x10#8, 19)]) (hv : v ≤ limit) :
    bcdValue (bcdDigits v msb 0x0F#8) msb 0x0F#8 = v := by
  obtain ⟨hdisjoint, htens⟩ := tensDigit_fits _ hmask
  obtain ⟨hmsb, hlsb⟩ := and_disjoint_masks hdisjoint (BitVec.ofNat 8 (v / 10) <<< 4) (BitVec.ofNat 8 (v % 10))
  rw [bcdDigits_nat, bcdValue_eq_div, hmsb, hlsb, htens _ (Nat.div_le_div_right hv),
    unitsDigit_fits _ (Nat.mod_lt _ (by decide)), Nat.mul_comm, Nat.mod_add_div]

/-! ### The obligations -/

/-- Settles O45: `toBcd` writes the merged byte (`regToBcd_writesSlot`), whose digits are the encoded ones
(`bcdValue_bcdMerge`), and these are the value (`bcdValue_bcdDigits`). -/
theorem bcdRoundTrip : Obligations.BcdRoundTrip := by
  intro s id v limit msb hid hmask hv hdigits
  obtain ⟨t, hexec, hslot, -, -⟩ := regToBcd_writesSlot hid v msb 0x0F#8 s
  refine ⟨t, hexec, ?_⟩
  rw [hostExec_regFromBcd hid, hslot, bcdValue_bcdMerge _ hdigits, bcdValue_bcdDigits hmask hv]

/-- Settles O43: the helpers that answer leave the state (`handBack_helper_answer`), those that write replace their own
slot (`WritesSlot`), and an id outside the set is refused before either (`handBack_helper_outside`). -/
theorem localHelpersActOnOneSlot : Obligations.LocalHelpersActOnOneSlot := by
  intro s v m
  refine ⟨fun id hid => ⟨?_, ?_, ?_, fun op w hop => ?_⟩, ?_, fun id op hid hop => ?_⟩
  · exact handBack_helper_answer hid .byte getReg s
  · rw [← isSet_eq_decide]
    exact handBack_helper_answer hid .bool (fun i t => isSet i m t) s
  · rw [← isClear_eq_decide]
    exact handBack_helper_answer hid .bool (fun i t => isClear i m t) s
  · simp only [List.mem_cons, List.not_mem_nil, or_false, Prod.mk.injEq] at hop
    obtain ⟨rfl, rfl⟩ | ⟨rfl, rfl⟩ | ⟨rfl, rfl⟩ := hop
    · exact regSet_writesSlot hid _ s
    · exact regSetBit_writesSlot hid m s
    · exact regRemoveBit_writesSlot hid m s
  · exact ⟨_, rfl, fun j => getReg_clearRegs j s, rfl⟩
  · simp only [List.mem_cons, List.not_mem_nil, or_false] at hop
    obtain rfl | rfl | rfl | rfl | rfl | rfl | rfl | rfl := hop <;> exact handBack_helper_outside hid _ _ s

/-- Settles O44: `fromBcd` is `hostExec_regFromBcd` with the tens as a quotient (`bcdValue_eq_div`), and `toBcd` writes
the digits merged into its slot (`regToBcd_writesSlot`, `bcdDigits_nat`). -/
theorem bcdHelpersUseTheirMasks : Obligations.BcdHelpersUseTheirMasks := by
  intro s id v msb lsb hid
  refine ⟨by rw [hostExec_regFromBcd hid, bcdValue_eq_div], fun _ => ?_⟩
  obtain ⟨t, hexec, hslot, hother, hframe⟩ := regToBcd_writesSlot hid v msb lsb s
  refine ⟨t, bcdDigits v msb lsb, hexec, bcdDigits_nat v msb lsb, fun hmerge => ?_, fun hmerge => ?_, hother, hframe⟩
  · rw [hslot, hmerge, bcdMerge]
  · rw [hslot, hmerge, bcdMerge]

end Sys2Proof.Machine
end

section
/-! PROOFS. O46 to O48, O55 and O56: the register set of a codec operation, the registers it reads and writes as a pair,
and the flags it takes from a byte (45_rtc_codec.md R139, R140, R142, R145, R150 to R152). -/

namespace Sys2Proof.Machine

/-! ### The bits of a byte -/

/-- A mask clear of bit 7 sees the low seven bits only. -/
theorem and_of_lowBits {b c m : Byte} (h : b &&& 0x7F#8 = c) (hm : 0x7F#8 &&& m = m) : b &&& m = c &&& m := by
  rw [← h, BitVec.and_assoc, hm]

/-- A byte is its low seven bits and its bit 7. -/
theorem lowBits_or_bit7 (b : Byte) : b &&& 0x7F#8 ||| b &&& 0x80#8 = b := by
  rw [← BitVec.and_or_distrib_left]
  exact BitVec.and_allOnes

theorem lowBits_of_bit7_clear {b : Byte} (hb : b &&& 0x80#8 = 0#8) : b &&& 0x7F#8 = b := by
  simpa only [hb, BitVec.or_zero] using lowBits_or_bit7 b

/-- Bit 7 put into a byte that has it clear comes back, and so does the byte. -/
theorem split_or_bit7 {b x : Byte} (hb : b &&& 0x80#8 = 0#8) (hx : x &&& 0x7F#8 = 0#8) :
    (b ||| x) &&& 0x7F#8 = b ∧ (b ||| x) &&& 0x80#8 = x := by
  have hhigh : x &&& 0x80#8 = x := by simpa only [hx, BitVec.zero_or] using lowBits_or_bit7 x
  rw [BitVec.and_or_distrib_right, BitVec.and_or_distrib_right, hb, hx, hhigh, lowBits_of_bit7_clear hb, BitVec.or_zero,
    BitVec.zero_or]
  exact ⟨rfl, rfl⟩

/-- Bit 7 says whether the byte is 128 or more. -/
theorem and_bit7 (b : Byte) : b &&& 0x80#8 = if 128 ≤ b.toNat then 0x80#8 else 0#8 := by
  have hmsb : b.getLsbD 7 = decide (128 ≤ b.toNat) := b.msb_eq_decide
  have hmask : BitVec.twoPow 8 7 = 0x80#8 := by decide
  simpa only [hmask, hmsb, decide_eq_true_eq] using b.and_twoPow 7

theorem bit7_set_iff (b : Byte) : b &&& 0x80#8 = 0x80#8 ↔ 128 ≤ b.toNat := by
  rw [and_bit7]
  split
  next h => simp [h]
  next h => simp [h]

/-- A BCD field has no bit outside its masks. -/
theorem digitByte_outside (v : Nat) {msb m : Byte} (hm : m &&& (msb ||| 0x0F#8) = 0#8) :
    digitByte v msb &&& m = 0#8 := by
  rw [← bcdMerge_zero .replace, bcdMerge_outside _ _ _ _ _ hm, BitVec.zero_and]

theorem bcdDigits_eq_digitByte (v : Nat) (msb : Byte) : bcdDigits v msb 0x0F#8 = digitByte v msb :=
  bcdDigits_nat v msb 0x0F#8

/-- The digits of a value the masks carry are that value (44_register_set.md R138). -/
theorem bcdValue_digitByte {msb : Byte} {v limit : Nat}
    (hmask : (msb, limit) ∈ [(0xF0#8, 99), (0x70#8, 79), (0x30#8, 39), (0x10#8, 19)]) (hv : v ≤ limit) :
    bcdValue (digitByte v msb) msb 0x0F#8 = v := by
  rw [← bcdDigits_eq_digitByte, bcdValue_bcdDigits hmask hv]

/-- So they are, whatever bit 7 holds beside them, when the tens mask leaves it out. -/
theorem bcdValue_of_lowBits {b msb : Byte} {v limit : Nat}
    (hmask : (msb, limit) ∈ [(0x70#8, 79), (0x30#8, 39), (0x10#8, 19)]) (hv : v ≤ limit)
    (hb : b &&& 0x7F#8 = digitByte v msb) : bcdValue b msb 0x0F#8 = v := by
  have hlow : ∀ p ∈ [(0x70#8, 79), (0x30#8, 39), (0x10#8, 19)], 0x7F#8 &&& p.1 = p.1 := by decide
  rw [bcdValue_congr (and_of_lowBits hb (hlow _ hmask)) (and_of_lowBits hb (by decide)),
    bcdValue_digitByte (List.mem_cons_of_mem _ hmask) hv]

/-! ### A codec operation leaves the host's register set (45_rtc_codec.md R139) -/

/-- Every codec operation runs on a register set of its own. -/
theorem hostExec_of_isCodec {op : HostOp} (hop : isCodec op = true) :
    ∃ (α : Type) (f : α → HostResult) (g : State → Res Status α), ∀ s,
      hostExec op s = handBack f (withFreshRegs g s) := by
  cases op with
  | getClockState => exact ⟨_, _, _, fun _ => rfl⟩
  | getDateTime => exact ⟨_, _, _, fun _ => rfl⟩
  | setDateTime dt => exact ⟨_, _, _, fun _ => rfl⟩
  | getTemperature => exact ⟨_, _, _, fun _ => rfl⟩
  | setAlarm id a => exact ⟨_, _, _, fun _ => rfl⟩
  | getAlarm id => exact ⟨_, _, _, fun _ => rfl⟩
  | setAlarmInterruptState id enabled => exact ⟨_, _, _, fun _ => rfl⟩
  | getAlarmInterruptStatus => exact ⟨_, _, _, fun _ => rfl⟩
  | getAlarmTriggerState => exact ⟨_, _, _, fun _ => rfl⟩
  | _ => nomatch hop

theorem handBack_withFreshRegs_regs {α : Type} {f : α → HostResult} {op : State → Res Status α} {s t : State}
    (h : handBack f (withFreshRegs op s) = .next t) : t.regs = s.regs := by
  cases hx : op (clearRegs s) with
  | done a u => rw [handBack_withFreshRegs_done hx] at h; cases h; rfl
  | failed e u => rw [handBack_withFreshRegs_failed hx] at h; cases h; rfl
  | fault r => rw [withFreshRegs, hx] at h; cases h
  | refused r => rw [withFreshRegs, hx] at h; cases h

/-- Putting the bytes of a read into the image changes nothing the host sees. -/
theorem handBack_withFreshRegs_putRegs {α : Type} {f : α → HostResult} {op : State → Res Status α} {s t : State}
    {a : α} {i : Nat} {data : List Byte} (h : op (clearRegs s) = .done a (putRegs i data t)) :
    handBack f (withFreshRegs op s) = .next { t with regs := s.regs, result := some (f a) } := by
  rw [handBack_withFreshRegs_done h, putRegs_eq]

/-- Settles O46: every codec operation runs under `withFreshRegs`, which puts the host's register set back. -/
theorem codecOperationsLeaveTheHostsRegisters : Obligations.CodecOperationsLeaveTheHostsRegisters := by
  intro s t op hop h
  obtain ⟨α, f, g, hexec⟩ := hostExec_of_isCodec hop
  exact handBack_withFreshRegs_regs ((hexec s).symm.trans h)

/-! ### Two neighbouring registers -/

section

variable {i j : Nat} (hij : j = i + 1) (hj : j < 19)

include hij

/-- A range of two ids is a block of two registers (44_register_set.md R128). -/
theorem readRange_pair (s : State) : readRange i j s = readBlock i 2 s := by
  rw [readRange_ordered (by omega), show (j : Int) - i + 1 = 2 by omega]

include hj

theorem readRange_pair_done {s t : State} {data : List Byte}
    (h : receiveBlock (BitVec.ofNat 8 i) 2 s = .done data t) : readRange i j s = .done () (putRegs i data t) :=
  (readRange_pair hij s).trans (readBlock_done (n := 2) (by omega) (by decide) h)

theorem readRange_pair_failed {s t : State} {e : Status} (h : receiveBlock (BitVec.ofNat 8 i) 2 s = .failed e t) :
    readRange i j s = .failed e (afterFailedRead i 2 t) :=
  (readRange_pair hij s).trans (readBlock_failed (n := 2) (by omega) (by decide) h)

/-- A range of two ids sends the two slots (44_register_set.md R131). -/
theorem writeRange_pair (s : State) :
    writeRange i j s = sendBlock (BitVec.ofNat 8 i) [getReg i s, getReg j s] s := by
  rw [writeRange_ordered (by omega), show (j : Int) - i + 1 = (2 : Nat) by omega,
    writeBlock_of_valid (by omega) (by decide), hij]
  rfl

/-- The slots of a pair of bytes that was read. -/
theorem getReg_putRegs_pair (a b : Byte) (s : State) :
    getReg i (putRegs i [a, b] s) = a ∧ getReg j (putRegs i [a, b] s) = b := by
  have hslot (k : Nat) (hk : k < 2) := getReg_putRegs_inside (bytes := [a, b]) (i := i) (by simp; omega) hk s
  exact ⟨hslot 0 (by decide), hij ▸ hslot 1 (by decide)⟩

end

/-! ### `GetTemperature` and `GetClockState` (45_rtc_codec.md R142, R145) -/

/-- Bits 7:6 of a byte, moved down. -/
theorem toNat_tempFrac (l : Byte) : ((l &&& tempFrac) >>> 6).toNat = l.toNat / 64 := by
  have hmask : tempFrac >>> 6 = 0x03#8 := by decide
  have hlow : (l >>> 6).toNat = l.toNat / 64 := by rw [BitVec.toNat_ushiftRight, Nat.shiftRight_eq_div_pow]
  have hmod : (l.toNat / 64) &&& 3 = l.toNat / 64 % 4 := Nat.and_two_pow_sub_one_eq_mod _ 2
  rw [BitVec.ushiftRight_and_distrib, hmask, BitVec.toNat_and, hlow]
  exact hmod.trans (Nat.mod_eq_of_lt (by omega))

/-- The quarter degrees in absolute terms (45_rtc_codec.md R145). -/
theorem quarterDegrees_eq (m l : Byte) : quarterDegrees m l =
    4 * (if m.toNat < 128 then (m.toNat : Int) else m.toNat - 256) + (l.toNat / 64 : Nat) := by
  have hsign : m.toInt = if m.toNat < 128 then (m.toNat : Int) else m.toNat - 256 := by
    rw [BitVec.toInt_eq_toNat_cond]
    split <;> split <;> omega
  rw [quarterDegrees, toNat_tempFrac, hsign]
  rfl

/-- Settles O47: the pair read is the block of 0x11 and 0x12 (`readRange_pair_done`, `readRange_pair_failed`), and its
two bytes are the quarter degrees (`quarterDegrees_eq`). -/
theorem temperatureIsDecoded : Obligations.TemperatureIsDecoded := by
  intro s
  refine ⟨fun m l t h => ?_, fun st t h => ?_⟩
  · have hread := readRange_pair_done (i := regTempMsb) (j := regTempLsb) rfl (by decide) h
    obtain ⟨hm, hl⟩ := getReg_putRegs_pair (i := regTempMsb) (j := regTempLsb) rfl (by decide) m l t
    rw [← quarterDegrees_eq]
    exact handBack_withFreshRegs_putRegs (f := .int) (i := regTempMsb) (data := [m, l])
      (by simp only [hread, bind_done, hm, hl])
  · have hread := readRange_pair_failed (i := regTempMsb) (j := regTempLsb) rfl (by decide) h
    exact ⟨_, handBack_withFreshRegs_failed (t := afterFailedRead regTempMsb 2 t)
      (by simp only [hread, bind_failed]), rfl, afterFailedRead_trace _ _ _⟩

/-- The oscillator's flags are bit 7 of Control and of Status (10_state.md R28, R29). -/
theorem isSet_bit7 (i : Nat) (s : State) : isSet i 0x80#8 s = decide (128 ≤ (getReg i s).toNat) := by
  simp only [isSet_eq_decide, bit7_set_iff]

/-- Settles O48: the pair read is the block of 0x0E and 0x0F, and the flag is bit 7 of the second (`isSet_bit7`). -/
theorem clockStateIsDecoded : Obligations.ClockStateIsDecoded := by
  intro s
  refine ⟨fun c st t h => ?_, fun st t h => ?_⟩
  · have hread := readRange_pair_done (i := regControl) (j := regStatus) rfl (by decide) h
    obtain ⟨-, hstatus⟩ := getReg_putRegs_pair (i := regControl) (j := regStatus) rfl (by decide) c st t
    exact handBack_withFreshRegs_putRegs (f := .clockState) (i := regControl) (data := [c, st])
      (by simp only [hread, osf, isSet_bit7, hstatus, decide_eq_true_eq])
  · have hread := readRange_pair_failed (i := regControl) (j := regStatus) rfl (by decide) h
    exact ⟨_, handBack_withFreshRegs_done (f := .clockState) (t := afterFailedRead regControl 2 t)
      (by simp only [hread]), rfl, afterFailedRead_trace _ _ _⟩

/-! ### The alarm enables (45_rtc_codec.md R150, R151) -/

/-- Settles O55: both operations read Control, `SetAlarmInterruptState` by `updateEnable_eq`, whose image has only the
alarm's own bit changed (`getReg_enableImage`). -/
theorem alarmEnablesAreReadAndWritten : Obligations.AlarmEnablesAreReadAndWritten := by
  intro s t
  refine ⟨fun e h op hop => ?_, fun c h => ⟨?_, fun id enabled bit hbit => ?_⟩⟩
  · obtain rfl | ⟨id, enabled, rfl⟩ := hop
    · exact handBack_withFreshRegs_failed (by simp only [readOne_control, h, bind_failed])
    · exact handBack_withFreshRegs_failed (by simp only [updateEnable_eq, h, bind_failed])
  · refine handBack_withFreshRegs_done (f := fun p => .interruptStatus p.1 p.2) (t := putReg regControl c t)
      (a := (decide (c &&& a1ie = a1ie), decide (c &&& a2ie = a2ie))) ?_
    simp only [readOne_control, h, bind_done, isSet_eq_decide]
    rw [getReg_putReg_same _ _ _ (by decide)]
  · obtain rfl : bit = enableBit id := by cases id <;> exact hbit
    refine ⟨enableImage id enabled c t, getReg_enableImage _ _ _ _, enableImage_eq _ _ _ _, fun w hs => ?_,
      fun e w hs => ?_⟩
    · exact handBack_withFreshRegs_done (f := okStatus) (a := ())
        (by simp only [updateEnable_eq, h, bind_done]; exact hs)
    · exact handBack_withFreshRegs_failed (by simp only [updateEnable_eq, h, bind_done]; exact hs)

/-! ### The alarm triggers (45_rtc_codec.md R152) -/

/-- The flags A1F and A2F of a Status byte. -/
def triggerFlags (st : Byte) : Bool × Bool := (decide (st &&& a1f = a1f), decide (st &&& a2f = a2f))

/-- One of the two flags is set exactly when the two bits are not both clear. -/
theorem triggerFlags_set_iff (st : Byte) :
    ((triggerFlags st).1 || (triggerFlags st).2) = true ↔ st &&& 0x03#8 ≠ 0#8 := by
  have hfirst : st &&& a1f = if st.getLsbD 0 then a1f else 0#8 := st.and_twoPow 0
  have hsecond : st &&& a2f = if st.getLsbD 1 then a2f else 0#8 := st.and_twoPow 1
  have hboth : st &&& 0x03#8 = st &&& a1f ||| st &&& a2f := BitVec.and_or_distrib_left (y := 0x01#8) (z := 0x02#8)
  rw [triggerFlags, hboth, hfirst, hsecond]
  split <;> split <;> decide

theorem triggerFlags_clear {st : Byte} (h : st &&& 0x03#8 = 0#8) : triggerFlags st = (false, false) := by
  have hnone := mt (triggerFlags_set_iff st).1 (not_not_intro h)
  rw [Bool.not_eq_true, Bool.or_eq_false_iff] at hnone
  exact Prod.ext hnone.1 hnone.2

/-- The Status image that the acknowledge sends back for the byte `st` it has read. -/
def acknowledgeImage (st : Byte) (s : State) : State := removeBit regStatus (a1f ||| a2f) (putReg regStatus st s)

theorem getReg_acknowledgeImage (st : Byte) (s : State) :
    getReg regStatus (acknowledgeImage st s) = st &&& 0xFC#8 := by
  rw [acknowledgeImage, removeBit, getReg_putReg_same _ _ _ (by decide), getReg_putReg_same _ _ _ (by decide)]
  rfl

/-- What `GetAlarmTriggerState` does on its own register set. -/
def readTriggers (s : State) : Res Status (Bool × Bool) :=
  (readOne regStatus s).bind fun _ t => acknowledge (isSet regStatus a1f t, isSet regStatus a2f t) t

theorem hostExec_getAlarmTriggerState (s : State) :
    hostExec .getAlarmTriggerState s = handBack (fun p => .triggerState p.1 p.2) (withFreshRegs readTriggers s) := rfl

/-- The flags read are acknowledged with one write of the image, when one of them is set. -/
theorem readTriggers_done {st : Byte} {s t : State} (h : receiveReg 0x0F#8 s = .done st t) :
    readTriggers s =
      if st &&& 0x03#8 = 0#8 then .done (false, false) (putReg regStatus st t)
      else (sendReg 0x0F#8 (st &&& 0xFC#8) (acknowledgeImage st t)).bind fun _ u => .done (triggerFlags st) u := by
  have hslot : getReg regStatus (putReg regStatus st t) = st := getReg_putReg_same _ _ _ (by decide)
  rw [readTriggers, readOne_done (by decide) h, bind_done, isSet_eq_decide, isSet_eq_decide, hslot, ← triggerFlags,
    acknowledge]
  by_cases hclear : st &&& 0x03#8 = 0#8
  · rw [if_neg (mt (triggerFlags_set_iff st).1 (not_not_intro hclear)), if_pos hclear, triggerFlags_clear hclear]
  · rw [if_pos ((triggerFlags_set_iff st).2 hclear), if_neg hclear, ← acknowledgeImage,
      writeOne_of_valid (by decide), getReg_acknowledgeImage]

/-- Settles O56: the flags read decide whether the image is sent back (`readTriggers_done`), which has both removed
(`getReg_acknowledgeImage`). -/
theorem triggersAreAcknowledgedOnce : Obligations.TriggersAreAcknowledgedOnce := by
  intro s t
  simp only [hostExec_getAlarmTriggerState]
  refine ⟨fun e h => ?_, fun st h => ⟨fun hclear => ?_, fun hset =>
    ⟨acknowledgeImage st t, getReg_acknowledgeImage st t, rfl, fun w hs => ?_, fun e w hs => ?_⟩⟩⟩
  · exact handBack_withFreshRegs_failed (by rw [readTriggers, readOne_failed (by decide) h, bind_failed])
  · exact handBack_withFreshRegs_done ((readTriggers_done h).trans (if_pos hclear))
  · exact handBack_withFreshRegs_done (a := triggerFlags st) (by rw [readTriggers_done h, if_neg hset, hs, bind_done])
  · exact handBack_withFreshRegs_failed (by rw [readTriggers_done h, if_neg hset, hs, bind_failed])

end Sys2Proof.Machine
end

section
/-! PROOFS. O49 to O51: the seven time registers, as the encoder leaves them and as the decoder reads them, and the
transfers of `GetDateTime` and `SetDateTime` (45_rtc_codec.md R140, R141, R143, R144). -/

namespace Sys2Proof.Machine

/-! ### Hours (45_rtc_codec.md R141) -/

/-- The byte of a 12-hour hour has the mode bit, the meridiem and the hour's digits. -/
theorem hourByte_h12 : ∀ (pm : Bool), ∀ hr ≤ 12,
    hourByte .h12 pm hr &&& 0x40#8 = 0x40#8 ∧ decide (hourByte .h12 pm hr &&& 0x20#8 = 0x20#8) = pm ∧
      bcdValue (hourByte .h12 pm hr) 0x10#8 0x0F#8 = hr := by decide

/-- The byte of a 24-hour hour has the mode bit clear. -/
theorem hourByte_h24 (pm : Bool) : ∀ hr ≤ 23, hourByte .h24 pm hr &&& 0x40#8 ≠ 0x40#8 := by
  cases pm <;> decide

theorem hourByte_bit7 (mode : HourMode) (pm : Bool) (hr : Nat) : hourByte mode pm hr &&& 0x80#8 = 0#8 := by
  cases mode with
  | h24 => exact digitByte_outside hr (by decide)
  | h12 =>
    rw [hourByte, BitVec.and_or_distrib_right, BitVec.and_or_distrib_right, digitByte_outside hr (by decide)]
    cases pm <;> rfl

theorem fitsHour_nonneg {t : RtcTime} (h : fitsHour t) : 0 ≤ t.hour := by
  rw [fitsHour] at h
  split at h
  next => exact h.1
  next => exact h.1

/-- An hour the layout carries comes back with its mode and meridiem, whatever bit 7 holds beside it. -/
theorem decodeHour_of_hourByte {h hr : Nat} {t : RtcTime} {s : State} (hfits : fitsHour t) (hhour : t.hour = hr)
    (hb : getReg h s &&& 0x7F#8 = hourByte t.mode t.pm hr) : decodeHour h s = (t.hour, t.mode, t.pm) := by
  obtain ⟨hour, minute, second, mode, pm⟩ := t
  cases hhour
  cases mode with
  | h12 =>
    obtain ⟨-, hle⟩ := hfits
    obtain ⟨hmode, hpm, hdigits⟩ := hourByte_h12 pm hr (by simpa using hle)
    rw [decodeHour_h12 rfl ((and_of_lowBits hb (by decide)).trans hmode), and_of_lowBits hb (by decide), hpm,
      bcdValue_congr (and_of_lowBits hb (by decide)) (and_of_lowBits hb (by decide)), hdigits]
    rfl
  | h24 =>
    obtain ⟨-, hle, rfl⟩ := hfits
    have hle : hr ≤ 23 := by simpa using hle
    have hmode : getReg h s &&& 0x40#8 ≠ 0x40#8 := by
      rw [and_of_lowBits hb (by decide)]
      exact hourByte_h24 false hr hle
    rw [decodeHour_h24 rfl hmode, bcdValue_of_lowBits (v := hr) (limit := 39) (by simp) (by omega) hb]
    rfl

/-! ### A slot after `toBcd`, and after the century bit -/

theorem getReg_toBcd (i j : Nat) (v : Int) (msb lsb : Byte) (s : State) :
    getReg j (toBcd i v msb lsb s) =
      if i = j ∧ i < 19 then bcdMerge s.params.bcdMerge (getReg i s) v msb lsb else getReg j s :=
  getReg_putReg _ _ _ _

/-- `toBcd` of a non-negative value into a clear slot leaves its digits there, under either merge. -/
theorem getReg_toBcd_clear {i : Nat} {s : State} (hi : i < 19) (hclear : getReg i s = 0#8) (v : Nat) (msb : Byte) :
    getReg i (toBcd i v msb lsb4 s) = digitByte v msb := by
  rw [getReg_toBcd, if_pos ⟨rfl, hi⟩, hclear]
  exact bcdMerge_zero _ _ _

theorem getReg_toBcd_other {i j : Nat} (h : i ≠ j) (v : Int) (msb lsb : Byte) (s : State) :
    getReg j (toBcd i v msb lsb s) = getReg j s :=
  getReg_putReg_other _ _ _ _ h

/-- A bit set on a condition. -/
theorem getReg_setBit_ite {i : Nat} (hi : i < 19) (p : Prop) [Decidable p] (m : Byte) (j : Nat) (s : State) :
    getReg j (if p then setBit i m s else s) = if i = j then getReg j s ||| (if p then m else 0#8) else getReg j s := by
  by_cases hp : p
  · simp only [if_pos hp, setBit, getReg_putReg, hi, and_true]
    split
    next h => rw [h, withBits]
    next => rfl
  · simp [hp]

/-! ### The time registers of an image -/

/-- The image holds these bytes in the seven time registers. -/
structure TimeImage (sec min hr wday date month year : Byte) (s : State) : Prop where
  sec : getReg regSeconds s = sec
  min : getReg regMinutes s = min
  hr : getReg regHours s = hr
  wday : getReg regWeekDay s = wday
  date : getReg regDate s = date
  month : getReg regMonth s = month
  year : getReg regYear s = year

/-- Each step of the encoder writes its own slot, once and from a clear one, but for the century bit, which joins the
month's digits. -/
theorem timeImage_encode (mode : HourMode) (pm : Bool) (sec min hr wd d mo y : Nat) (s : State) :
    TimeImage (digitByte sec 0x70#8) (digitByte min 0x70#8) (hourByte mode pm hr) (BitVec.ofNat 8 wd &&& 0x07#8)
      (digitByte d 0x30#8) (digitByte mo 0x10#8 ||| (if 2000 ≤ y then 0x80#8 else 0#8)) (digitByte (y % 100) 0xF0#8)
      (encodeDateTime { second := sec, minute := min, hour := hr, mode := mode, pm := pm
                        weekday := wd, day := d, month := mo, year := y } (clearRegs s)) := by
  have hyear : specMod y 100 = (y % 100 : Nat) := specMod_nat y 100
  generalize y % 100 = twoDigits at hyear ⊢
  constructor <;>
    simp +decide [encodeDateTime, secMsb, minMsb, wdayMask, dateMsb, monthMsb, century, yearMsb, hyear, specByte_nat,
      getReg_toBcd_clear, getReg_toBcd_other, getReg_setBit_ite, getReg_encodeHour, getReg_encodeHour_other,
      getReg_putReg_other]

theorem toNat_and_weekdayMask (b : Byte) : (b &&& 0x07#8).toNat = b.toNat % 8 :=
  Nat.and_two_pow_sub_one_eq_mod b.toNat 3

/-- The hour, the mode and the meridiem are the hour decoder's. -/
theorem decodeDateTime_hour (s : State) :
    ((decodeDateTime s).hour, (decodeDateTime s).mode, (decodeDateTime s).pm) = decodeHour regHours s := rfl

section

variable {sec min hr wday date month year : Byte} {s : State}

theorem TimeImage.second_eq (h : TimeImage sec min hr wday date month year s) :
    (decodeDateTime s).second = bcdValue sec 0x70#8 0x0F#8 := congrArg (bcdValue · secMsb lsb4) h.sec

theorem TimeImage.minute_eq (h : TimeImage sec min hr wday date month year s) :
    (decodeDateTime s).minute = bcdValue min 0x70#8 0x0F#8 := congrArg (bcdValue · minMsb lsb4) h.min

theorem TimeImage.weekday_eq (h : TimeImage sec min hr wday date month year s) :
    (decodeDateTime s).weekday = (wday.toNat % 8 : Nat) := by
  rw [← toNat_and_weekdayMask, ← h.wday]
  rfl

theorem TimeImage.day_eq (h : TimeImage sec min hr wday date month year s) :
    (decodeDateTime s).day = bcdValue date 0x30#8 0x0F#8 := congrArg (bcdValue · dateMsb lsb4) h.date

theorem TimeImage.month_eq (h : TimeImage sec min hr wday date month year s) :
    (decodeDateTime s).month = bcdValue month 0x10#8 0x0F#8 := congrArg (bcdValue · monthMsb lsb4) h.month

/-- The century bit of the month byte gives the base of the year. -/
theorem TimeImage.year_eq (h : TimeImage sec min hr wday date month year s) :
    (decodeDateTime s).year = (if month &&& 0x80#8 = 0x80#8 then 2000 else 1900) + bcdValue year 0xF0#8 0x0F#8 := by
  simp only [decodeDateTime, isSet_eq_decide, fromBcd, h.month, h.year, decide_eq_true_eq]
  rfl

theorem TimeImage.hour_h12 (h : TimeImage sec min hr wday date month year s) (hm : hr &&& 0x40#8 = 0x40#8) :
    (decodeDateTime s).hour = bcdValue hr 0x10#8 0x0F#8 ∧ (decodeDateTime s).mode = .h12 ∧
      (decodeDateTime s).pm = decide (hr &&& 0x20#8 = 0x20#8) := by
  simpa only [Prod.mk.injEq] using (decodeDateTime_hour s).trans (decodeHour_h12 h.hr hm)

theorem TimeImage.hour_h24 (h : TimeImage sec min hr wday date month year s) (hm : hr &&& 0x40#8 ≠ 0x40#8) :
    (decodeDateTime s).hour = bcdValue hr 0x30#8 0x0F#8 ∧ (decodeDateTime s).mode = .h24 ∧
      (decodeDateTime s).pm = false := by
  simpa only [Prod.mk.injEq] using (decodeDateTime_hour s).trans (decodeHour_h24 h.hr hm)

end

/-! ### The round trip (45_rtc_codec.md R143, R144) -/

/-- The hour, the mode and the meridiem are compared as the hour decoder gives them. -/
theorem RtcDateTime.eq_of_fields {d e : RtcDateTime} (hhour : (d.hour, d.mode, d.pm) = (e.hour, e.mode, e.pm))
    (hsecond : d.second = e.second) (hminute : d.minute = e.minute) (hweekday : d.weekday = e.weekday)
    (hday : d.day = e.day) (hmonth : d.month = e.month) (hyear : d.year = e.year) : d = e := by
  obtain ⟨⟨_, _, _, _, _⟩, _, _, _, _⟩ := d
  obtain ⟨⟨_, _, _, _, _⟩, _, _, _, _⟩ := e
  simp_all

/-- The century bit and the two digits of a year in 1900..2099 are that year (45_rtc_codec.md R143, R144). -/
theorem year_of_century {y : Nat} (hmin : 1900 ≤ y) (hmax : y ≤ 2099) :
    (if (if 2000 ≤ y then 0x80#8 else 0#8) = 0x80#8 then 2000 else 1900) + ((y % 100 : Nat) : Int) = y := by
  by_cases hc : 2000 ≤ y
  · rw [if_pos hc, if_pos rfl]
    omega
  · rw [if_neg hc, if_neg (by decide)]
    omega

/-- Settles O50: the seven slots hold the encoder's bytes (`timeImage_encode`), and each field the decoder takes from
them (`TimeImage`) is the field encoded, since its byte carries it. -/
theorem dateTimeRoundTrip : Obligations.DateTimeRoundTrip := by
  intro s dt hfits
  obtain ⟨⟨hour, minute, second, mode, pm⟩, day, weekday, month, year⟩ := dt
  simp only [fitsDateTime] at hfits
  obtain ⟨hhour, hsec0, hsec, hmin0, hmin, hwday0, hwday, hday0, hday, hmonth0, hmonth, hyear0, hyear⟩ := hfits
  have hhour0 : 0 ≤ hour := fitsHour_nonneg hhour
  have hyear0' : 0 ≤ year := by omega
  lift hour to Nat using hhour0
  lift minute to Nat using hmin0
  lift second to Nat using hsec0
  lift day to Nat using hday0
  lift weekday to Nat using hwday0
  lift month to Nat using hmonth0
  lift year to Nat using hyear0'
  have himg := timeImage_encode mode pm second minute hour weekday day month year s
  have hcentury : (if 2000 ≤ year then 0x80#8 else 0#8) &&& 0x7F#8 = 0#8 := by split <;> rfl
  have hmonthBit7 : digitByte month 0x10#8 &&& 0x80#8 = 0#8 := digitByte_outside month (by decide)
  obtain ⟨hmonthDigits, hmonthCentury⟩ := split_or_bit7 hmonthBit7 hcentury
  refine RtcDateTime.eq_of_fields ?_ (himg.second_eq.trans ?_) (himg.minute_eq.trans ?_) (himg.weekday_eq.trans ?_)
    (himg.day_eq.trans ?_) (himg.month_eq.trans ?_) (himg.year_eq.trans ?_)
  · rw [decodeDateTime_hour]
    exact decodeHour_of_hourByte hhour rfl (by rw [himg.hr]; exact lowBits_of_bit7_clear (hourByte_bit7 mode pm hour))
  · exact bcdValue_digitByte (limit := 79) (by simp) (by omega)
  · exact bcdValue_digitByte (limit := 79) (by simp) (by omega)
  · rw [toNat_and_weekdayMask, BitVec.toNat_ofNat]
    simp only
    omega
  · exact bcdValue_digitByte (limit := 39) (by simp) (by omega)
  · exact bcdValue_of_lowBits (limit := 19) (by simp) (by omega) hmonthDigits
  · rw [hmonthCentury, bcdValue_digitByte (limit := 99) (by simp) (by omega)]
    exact year_of_century (by omega) (by omega)

/-! ### `GetDateTime` (45_rtc_codec.md R143) -/

/-- The image after the seven registers were read. -/
theorem timeImage_read (sec min hr wday date month year : Byte) (s : State) :
    TimeImage sec min hr wday date month year (putRegs regSeconds [sec, min, hr, wday, date, month, year] s) := by
  have hslot (k : Nat) (hk : k < 7) := getReg_putRegs_inside (i := regSeconds)
    (bytes := [sec, min, hr, wday, date, month, year]) (Nat.le_of_ble_eq_true rfl) hk s
  exact ⟨hslot 0 (by decide), hslot 1 (by decide), hslot 2 (by decide), hslot 3 (by decide), hslot 4 (by decide),
    hslot 5 (by decide), hslot 6 (by decide)⟩

/-- `GetDateTime` answers what the image of the bytes read says. -/
theorem getDateTime_done {s t : State} {data : List Byte} (h : receiveBlock 0x00#8 7 (clearRegs s) = .done data t) :
    hostExec .getDateTime s = .next { t with
      regs := s.regs, result := some (.dateTime (decodeDateTime (putRegs regSeconds data t))) } := by
  have hread : readBlock regSeconds 7 (clearRegs s) = .done () (putRegs regSeconds data t) :=
    readBlock_done (n := 7) (by decide) (by decide) h
  exact handBack_withFreshRegs_putRegs (f := .dateTime) (i := regSeconds) (data := data)
    (by simp only [hread, bind_done])

/-- `GetDateTime` answers the status of a read that failed. -/
theorem getDateTime_failed {s t : State} {e : Status} (h : receiveBlock 0x00#8 7 (clearRegs s) = .failed e t) :
    hostExec .getDateTime s = .next { afterFailedRead regSeconds 7 t with
      regs := s.regs, result := some (.status e) } := by
  have hread : readBlock regSeconds 7 (clearRegs s) = .failed e (afterFailedRead regSeconds 7 t) :=
    readBlock_failed (n := 7) (by decide) (by decide) h
  exact handBack_withFreshRegs_failed (by simp only [hread, bind_failed])

/-- Settles O49: the answer is decoded from the image of the seven bytes read (`getDateTime_done`, `timeImage_read`). -/
theorem dateTimeIsDecoded : Obligations.DateTimeIsDecoded := by
  intro s
  refine ⟨fun sec min hr wday date month year t h => ?_, fun st t h => ?_⟩
  · have himg := timeImage_read sec min hr wday date month year t
    refine ⟨_, _, getDateTime_done h, rfl, himg.second_eq, himg.minute_eq, himg.hour_h12, himg.hour_h24,
      himg.weekday_eq, himg.day_eq, himg.month_eq, ?_, rfl, rfl⟩
    simpa only [bit7_set_iff] using himg.year_eq
  · exact ⟨_, getDateTime_failed h, rfl, afterFailedRead_trace _ _ _⟩

/-! ### `SetDateTime` (45_rtc_codec.md R144) -/

/-- The Control and Status image that `resumeClock` sends back for the bytes it has read. -/
def resumeImage (c st : Byte) (s : State) : State :=
  removeBit regStatus osf (removeBit regControl eosc (putRegs regControl [c, st] s))

theorem getReg_resumeImage (c st : Byte) (s : State) :
    getReg regControl (resumeImage c st s) = c &&& 0x7F#8 ∧
      getReg regStatus (resumeImage c st s) = st &&& 0x7F#8 := by
  obtain ⟨hcontrol, hstatus⟩ := getReg_putRegs_pair (i := regControl) (j := regStatus) rfl (by decide) c st s
  constructor
  · rw [resumeImage, removeBit, getReg_putReg_other _ _ _ _ (by decide), removeBit,
      getReg_putReg_same _ _ _ (by decide), hcontrol]
    rfl
  · rw [resumeImage, removeBit, getReg_putReg_same _ _ _ (by decide), removeBit,
      getReg_putReg_other _ _ _ _ (by decide), hstatus]
    rfl

theorem resumeImage_eq (c st : Byte) (s : State) :
    resumeImage c st s = { s with regs := (resumeImage c st s).regs } := by
  have hread : RegsOnly (putRegs regControl [c, st]) := putRegs_eq _ _
  exact (hread.comp (regsOnly_removeBit regControl eosc)).comp (regsOnly_removeBit regStatus osf) s

/-- After Control and Status were read, they are sent back when bit 7 of either is set. -/
theorem resumeClock_read (c st : Byte) (s : State) :
    resumeClock (putRegs regControl [c, st] s) =
      if 128 ≤ c.toNat ∨ 128 ≤ st.toNat then
        sendBlock 0x0E#8 [c &&& 0x7F#8, st &&& 0x7F#8] (resumeImage c st s)
      else .done () (putRegs regControl [c, st] s) := by
  obtain ⟨hcontrol, hstatus⟩ := getReg_putRegs_pair (i := regControl) (j := regStatus) rfl (by decide) c st s
  obtain ⟨hcontrol', hstatus'⟩ := getReg_resumeImage c st s
  rw [resumeClock, ← resumeImage, writeRange_pair rfl (by decide), hcontrol', hstatus']
  simp only [eosc, osf, isSet_bit7, hcontrol, hstatus, Bool.or_eq_true, decide_eq_true_eq]

/-- What `SetDateTime` does after its write. -/
def readAndResume (s : State) : Res Status Unit :=
  (readRange regControl regStatus s).bind fun _ t => resumeClock t

theorem readAndResume_done {c st : Byte} {s t : State} (h : receiveBlock 0x0E#8 2 s = .done [c, st] t) :
    readAndResume s = resumeClock (putRegs regControl [c, st] t) := by
  rw [readAndResume, readRange_pair_done rfl (by decide) h, bind_done]

theorem readAndResume_failed {e : Status} {s t : State} (h : receiveBlock 0x0E#8 2 s = .failed e t) :
    readAndResume s = .failed e (afterFailedRead regControl 2 t) := by
  rw [readAndResume, readRange_pair_failed rfl (by decide) h, bind_failed]

theorem setDateTime_write_failed {dt : RtcDateTime} {s t : State} {e : Status}
    (h : writeBlock 0 7 (encodeDateTime dt (clearRegs s)) = .failed e t) :
    hostExec (.setDateTime dt) s = .next { t with regs := s.regs, result := some (.status e) } := by
  have hwrite : writeBlock regSeconds 7 (encodeDateTime dt (clearRegs s)) = .failed e t := h
  exact handBack_withFreshRegs_failed (by simp only [hwrite, bind_failed])

/-- After its write `SetDateTime` resumes the clock. -/
theorem setDateTime_write_done {dt : RtcDateTime} {s t : State}
    (h : writeBlock 0 7 (encodeDateTime dt (clearRegs s)) = .done () t) :
    (∀ u, readAndResume t = .done () u →
      hostExec (.setDateTime dt) s = .next { u with regs := s.regs, result := some (.status .ok) }) ∧
    (∀ e u, readAndResume t = .failed e u →
      hostExec (.setDateTime dt) s = .next { u with regs := s.regs, result := some (.status e) }) := by
  have hwrite : writeBlock regSeconds 7 (encodeDateTime dt (clearRegs s)) = .done () t := h
  refine ⟨fun u hu => ?_, fun e u hu => ?_⟩
  · exact handBack_withFreshRegs_done (f := okStatus) (a := ()) (by simp only [hwrite, bind_done]; exact hu)
  · exact handBack_withFreshRegs_failed (by simp only [hwrite, bind_done]; exact hu)

/-- Settles O51: the seven bytes are the image's (`timeImage_encode`); the transfers are `setDateTime_write_failed`,
`setDateTime_write_done` and those of `readAndResume`, the third one on the image of `getReg_resumeImage`. -/
theorem setDateTimeClearsTheOscillatorBits : Obligations.SetDateTimeClearsTheOscillatorBits := by
  intro s t dt
  refine ⟨fun sec min hr wd d mo y _ _ _ _ _ _ hdt => ?_, fun e => setDateTime_write_failed, fun hwrite => ?_⟩
  · obtain ⟨⟨hour, minute, second, mode, pm⟩, day, weekday, month, year⟩ := dt
    cases hdt
    have himg := timeImage_encode mode pm sec min hr wd d mo y s
    rw [← himg.sec, ← himg.min, ← himg.hr, ← himg.wday, ← himg.date, ← himg.month, ← himg.year]
    rfl
  obtain ⟨hdone, hfailed⟩ := setDateTime_write_done hwrite
  refine ⟨fun e u hread => ?_, fun c st u hread => ?_⟩
  · obtain ⟨regs, draws, hafter⟩ := afterFailedRead_eq regControl 2 u
    exact ⟨draws, hfailed e _ (hafter ▸ readAndResume_failed hread)⟩
  have hresume := (readAndResume_done hread).trans (resumeClock_read c st u)
  refine ⟨fun hc hst => ?_, fun hset => ?_⟩
  · rw [if_neg (by omega)] at hresume
    rw [hdone _ hresume, putRegs_eq]
  · obtain ⟨hcontrol, hstatus⟩ := getReg_resumeImage c st u
    rw [if_pos hset] at hresume
    exact ⟨resumeImage c st u, hcontrol, hstatus, resumeImage_eq c st u, fun w hs => hdone w (hresume.trans hs),
      fun e w hs => hfailed e w (hresume.trans hs)⟩

end Sys2Proof.Machine
end

section
/-! PROOFS. O52 and O53: the registers of an encoded alarm, their exclude bits, and the alarm they are decoded to
(45_rtc_codec.md R141, R146 to R149). -/

namespace Sys2Proof.Machine

/-! ### The bits an encoder leaves as they were -/

theorem toBcd_keeps_bits {msb m : Byte} (hm : m &&& (msb ||| 0x0F#8) = 0#8) (i j : Nat) (v : Int) (s : State) :
    getReg j (toBcd i v msb lsb4 s) &&& m = getReg j s &&& m := by
  rw [getReg_toBcd]
  split
  next h =>
    obtain ⟨rfl, -⟩ := h
    exact bcdMerge_outside _ _ _ _ _ hm
  next => rfl

theorem setBit_keeps_bits {b m : Byte} (hm : b &&& m = 0#8) (i j : Nat) (s : State) :
    getReg j (setBit i b s) &&& m = getReg j s &&& m := by
  rw [setBit, getReg_putReg]
  split
  next h =>
    obtain ⟨rfl, -⟩ := h
    rw [withBits, BitVec.and_or_distrib_right, hm, BitVec.or_zero]
  next => rfl

theorem encodeHour_keeps_bit7 (h j : Nat) (t : RtcTime) (s : State) :
    getReg j (encodeHour h t s) &&& 0x80#8 = getReg j s &&& 0x80#8 := by
  rw [encodeHour]
  split
  next =>
    rw [toBcd_keeps_bits (by decide)]
    split
    next => rw [setBit_keeps_bits (by decide), setBit_keeps_bits (by decide)]
    next => rw [setBit_keeps_bits (by decide)]
  next => rw [toBcd_keeps_bits (by decide)]

/-- A day of week is written under the mask 0x0F. -/
theorem weekdayBits_outside {m : Byte} (hm : adayWdayMask &&& m = 0#8) (b : Byte) :
    (b &&& adayWdayMask) &&& m = 0#8 := by
  rw [BitVec.and_assoc, hm, BitVec.and_zero]

theorem encodeDay_keeps_bit7 (d j : Nat) (a : RtcAlarm) (s : State) :
    getReg j (encodeDay d a s) &&& 0x80#8 = getReg j s &&& 0x80#8 := by
  rw [encodeDay]
  split
  next =>
    rw [getReg_putReg]
    split
    next h =>
      obtain ⟨rfl, -⟩ := h
      rw [BitVec.and_or_distrib_right, weekdayBits_outside (by decide), BitVec.or_zero, setBit_keeps_bits (by decide)]
    next => rw [setBit_keeps_bits (by decide)]
  next => rw [toBcd_keeps_bits (by decide)]

/-- From a clear slot the day encoder sets DYDT for the interval `WeekDay` only (45_rtc_codec.md R148). -/
theorem encodeDay_dydt {d : Nat} {s : State} (hd : d < 19) (hclear : getReg d s = 0#8) (a : RtcAlarm) :
    getReg d (encodeDay d a s) &&& 0x40#8 = if a.interval = .weekDay then 0x40#8 else 0#8 := by
  rw [encodeDay]
  split
  next =>
    rw [getReg_putReg_same _ _ _ hd, setBit, getReg_putReg_same _ _ _ hd, hclear, BitVec.and_or_distrib_right,
      weekdayBits_outside (by decide)]
    rfl
  next => rw [toBcd_keeps_bits (by decide), hclear, BitVec.zero_and]

/-! ### The alarm registers before and after the exclude bits (45_rtc_codec.md R147, R148) -/

/-- The image of an alarm's seconds, which the second alarm has none of (45_rtc_codec.md R146). -/
def alarmSecondsImage (id : AlarmId) (a : RtcAlarm) (s : State) : State :=
  match id with
  | .first => toBcd regAlarm1Seconds a.second secMsb lsb4 s
  | .second => s

/-- The image of an alarm record's fields, without the exclude bits. -/
def alarmFieldImage (id : AlarmId) (a : RtcAlarm) (s : State) : State :=
  encodeDay (dayReg id) a
    (encodeHour (hrsReg id) a.toRtcTime (toBcd (minReg id) a.minute minMsb lsb4 (alarmSecondsImage id a s)))

theorem encodeAlarm_eq (id : AlarmId) (a : RtcAlarm) (s : State) : encodeAlarm id a s =
    setExclusions s.params.alarmScheme a.interval (alarmFields id) (alarmFieldImage id a s) := rfl

theorem alarmFieldImage_keeps_bit7 (id : AlarmId) (a : RtcAlarm) (j : Nat) (s : State) :
    getReg j (alarmFieldImage id a s) &&& 0x80#8 = getReg j s &&& 0x80#8 := by
  rw [alarmFieldImage, encodeDay_keeps_bit7, encodeHour_keeps_bit7, toBcd_keeps_bits (by decide)]
  cases id with
  | first => exact toBcd_keeps_bits (by decide) _ _ _ _
  | second => rfl

/-- DYDT in an encoded day field. -/
theorem alarmFieldImage_dydt (id : AlarmId) (a : RtcAlarm) (s : State) :
    getReg (dayReg id) (alarmFieldImage id a (clearRegs s)) &&& 0x40#8 =
      if a.interval = .weekDay then 0x40#8 else 0#8 := by
  refine encodeDay_dydt (by cases id <;> decide) ?_ a
  cases id <;> simp +decide [alarmSecondsImage, getReg_encodeHour_other, getReg_toBcd_other, dayReg, hrsReg, minReg]

/-- The exclude bit of a field, by its rank. -/
def excludeBit (scheme : AlarmScheme) (iv : AlarmInterval) (rank : Nat) : Byte :=
  if excluded scheme rank iv then 0x80#8 else 0#8

theorem excludeBit_lowBits (scheme : AlarmScheme) (iv : AlarmInterval) (rank : Nat) :
    excludeBit scheme iv rank &&& 0x7F#8 = 0#8 := by
  rw [excludeBit]
  split <;> rfl

theorem alarmFields_reg_lt {id : AlarmId} : ∀ f ∈ alarmFields id, f.reg < 19 := by cases id <;> decide

theorem alarmFields_reg_injective {id : AlarmId} :
    ∀ f ∈ alarmFields id, ∀ g ∈ alarmFields id, f.reg = g.reg → f = g := by cases id <;> decide

theorem minField_mem (id : AlarmId) : (⟨minReg id, 2⟩ : AlarmField) ∈ alarmFields id := by cases id <;> decide

theorem hrsField_mem (id : AlarmId) : (⟨hrsReg id, 3⟩ : AlarmField) ∈ alarmFields id := by cases id <;> decide

theorem dayField_mem (id : AlarmId) : (⟨dayReg id, 4⟩ : AlarmField) ∈ alarmFields id := by cases id <;> decide

/-- Each field's slot gets its exclude bit. -/
theorem getReg_encodeAlarm {id : AlarmId} {f : AlarmField} (hf : f ∈ alarmFields id) (a : RtcAlarm) (s : State) :
    getReg f.reg (encodeAlarm id a s) =
      getReg f.reg (alarmFieldImage id a s) ||| excludeBit s.params.alarmScheme a.interval f.rank := by
  have hfield : (∃ g ∈ alarmFields id, g.reg = f.reg ∧ excluded s.params.alarmScheme g.rank a.interval = true) ↔
      excluded s.params.alarmScheme f.rank a.interval = true :=
    ⟨fun ⟨g, hg, hreg, hexcluded⟩ => alarmFields_reg_injective g hg f hf hreg ▸ hexcluded,
      fun h => ⟨f, hf, rfl, h⟩⟩
  rw [encodeAlarm_eq, getReg_setExclusions _ _ _ _ _ alarmFields_reg_lt, excludeBit]
  simp only [hfield]
  split
  next => rfl
  next => exact (BitVec.or_zero).symm

/-- The slot is the field's byte below the exclude bit. -/
theorem encodeAlarm_split {id : AlarmId} {f : AlarmField} (hf : f ∈ alarmFields id) (a : RtcAlarm) (s : State) :
    getReg f.reg (encodeAlarm id a (clearRegs s)) &&& 0x7F#8 = getReg f.reg (alarmFieldImage id a (clearRegs s)) ∧
      getReg f.reg (encodeAlarm id a (clearRegs s)) &&& 0x80#8 = excludeBit s.params.alarmScheme a.interval f.rank := by
  have hclear : getReg f.reg (alarmFieldImage id a (clearRegs s)) &&& 0x80#8 = 0#8 := by
    rw [alarmFieldImage_keeps_bit7, getReg_clearRegs, BitVec.zero_and]
  rw [getReg_encodeAlarm hf]
  exact split_or_bit7 hclear (excludeBit_lowBits _ _ _)

/-- Settles O52: the table is evaluated, and bit 7 of a field's slot is its exclude bit (`encodeAlarm_split`). -/
theorem exclusionTable : Obligations.ExclusionTable := by
  refine ⟨fun scheme iv => by cases scheme <;> cases iv <;> rfl, fun s id a reg rank hfield => ?_⟩
  have hf : (⟨reg, rank⟩ : AlarmField) ∈ alarmFields id := by cases id <;> simpa [alarmFields] using hfield
  exact (encodeAlarm_split hf a s).2

/-! ### The interval (45_rtc_codec.md R149) -/

/-- The interval inferred from exclude bits that follow the table and a DYDT bit that follows the interval. -/
theorem inferInterval_of_exclusions {id : AlarmId} {iv : AlarmInterval} {s : State}
    (hclear : ∀ f ∈ alarmFields id, isClear f.reg exclBit s = !excluded s.params.alarmScheme f.rank iv)
    (hday : isSet (dayReg id) dydt s = decide (iv = .weekDay)) :
    inferInterval id s = if id = .second ∧ iv = .seconds then .everySecond else iv := by
  simp only [inferInterval, List.filter_congr hclear, fieldInterval, hday]
  cases s.params.alarmScheme with
  | cumulative =>
    -- The fields left clear are those up to the interval's rank, and its own is the last.
    cases id <;> cases iv <;> rfl
  | oneHot =>
    -- The interval's own field is the only one left clear.
    cases id <;> cases iv <;> rfl

/-- The interval of an encoded alarm, whatever its fields. -/
theorem inferInterval_encodeAlarm (id : AlarmId) (a : RtcAlarm) (s : State) :
    inferInterval id (encodeAlarm id a (clearRegs s)) =
      if id = .second ∧ a.interval = .seconds then .everySecond else a.interval := by
  have hscheme : (encodeAlarm id a (clearRegs s)).params = s.params := by rw [regsOnly_encodeAlarm]; rfl
  refine inferInterval_of_exclusions (fun f hf => ?_) ?_
  · rw [isClear_eq_decide, exclBit, (encodeAlarm_split hf a s).2, hscheme, excludeBit]
    split
    next h => rw [h]; rfl
    next h => rw [Bool.not_eq_true] at h; rw [h]; rfl
  · rw [isSet_eq_decide, dydt, and_of_lowBits (encodeAlarm_split (dayField_mem id) a s).1 (by decide),
      alarmFieldImage_dydt]
    by_cases h : a.interval = .weekDay
    · rw [if_pos h, decide_eq_true h]
      rfl
    · rw [if_neg h, decide_eq_false h]
      rfl

/-! ### The bytes (45_rtc_codec.md R148) -/

/-- The byte of the day field, without its exclude bit: a day of week under DYDT, or a day of month. -/
def dayByte (iv : AlarmInterval) (wday day : Nat) : Byte :=
  if iv = .weekDay then 0x40#8 ||| (BitVec.ofNat 8 wday &&& 0x0F#8) else digitByte day 0x30#8

/-- The encoder's bytes before the exclude bits, for fields none of which is negative. -/
theorem alarmImage_fields {a : RtcAlarm} {sec min hr wday day : Nat} (hsec : a.second = sec) (hmin : a.minute = min)
    (hhr : a.hour = hr) (hwday : a.weekday = wday) (hday : a.day = day) (id : AlarmId) (s : State) :
    AlarmImage id (digitByte sec 0x70#8) (digitByte min 0x70#8) (hourByte a.mode a.pm hr)
      (dayByte a.interval wday day) 0#8 (alarmFieldImage id a (clearRegs s)) := by
  have hhour := getReg_encodeHour (ht := hhr)
  have hdayField := getReg_encodeDay (h1 := hwday) (h2 := hday)
  cases id <;> constructor <;>
    simp +decide [alarmFieldImage, alarmSecondsImage, minReg, hrsReg, dayReg, secMsb, minMsb, dayByte, hsec, hmin,
      hhour, hdayField, getReg_toBcd_clear, getReg_toBcd_other, getReg_encodeHour_other, getReg_encodeDay_other]

/-- The encoder's bytes with the exclude bits. -/
theorem AlarmImage.exclude {id : AlarmId} {a : RtcAlarm} {sec min hrs day : Byte} {s : State}
    (h : AlarmImage id sec min hrs day 0#8 (alarmFieldImage id a (clearRegs s))) :
    AlarmImage id (sec ||| excludeBit s.params.alarmScheme a.interval 1)
      (min ||| excludeBit s.params.alarmScheme a.interval 2) (hrs ||| excludeBit s.params.alarmScheme a.interval 3)
      (day ||| excludeBit s.params.alarmScheme a.interval 4) 0#8 (encodeAlarm id a (clearRegs s)) := by
  have hslot {f : AlarmField} (hf : f ∈ alarmFields id) := getReg_encodeAlarm hf a (clearRegs s)
  refine ⟨fun hid => ?_, ?_, ?_, ?_, ?_⟩
  · subst hid
    rw [hslot (f := ⟨regAlarm1Seconds, 1⟩) (by decide), h.sec rfl]
    rfl
  · rw [hslot (minField_mem id), h.min]
    rfl
  · rw [hslot (hrsField_mem id), h.hrs]
    rfl
  · rw [hslot (dayField_mem id), h.day]
    rfl
  · have hcontrol : ∀ f ∈ alarmFields id, f.reg ≠ regControl := by cases id <;> decide
    rw [encodeAlarm_eq, getReg_setExclusions _ _ _ _ _ alarmFields_reg_lt, if_neg, h.control]
    exact fun ⟨f, hf, hreg, _⟩ => hcontrol f hf hreg

/-- The slots of the minutes, the hours and the day, in rising order. -/
theorem AlarmImage.block {id : AlarmId} {sec min hrs day c : Byte} {s : State} (h : AlarmImage id sec min hrs day c s) :
    [0, 1, 2].map (fun i => getReg ((if id = .first then 0x08 else 0x0B) + i) s) = [min, hrs, day] := by
  obtain ⟨-, rfl, rfl, rfl, -⟩ := h
  cases id <;> rfl

/-! ### The fields (45_rtc_codec.md R149) -/

theorem dayByte_bit7 (iv : AlarmInterval) (wday day : Nat) : dayByte iv wday day &&& 0x80#8 = 0#8 := by
  rw [dayByte]
  split
  next =>
    rw [BitVec.and_or_distrib_right, BitVec.and_assoc]
    exact congrArg (0#8 ||| ·) BitVec.and_zero
  next => exact digitByte_outside _ (by decide)

/-- A day of week stands beside DYDT. -/
theorem weekdayByte_bits : ∀ wday ≤ 7, (0x40#8 ||| (BitVec.ofNat 8 wday &&& 0x0F#8)) &&& 0x40#8 = 0x40#8 ∧
    ((0x40#8 ||| (BitVec.ofNat 8 wday &&& 0x0F#8)) &&& 0x0F#8).toNat = wday := by decide

/-- A day field that its register carries comes back, and the other one is 0, whatever the exclude bit. -/
theorem AlarmImage.day_of_dayByte {id : AlarmId} {iv : AlarmInterval} {wday day : Nat} {sec min hrs b c : Byte}
    {s : State} (h : AlarmImage id sec min hrs b c s) (hb : b &&& 0x7F#8 = dayByte iv wday day) (hwday : wday ≤ 7)
    (hday : day ≤ 31) :
    (decodeAlarm id s).weekday = (if iv = .weekDay then (wday : Int) else 0) ∧
      (decodeAlarm id s).day = (if iv = .weekDay then 0 else (day : Int)) := by
  rw [dayByte] at hb
  by_cases hiv : iv = .weekDay
  · obtain ⟨hdydt, hvalue⟩ := weekdayByte_bits wday hwday
    rw [if_pos hiv] at hb
    obtain ⟨hweekday, hzero⟩ := h.day_of_dydt ((and_of_lowBits hb (by decide)).trans hdydt)
    rw [hweekday, hzero, and_of_lowBits hb (by decide), hvalue, if_pos hiv, if_pos hiv]
    exact ⟨rfl, rfl⟩
  · rw [if_neg hiv] at hb
    have hdydt : b &&& 0x40#8 ≠ 0x40#8 := by
      rw [and_of_lowBits hb (by decide), digitByte_outside _ (by decide)]
      decide
    obtain ⟨hzero, hvalue⟩ := h.day_of_not_dydt hdydt
    rw [hzero, hvalue, bcdValue_of_lowBits (v := day) (limit := 39) (by simp) (by omega) hb, if_neg hiv, if_neg hiv]
    exact ⟨rfl, rfl⟩

/-- Settles O53: the interval is `inferInterval_encodeAlarm`; the bytes are those of the fields (`alarmImage_fields`)
with the exclude bits (`AlarmImage.exclude`), below which each field is decoded to the value encoded. -/
theorem alarmRoundTrip : Obligations.AlarmRoundTrip := by
  intro s a id d hd
  subst hd
  refine ⟨inferInterval_encodeAlarm id a s, fun hfits hsec0 hsec hmin0 hmin hday0 hday hwday0 hwday => ?_,
    fun sec min hr wday day x _ _ _ _ _ hsec hmin hhr hwday hday hx => ?_⟩
  · obtain ⟨sec, hsecNat⟩ := Int.eq_ofNat_of_zero_le hsec0
    obtain ⟨min, hminNat⟩ := Int.eq_ofNat_of_zero_le hmin0
    obtain ⟨hr, hhrNat⟩ := Int.eq_ofNat_of_zero_le (fitsHour_nonneg hfits)
    obtain ⟨wday, hwdayNat⟩ := Int.eq_ofNat_of_zero_le hwday0
    obtain ⟨day, hdayNat⟩ := Int.eq_ofNat_of_zero_le hday0
    have himg := (alarmImage_fields hsecNat hminNat hhrNat hwdayNat hdayNat id s).exclude
    have hlow {b : Byte} (rank : Nat) (hb : b &&& 0x80#8 = 0#8) :
        (b ||| excludeBit s.params.alarmScheme a.interval rank) &&& 0x7F#8 = b :=
      (split_or_bit7 hb (excludeBit_lowBits _ _ _)).1
    have hhour := decodeHour_of_hourByte hfits hhrNat (by rw [himg.hrs]; exact hlow 3 (hourByte_bit7 _ _ _))
    rw [← decodeAlarm_hour, Prod.mk.injEq, Prod.mk.injEq] at hhour
    obtain ⟨hhour, hmode, hpm⟩ := hhour
    obtain ⟨hweekday, hday⟩ := himg.day_of_dayByte (hlow 4 (dayByte_bit7 _ _ _)) (by omega) (by omega)
    have hdigits {v : Nat} (rank : Nat) (hv : v ≤ 79) :
        bcdValue (digitByte v 0x70#8 ||| excludeBit s.params.alarmScheme a.interval rank) 0x70#8 0x0F#8 = v :=
      bcdValue_of_lowBits (limit := 79) (by simp) hv (hlow rank (digitByte_outside _ (by decide)))
    refine ⟨?_, ?_, hhour, hmode, hpm, ?_, ?_⟩
    · rw [himg.second_eq, hdigits 1 (by omega), hsecNat]
    · rw [himg.minute_eq, hdigits 2 (by omega), hminNat]
    · rw [hweekday, hwdayNat]
    · rw [hday, hdayNat]
  · subst hx
    have himg := (alarmImage_fields hsec hmin hhr hwday hday id s).exclude
    exact ⟨himg.sec, himg.block⟩

end Sys2Proof.Machine
end
